-- ==== Sys2Proof/Word.lean ====
section
/-! DEFINITION. The word types of the core (00_scope.md R8, R9: every value is an unsigned bit vector). -/

namespace Sys2Proof

/-- A register or bus word: 32 bits (10_state.md R14). -/
abbrev Word := BitVec 32

/-- A byte: a blob byte, a node link, a code length or a code's bits (10_state.md R37, R39, R40). -/
abbrev Byte := BitVec 8

/-- An accepted symbol: 0 to 127 (00_scope.md R7, 10_state.md R35, R36). -/
abbrev Sym := BitVec 7

/-- The operand field of a command word, bits 23:0 (30_encoding.md R63). -/
abbrev Arg := BitVec 24

end Sys2Proof
end

