-- ==== Sys2Proof/Syntax.lean ====
section
/-! DEFINITION. The commands of the core, one constructor per row of spec/opcode_table.json (30_encoding.md R65), and the
assembler's lines (30_encoding.md R71). -/

namespace Sys2Proof

/-- A command. The operand of a `sym` or `idx` command is the 24-bit field ARG (R64), so every term is encodable. -/
inductive Instr where
  | nop
  | clear
  | push (arg : Arg)
  | build
  | codes
  | pack
  | encode
  | rdCount (arg : Arg)
  | rdUniq (arg : Arg)
  | rdInput (arg : Arg)
  | rdNode (arg : Arg)
  | rdCode (arg : Arg)
  | rdBlob (arg : Arg)
deriving DecidableEq, Repr

/-- The operand kinds of 30_encoding.md R64. -/
inductive OperandKind where
  | none | sym | idx
deriving DecidableEq, Repr

/-- The 13 mnemonics of 30_encoding.md R65. -/
inductive Mnemonic where
  | nop | clear | push | build | codes | pack | encode
  | rdCount | rdUniq | rdInput | rdNode | rdCode | rdBlob
deriving DecidableEq, Repr

/-- An operand as the assembler reads it (R71): a number, written in decimal or hexadecimal, or a character literal. -/
inductive AsmArg where
  | number (n : Nat)
  | character (c : Char)
deriving DecidableEq, Repr

/-- One line of assembler text: `MNEMONIC` or `MNEMONIC arg` (R71). -/
structure AsmLine where
  op : Mnemonic
  arg : Option AsmArg
deriving DecidableEq, Repr

/-- The "operand" column of 30_encoding.md R65. -/
def Mnemonic.kind : Mnemonic → OperandKind
  | .nop | .clear | .build | .codes | .pack | .encode => .none
  | .push | .rdCount | .rdCode => .sym
  | .rdUniq | .rdInput | .rdNode | .rdBlob => .idx

/-- The mnemonic of a command. -/
def Instr.mnemonic : Instr → Mnemonic
  | .nop => .nop
  | .clear => .clear
  | .push _ => .push
  | .build => .build
  | .codes => .codes
  | .pack => .pack
  | .encode => .encode
  | .rdCount _ => .rdCount
  | .rdUniq _ => .rdUniq
  | .rdInput _ => .rdInput
  | .rdNode _ => .rdNode
  | .rdCode _ => .rdCode
  | .rdBlob _ => .rdBlob

/-- The ARG field of a command: its operand, or 0 for a `none`-kind command (R63). -/
def Instr.operand : Instr → Arg
  | .push a | .rdCount a | .rdUniq a | .rdInput a | .rdNode a | .rdCode a | .rdBlob a => a
  | .nop | .clear | .build | .codes | .pack | .encode => 0

end Sys2Proof
end

