-- ==== Sys2Proof/WellFormed.lean ====
section
/-! DEFINITION. When a line of assembler text is a command (30_encoding.md R71). A term of Instr needs no check of its own:
its operand has the width of ARG. -/

namespace Sys2Proof

/-- The number an operand stands for. PRESUMED (log entry 22): a character literal stands for its ASCII code, the
spec's own reading from general knowledge (93 G2). -/
def AsmArg.value : AsmArg → Nat
  | .number n => n
  | .character c => c.toNat

/-- R71: a `none`-kind command is written without an operand, any other with one, and "an `arg` above 0xFFFFFF is an
assembly error". -/
def AsmLine.wellFormed (l : AsmLine) : Bool :=
  match l.op.kind, l.arg with
  | .none, .none => true
  | .none, .some _ => false
  | _, .none => false
  | _, .some a => decide (a.value ≤ 0xFFFFFF)

/-- The command of a mnemonic and an operand field; a `none`-kind command has no use for the field. -/
def Mnemonic.toInstr : Mnemonic → Arg → Instr
  | .nop, _ => .nop
  | .clear, _ => .clear
  | .push, a => .push a
  | .build, _ => .build
  | .codes, _ => .codes
  | .pack, _ => .pack
  | .encode, _ => .encode
  | .rdCount, a => .rdCount a
  | .rdUniq, a => .rdUniq a
  | .rdInput, a => .rdInput a
  | .rdNode, a => .rdNode a
  | .rdCode, a => .rdCode a
  | .rdBlob, a => .rdBlob a

/-- The command a well-formed line stands for; none is an assembly error. -/
def AsmLine.assemble (l : AsmLine) : Option Instr :=
  if l.wellFormed then
    some (l.op.toInstr (BitVec.ofNat 24 ((l.arg.map AsmArg.value).getD 0)))
  else none

end Sys2Proof
end

