-- ==== Sys2Proof/Decode.lean ====
section
/-! DEFINITION. The decoder of command words and the encoder (30_encoding.md R63 to R71). A command is one 32-bit value of
the bus, bit i of the value being bit i of the word (20_memory.md R47), so no byte order enters. -/

namespace Sys2Proof

/-- Why a word is no command (R67, R69). -/
inductive Illegal where
  /-- OPC is none of the 13 values of R65. -/
  | reservedOpcode
  /-- A `none`-kind command with ARG other than 0. -/
  | nonzeroArg
deriving DecidableEq, Repr

/-- OPC, bits 31:24 (R63). -/
def opcField (w : Word) : BitVec 8 := w.extractLsb' 24 8

/-- ARG, bits 23:0 (R63). -/
def argField (w : Word) : Arg := w.extractLsb' 0 24

/-- The opcode map of R65, from opcodes to mnemonics; none is a reserved opcode (R69). -/
def mnemonicOf (opc : BitVec 8) : Option Mnemonic :=
  match opc.toNat with
  | 0x00 => some .nop
  | 0x01 => some .clear
  | 0x02 => some .push
  | 0x03 => some .build
  | 0x04 => some .codes
  | 0x05 => some .pack
  | 0x06 => some .encode
  | 0x10 => some .rdCount
  | 0x11 => some .rdUniq
  | 0x12 => some .rdInput
  | 0x13 => some .rdNode
  | 0x14 => some .rdCode
  | 0x15 => some .rdBlob
  | _ => none

/-- The opcode map of R65, from mnemonics to opcodes. -/
def opcode : Mnemonic → BitVec 8
  | .nop => 0x00#8
  | .clear => 0x01#8
  | .push => 0x02#8
  | .build => 0x03#8
  | .codes => 0x04#8
  | .pack => 0x05#8
  | .encode => 0x06#8
  | .rdCount => 0x10#8
  | .rdUniq => 0x11#8
  | .rdInput => 0x12#8
  | .rdNode => 0x13#8
  | .rdCode => 0x14#8
  | .rdBlob => 0x15#8

/-- The decode check of R67: OPC first, then ARG = 0 for a `none`-kind command. -/
def decode (w : Word) : Except Illegal Instr :=
  match mnemonicOf (opcField w) with
  | none => .error .reservedOpcode
  | some m =>
    if m.kind = .none ∧ argField w ≠ 0 then .error .nonzeroArg
    else .ok (m.toInstr (argField w))

/-- The word of a command: `(OPC << 24) | arg` (R71). -/
def encode (i : Instr) : Word := opcode i.mnemonic ++ i.operand

/-- The command the decoder reads from a word given as a number of `nbits` bits; every row of the opcode table has 32.
Bits at or above `nbits` are 0. -/
def decodeTableWord (nbits w : Nat) : Option Instr :=
  (decode (BitVec.ofNat 32 (w % 2 ^ nbits))).toOption

end Sys2Proof
end

