-- ==== Sys2Proof/Config.lean ====
section
/-! DEFINITION. What an implementation of the core fixes (00_scope.md R6), and the free values the spec leaves open.
The parameters are plain data that State carries (log entry 3); the free values are constants without a body. -/

namespace Sys2Proof

/-- TIE_BREAK (00_scope.md R6, 41_tree_builder.md R83). -/
inductive TieBreak where
  | fifo | any
deriving DecidableEq, Repr

/-- CODE_ALIGN (00_scope.md R6, 20_memory.md R57). -/
inductive CodeAlign where
  | left | right
deriving DecidableEq, Repr

/-- The implementation parameters of 00_scope.md R6. No step changes them. -/
structure Config where
  /-- CAP: the capacity of INBUF, in accepted symbols. -/
  cap : Nat
  /-- TIE_BREAK. -/
  tieBreak : TieBreak
  /-- CODE_ALIGN. -/
  codeAlign : CodeAlign
  /-- SINGLE_CODE_BIT. -/
  singleCodeBit : BitVec 1
  /-- BASE: the platform address of the register window. -/
  base : Nat
deriving DecidableEq, Repr

/-- The defaults of R6. DESIGN CHOICE (log entry 3): R6 gives BASE the default "platform"; here it is 0. -/
def Config.standard : Config where
  cap := 65536
  tieBreak := .fifo
  codeAlign := .left
  singleCodeBit := 0
  base := 0

/-- The legal values of R6: 1 <= CAP <= 16 776 827. The other parameters are legal by their types. -/
def Config.legal (c : Config) : Bool := decide (1 ≤ c.cap) && decide (c.cap ≤ 16776827)

/-- FREE VALUE (log entry 4): what a register read while BUSY = 1 draws (10_state.md R17). The argument is the number
of the draw, so two reads may differ. -/
opaque Config.freeWord : Nat → Word

/-- FREE VALUE (log entry 5): the free choice of one extraction under TIE_BREAK = ANY (41_tree_builder.md R83). The
argument is the number of the draw; the builder reduces the choice to one of the minimum-weight nodes. -/
opaque Config.tieChoice : Nat → Nat

end Sys2Proof
end

