-- ==== Sys2Proof/Machine/Constants.lean ====
section
/-! DEFINITION. The fixed constants of 00_scope.md R7 and the identity value of 10_state.md R30. -/

namespace Sys2Proof.Machine

/-- SYM_MAX (R7): the greatest symbol. -/
abbrev symMax : Nat := 127

/-- ASIZE (R7): the size of the alphabet, of COUNT, UNIQ, CLEN and CBITS. -/
abbrev asize : Nat := 128

/-- MAX_CODE_LEN (R7): the longest code a blob record can hold. -/
abbrev maxCodeLen : Nat := 8

/-- MAX_NODES (R7): the size of the node arena. -/
abbrev maxNodes : Nat := 255

/-- NIL (R7): the node index that means "no node". -/
abbrev nil : Byte := 0xFF#8

/-- NOSYM (R7): the symbol field of an internal node. -/
abbrev nosym : Byte := 0xFF#8

/-- HDR_MAX (R7): the size of the largest blob header. -/
abbrev hdrMax : Nat := 389

/-- ID (10_state.md R30). -/
abbrev idValue : Word := 0x48554601#32

end Sys2Proof.Machine
end

