-- ==== Sys2Proof/Machine/State.lean ====
section
/-! DEFINITION. The state of the core (10_state.md), of its parameters and of the host it answers to, and the state right
after reset (10_state.md R43). -/

namespace Sys2Proof.Machine

/-- An array indexed by numbers, as a list of (index, value) pairs in one canonical form: indexes strictly rising, and no
entry equal to what an unlisted index reads as. `Memory Byte` is a list of `Host.Cell`. -/
abbrev Memory (α : Type) := List (Nat × α)

/-- STATUS.PHASE (10_state.md R19). The values 5, 6 and 7 never occur, so they have no constructor. -/
inductive Phase where
  | collect | tree | coded | packed | failed
deriving DecidableEq, Repr

/-- The error codes of 60_exceptions.md R119. Codes 0x06 to 0xFF never occur, so they have no constructor. -/
inductive ErrCode where
  | none | illegal | sequence | full | range | codeTooLong
deriving DecidableEq, Repr

/-- An entry of the node arena (10_state.md R37). -/
structure Node where
  /-- W: the weight. -/
  w : Word
  /-- SYM: the symbol of a leaf, or NOSYM. -/
  sym : Byte
  /-- PAR: the parent's index, or NIL. -/
  par : Byte
  /-- LFT: the left child's index, or NIL. -/
  lft : Byte
  /-- RGT: the right child's index, or NIL. -/
  rgt : Byte
deriving DecidableEq, Repr, Inhabited

/-- The width of a host access (20_memory.md R46); only `word` reaches a register. -/
inductive AccessSize where
  | byte | half | word
deriving DecidableEq, Repr

/-- What the host can do (70_reset_and_hazards.md R144), as an event that is still to come. Addresses are platform
addresses; the window lies at BASE (10_state.md R14). -/
inductive HostEvent where
  /-- A read of the given width (20_memory.md R45). -/
  | read (addr : Nat) (size : AccessSize)
  /-- A write of the given width; a narrower write carries its data in the low bits (20_memory.md R45). -/
  | write (addr : Nat) (size : AccessSize) (v : Word)
  /-- The reset input is asserted (70_reset_and_hazards.md R131). -/
  | reset
  /-- The host leaves the next move to the core (20_memory.md R51; log entry 1). -/
  | coreTurn
deriving DecidableEq, Repr

/-- Why the machine stops. Each reason arises only in states that no run from reset reaches, and each is SAFE: the model
stops there, and the spec, which gives those states no meaning, is not contradicted (log entry 11). -/
inductive Fault where
  /-- Raised by PUSH, BUILD, CODES, PACK, ENCODE, RD_UNIQ, RD_INPUT and RD_BLOB when a count register is so large that
  the command would index past the end of an internal array, or PACK past the 8 bits of a code. SAFE. -/
  | outsideArray
  /-- Raised by PUSH, BUILD, PACK and ENCODE when a sum would not fit its register (00_scope.md R9: arithmetic is
  exact). SAFE. -/
  | overflow
  /-- Raised by CODES and ENCODE when a leaf's walk through the parent links meets no root. SAFE. -/
  | endlessWalk
deriving DecidableEq, Repr

/-- Why an instruction has no meaning. No arm of `exec` answers with it. -/
inductive Refusal where
  /-- Raised by `exec` alone, for an instruction not modelled yet; no arm does. SAFE. -/
  | notModelled (mnemonic : String)
deriving DecidableEq, Repr

/-- The state: the register window, the internal arrays, the parameters, and last the model's own three fields. -/
structure State where
  /-- STATUS.BUSY (R17). -/
  busy : Bool
  /-- STATUS.OVR (R18). -/
  ovr : Bool
  /-- STATUS.PHASE (R19). -/
  phase : Phase
  /-- STATUS.LASTERR (R20). -/
  lasterr : ErrCode
  /-- STATUS.ERR (R21). -/
  err : ErrCode
  /-- RES0 (R22). -/
  res0 : Word
  /-- RES1 (R22). -/
  res1 : Word
  /-- INLEN (R23). -/
  inlen : Word
  /-- NUNIQ[7:0] (R24). -/
  nuniq : Byte
  /-- NNODES[7:0] (R25). -/
  nnodes : Byte
  /-- ROOT[7:0] (R26). -/
  root : Byte
  /-- BITLEN (R27). -/
  bitlen : Word
  /-- BLOBLEN (R28). -/
  bloblen : Word
  /-- ERRINFO (R29). -/
  errinfo : Word
  /-- PENDING (R33). -/
  pending : Word
  /-- COUNT[0..127] (R34). -/
  count : Memory Word
  /-- UNIQ[0..127] (R35). -/
  uniq : Memory Sym
  /-- INBUF[0..CAP-1] (R36). -/
  inbuf : Memory Sym
  /-- NODE[0..254] (R37). -/
  node : Memory Node
  /-- CLEN[0..127] (R39). -/
  clen : Memory Byte
  /-- CBITS[0..127] (R39). -/
  cbits : Memory Byte
  /-- OUTBUF[0..388+CAP] (R40). -/
  outbuf : Memory Byte
  /-- The parameters (00_scope.md R6), which no step changes. -/
  cfg : Config
  /-- The model's own: the host's coming events, oldest first (log entry 1). -/
  host : List HostEvent
  /-- The model's own: what the latest BusRead answered (20_memory.md R45; log entry 2). -/
  rdata : Word
  /-- The model's own: how many free values have been drawn (log entry 4). -/
  draws : Nat
deriving DecidableEq, Repr

/-- The state after reset of a core with the given parameters (R43). DESIGN CHOICE: R43 leaves PENDING (log entry 7) and
the contents of UNIQ, INBUF, NODE and OUTBUF (log entry 6) unspecified, and the model's own fields are not the spec's
(log entries 1, 2 and 4); each of these is 0 or empty here. -/
def State.resetWith (c : Config) : State where
  busy := false
  ovr := false
  phase := .collect
  lasterr := .none
  err := .none
  res0 := 0
  res1 := 0
  inlen := 0
  nuniq := 0
  nnodes := 0
  root := nil
  bitlen := 0
  bloblen := 0
  errinfo := 0
  pending := 0
  count := []
  uniq := []
  inbuf := []
  node := []
  clen := []
  cbits := []
  outbuf := []
  cfg := c
  host := []
  rdata := 0
  draws := 0

/-- The machine right after reset, with the default parameters of 00_scope.md R6. -/
def State.reset : State := State.resetWith Config.standard

end Sys2Proof.Machine
end

