-- ==== Sys2Proof/Machine/Ops.lean ====
section
/-! DEFINITION. The operations every command is written over: the arrays, the outcomes ok and fail (60_exceptions.md R117,
R118), and the phase check (30_encoding.md R68). -/

namespace Sys2Proof.Machine

/-- What a meaning answers. -/
abbrev Result := Host.Outcome State Fault Refusal

/-- Run `f` on the next state of `r`; a stop stays a stop. -/
def andThen (r : Result) (f : State → Result) : Result :=
  match r with
  | .next s => f s
  | .fault x => .fault x
  | .refused x => .refused x

/-! ### Arrays -/

/-- What an unlisted index reads as: the zero entry. DESIGN CHOICE (log entries 6 and 14): for COUNT, CLEN and CBITS it is
the reset value of R43; the contents of UNIQ, INBUF, NODE and OUTBUF are unspecified at reset, and no command reads an entry
before writing it. -/
def Memory.unlisted (α : Type) [Inhabited α] : α := default

/-- `A[i]`. -/
def Memory.read {α : Type} [Inhabited α] : Memory α → Nat → α
  | [], _ => Memory.unlisted α
  | (j, x) :: m, i => if i = j then x else Memory.read m i

/-- `A[i] <- v`, keeping the canonical form. -/
def Memory.write {α : Type} [Inhabited α] [DecidableEq α] : Memory α → Nat → α → Memory α
  | [], i, v => if v = Memory.unlisted α then [] else [(i, v)]
  | (j, x) :: m, i, v =>
    if i < j then
      if v = Memory.unlisted α then (j, x) :: m else (i, v) :: (j, x) :: m
    else if i = j then
      if v = Memory.unlisted α then m else (i, v) :: m
    else (j, x) :: Memory.write m i v

/-- The canonical form: indexes strictly rising from `lo` on and below `size`, no entry equal to what an unlisted index
reads as. -/
def Memory.wfFrom {α : Type} [Inhabited α] [DecidableEq α] (size : Nat) : Nat → Memory α → Bool
  | _, [] => true
  | lo, (j, x) :: m =>
    decide (lo ≤ j) && decide (j < size) && !decide (x = Memory.unlisted α) && Memory.wfFrom size (j + 1) m

/-- The canonical form of an array of `size` entries. -/
def Memory.wf {α : Type} [Inhabited α] [DecidableEq α] (size : Nat) (m : Memory α) : Bool :=
  Memory.wfFrom size 0 m

/-- COUNT[x]. -/
def State.countAt (s : State) (x : Sym) : Word := Memory.read s.count x.toNat

/-- UNIQ[i]. -/
def State.uniqAt (s : State) (i : Nat) : Sym := Memory.read s.uniq i

/-- INBUF[j]. -/
def State.inputAt (s : State) (j : Nat) : Sym := Memory.read s.inbuf j

/-- NODE[i]. -/
def State.nodeAt (s : State) (i : Nat) : Node := Memory.read s.node i

/-- CLEN[x]. -/
def State.clenAt (s : State) (x : Sym) : Byte := Memory.read s.clen x.toNat

/-- CBITS[x]. -/
def State.cbitsAt (s : State) (x : Sym) : Byte := Memory.read s.cbits x.toNat

/-- OUTBUF[i]. -/
def State.blobAt (s : State) (i : Nat) : Byte := Memory.read s.outbuf i

/-- L, the number of accepted symbols (R23). -/
def State.len (s : State) : Nat := s.inlen.toNat

/-- N, the number of unique symbols (R24). -/
def State.n (s : State) : Nat := s.nuniq.toNat

/-- UNIQ[0..N-1] (R35). -/
def State.uniqList (s : State) : List Sym := (List.range s.n).map s.uniqAt

/-- INBUF[0..L-1] (R36). -/
def State.inputList (s : State) : List Sym := (List.range s.len).map s.inputAt

/-! ### Outcomes of a command -/

/-- The success outcome `ok()` (60_exceptions.md R117). -/
def ok (s : State) : State := { s with lasterr := .none }

/-- The error outcome `fail(code, info)` (60_exceptions.md R118): the one way a command reports an error. The core has no
trap (R126) and no return from one (R129); CLEAR and reset are the recovery. -/
def fail (code : ErrCode) (info : Word) (s : State) : State :=
  { s with
    lasterr := code
    err := if s.err = .none then code else s.err
    errinfo := if s.err = .none then info else s.errinfo }

/-- A read command's success: RES0, RES1 and `ok()` (44_readback.md R109). -/
def answer (r0 r1 : Word) (s : State) : State := ok { s with res0 := r0, res1 := r1 }

/-! ### The phase check -/

/-- ACCEPTS: the "phases accepted" column of 30_encoding.md R65 (R68). -/
def accepts (i : Instr) (p : Phase) : Bool :=
  match i, p with
  | .nop, _ => true
  | .clear, _ => true
  | .push _, p => p == .collect
  | .build, p => p == .collect
  | .codes, p => p == .tree
  | .pack, p => p == .coded
  | .encode, p => p == .collect
  | .rdCount _, _ => true
  | .rdUniq _, _ => true
  | .rdInput _, _ => true
  | .rdNode _, p => p == .tree || p == .coded || p == .packed || p == .failed
  | .rdCode _, p => p == .coded || p == .packed || p == .failed
  | .rdBlob _, p => p == .packed

/-- R66, R68: `body` in a phase that accepts the command, otherwise `fail(SEQUENCE, w)`. The command word `w` is the
command's own encoding (log entry 12). -/
def whenAccepted (i : Instr) (s : State) (body : Result) : Result :=
  if accepts i s.phase then body else .next (fail .sequence (encode i) s)

end Sys2Proof.Machine
end

