-- ==== Sys2Proof/Machine/Operands.lean ====
section
/-! DEFINITION. The operand forms of 30_encoding.md R64: `sym` and `idx`; a `none`-kind command has no operand. ARG is an
unsigned 24-bit number, never sign-extended, scaled or shifted. -/

namespace Sys2Proof.Machine

/-- A `sym` operand: the symbol, if `arg <= 127` (R64, R79). -/
def symOperand (arg : Arg) : Option Sym :=
  if arg.toNat ≤ symMax then some (arg.setWidth 7) else none

/-- An `idx` operand: the index, if it is below the array's valid count (R64). -/
def idxOperand (arg : Arg) (valid : Nat) : Option Nat :=
  if arg.toNat < valid then some arg.toNat else none

end Sys2Proof.Machine
end

