-- ==== Sys2Proof/Machine/CodeTable.lean ====
section
/-! DEFINITION. The code-length calculator: CODES (42_code_table.md). -/

namespace Sys2Proof.Machine

/-- The ancestor walk of R91 from node `j`, at depth `d` with the bits `v` collected so far: the depth and the bits at the
root. The bit of step d lands at bit d while d < 8. None if `fuel` nodes are passed without a root. -/
def walk (node : Memory Node) : Nat → Nat → Nat → Byte → Option (Nat × Byte)
  | 0, _, _, _ => none
  | fuel + 1, j, d, v =>
    let p := (Memory.read node j).par
    if p = nil then some (d, v)
    else
      let bit : Byte := if (Memory.read node p.toNat).lft.toNat = j then 0 else 1
      walk node fuel p.toNat (d + 1) (if d < 8 then v ||| (bit <<< d) else v)

/-- The loop of R91 over the leaves `is`, from the given CLEN and CBITS. An arena has 255 nodes, so a walk that passes 255
nodes without a root never ends. -/
def deriveCodes (node : Memory Node) (uniq : Memory Sym) :
    List Nat → Memory Byte → Memory Byte → Option (Memory Byte × Memory Byte)
  | [], clen, cbits => some (clen, cbits)
  | i :: is, clen, cbits =>
    match walk node maxNodes i 0 0 with
    | none => none
    | some (d, v) =>
      deriveCodes node uniq is (Memory.write clen (Memory.read uniq i).toNat (BitVec.ofNat 8 d))
        (Memory.write cbits (Memory.read uniq i).toNat (if d ≤ maxCodeLen then v else 0))

/-- CLEN and CBITS as R91 derives them: all 0 but for the unique symbols; the single symbol of an input with N = 1 has the
1-bit code SINGLE_CODE_BIT (R92). -/
def codeTable (s : State) : Option (Memory Byte × Memory Byte) :=
  if s.n = 1 then
    some (Memory.write [] (s.uniqAt 0).toNat 1, Memory.write [] (s.uniqAt 0).toNat (s.cfg.singleCodeBit.setWidth 8))
  else deriveCodes s.node s.uniq (List.range s.n) [] []

/-- The first unique symbol in UNIQ order whose code length exceeds 8 (R93). -/
def firstTooLong (s : State) : Option Sym := s.uniqList.find? fun x => decide ((s.clenAt x).toNat > maxCodeLen)

/-- The end of R91: FAILED and CODE_TOO_LONG if a code is too long, else CODED and `ok()`. -/
def checkLengths (s : State) : State :=
  match firstTooLong s with
  | some x => fail .codeTooLong (0#16 ++ s.clenAt x ++ x.setWidth 8) { s with phase := .failed }
  | none => ok { s with phase := .coded }

/-- The body of EXEC[CODES] (R91). The two faults arise in no state a run reaches (log entry 11). -/
def codesBody (s : State) : Result :=
  if s.n > asize then .fault .outsideArray
  else
    match codeTable s with
    | none => .fault .endlessWalk
    | some (clen, cbits) => .next (checkLengths { s with clen := clen, cbits := cbits })

/-- CODES (R91). -/
def execCodes (s : State) : Result := whenAccepted .codes s (codesBody s)

end Sys2Proof.Machine
end

