-- ==== Sys2Proof/Machine/TreeBuilder.lean ====
section
/-! DEFINITION. The tree builder: BUILD (41_tree_builder.md). The eligible set is a list without repeats, in rising order
of index, local to the step (10_state.md R41). -/

namespace Sys2Proof.Machine

/-- NODE[j].W as a number. -/
def weightAt (node : Memory Node) (j : Nat) : Nat := (Memory.read node j).w.toNat

/-- minW(S) (R83); 0 for the empty list, which no extraction meets. -/
def minWeight (node : Memory Node) : List Nat → Nat
  | [] => 0
  | [j] => weightAt node j
  | j :: js => min (weightAt node j) (minWeight node js)

/-- The members of S of weight minW(S) (R83). -/
def lightest (node : Memory Node) (E : List Nat) : List Nat :=
  E.filter fun j => weightAt node j == minWeight node E

/-- argmin_TB(S) (R83). FIFO takes the least index among the lightest; ANY takes the one the free choice picks, every one
of them being some choice's. -/
def argmin (tb : TieBreak) (node : Memory Node) (choice : Nat) (E : List Nat) : Nat :=
  match tb with
  | .fifo => (lightest node E).headD 0
  | .any => (lightest node E).getD (choice % (lightest node E).length) 0

/-- What the merge loop of R84 works on: the arena, the eligible set, the next free index, and the number of the next free
choice. -/
structure Forest where
  node : Memory Node
  eligible : List Nat
  next : Nat
  draw : Nat
deriving DecidableEq, Repr

/-- Step 1 of R84: one leaf per unique symbol. -/
def seedLeaves (count : Memory Word) (uniq : Memory Sym) : List Nat → Memory Node → Memory Node
  | [], node => node
  | i :: is, node =>
    let x := Memory.read uniq i
    seedLeaves count uniq is (Memory.write node i
      { w := Memory.read count x.toNat, sym := x.setWidth 8, par := nil, lft := nil, rgt := nil })

/-- NODE[j].PAR <- k. -/
def setParent (node : Memory Node) (j k : Nat) : Memory Node :=
  Memory.write node j { Memory.read node j with par := BitVec.ofNat 8 k }

/-- The arena after a merge of `a` and `b` into the new node `k` (R84, step 2). -/
def linkNodes (node : Memory Node) (a b k : Nat) : Memory Node :=
  let joined : Node :=
    { w := (Memory.read node a).w + (Memory.read node b).w
      sym := nosym, par := nil, lft := BitVec.ofNat 8 a, rgt := BitVec.ofNat 8 b }
  setParent (setParent (Memory.write node k joined) a k) b k

/-- One turn of the loop of R84, step 2: extract twice, merge, put the new node back. -/
def mergeOnce (tb : TieBreak) (choice : Nat → Nat) (f : Forest) : Forest :=
  let a := argmin tb f.node (choice f.draw) f.eligible
  let rest := f.eligible.erase a
  let b := argmin tb f.node (choice (f.draw + 1)) rest
  { node := linkNodes f.node a b f.next
    eligible := rest.erase b ++ [f.next]
    next := f.next + 1
    draw := f.draw + 2 }

/-- The loop `while |E| > 1` of R84. Each turn makes E one smaller, so `fuel = |E|` turns suffice. -/
def mergeAll (tb : TieBreak) (choice : Nat → Nat) : Nat → Forest → Forest
  | 0, f => f
  | fuel + 1, f => if f.eligible.length ≤ 1 then f else mergeAll tb choice fuel (mergeOnce tb choice f)

/-- The whole of R84's steps 1 and 2 on a state, under the given free choices. -/
def buildForest (choice : Nat → Nat) (s : State) : Forest :=
  mergeAll s.cfg.tieBreak choice s.n
    { node := seedLeaves s.count s.uniq (List.range s.n) s.node, eligible := List.range s.n, next := s.n, draw := s.draws }

/-- The number of free choices a BUILD draws: one for each of the 2(N - 1) extractions under ANY, none under FIFO. -/
def choicesDrawn (s : State) : Nat :=
  match s.cfg.tieBreak with
  | .fifo => 0
  | .any => 2 * (s.n - 1)

/-- The sum of the leaves' weights, which bounds every weight of the tree (R85). -/
def leafWeight (s : State) : Nat := (s.uniqList.map fun x => (s.countAt x).toNat).sum

/-- The writes of BUILD (R84), before `ok()`, under the given free choices. -/
def buildState (choice : Nat → Nat) (s : State) : State :=
  let f := buildForest choice s
  { s with
    node := f.node
    nnodes := BitVec.ofNat 8 f.next
    root := if s.n = 0 then nil else BitVec.ofNat 8 (f.eligible.headD 0)
    phase := .tree
    draws := s.draws + choicesDrawn s }

/-- The body of EXEC[BUILD] (R84), before `ok()`. The two faults arise in no state a run reaches (log entry 11). -/
def buildBody (s : State) : Result :=
  if s.n > asize then .fault .outsideArray
  else if leafWeight s ≥ 2 ^ 32 then .fault .overflow
  else .next (buildState Config.tieChoice s)

/-- BUILD (R84). -/
def execBuild (s : State) : Result :=
  whenAccepted .build s (andThen (buildBody s) fun t => .next (ok t))

end Sys2Proof.Machine
end

