-- ==== Sys2Proof/Machine/BitPacker.lean ====
section
/-! DEFINITION. The bit-packer: PACK and ENCODE (43_bit_packer.md), and the blob's layout (20_memory.md R54 to R59). -/

namespace Sys2Proof.Machine

/-- recbits (20_memory.md R57), from CODE_ALIGN and the symbol's CLEN and CBITS. -/
def recbits (align : CodeAlign) (clen cbits : Byte) : Byte :=
  match align with
  | .left => cbits <<< (8 - clen.toNat)
  | .right => cbits

/-- The code of a symbol, root-side bit first: CBITS[x][CLEN[x]-1] down to CBITS[x][0] (R99, R101). -/
def codeBits (s : State) (x : Sym) : List Bool :=
  (List.range (s.clenAt x).toNat).reverse.map fun k => (s.cbitsAt x).getLsbD k

/-- The bit string: the codes of INBUF[0..L-1] in input order (R101). -/
def bitString (s : State) : List Bool := s.inputList.flatMap (codeBits s)

/-- T: the total bit length (R99). -/
def totalBits (s : State) : Nat := (s.inputList.map fun x => (s.clenAt x).toNat).sum

/-- P: the offset of the first payload byte, 5 + 3N (R99, R59). -/
def payloadStart (s : State) : Nat := 5 + 3 * s.n

/-- BLOBLEN = P + ceil(T / 8) (R99, R55). -/
def blobLength (s : State) : Nat := payloadStart s + (totalBits s + 7) / 8

/-- The records of R57, record i being the i-th of `is`. -/
def writeRecords (align : CodeAlign) (uniq : Memory Sym) (clen cbits : Memory Byte) :
    List Nat → Memory Byte → Memory Byte
  | [], m => m
  | i :: is, m =>
    let x := Memory.read uniq i
    let c := Memory.read clen x.toNat
    writeRecords align uniq clen cbits is
      (Memory.write (Memory.write (Memory.write m (1 + 3 * i) (x.setWidth 8)) (2 + 3 * i) c)
        (3 + 3 * i) (recbits align c (Memory.read cbits x.toNat)))

/-- The length field of R58, most-significant byte first. -/
def writeLength (o : Nat) (t : Word) (m : Memory Byte) : Memory Byte :=
  Memory.write (Memory.write (Memory.write (Memory.write m o (t.extractLsb' 24 8)) (o + 1) (t.extractLsb' 16 8))
    (o + 2) (t.extractLsb' 8 8)) (o + 3) (t.extractLsb' 0 8)

/-- Bit `k` of a byte, set to `b`. -/
def setBit (y : Byte) (k : Nat) (b : Bool) : Byte :=
  if b then y ||| (1#8 <<< k) else y &&& ~~~(1#8 <<< k)

/-- `emit(b)` of R99 at payload bit position `q`, the payload starting at `p`. -/
def emitBit (p q : Nat) (b : Bool) (m : Memory Byte) : Memory Byte :=
  let y := p + q / 8
  let m' := if q % 8 = 0 then Memory.write m y 0 else m
  Memory.write m' y (setBit (Memory.read m' y) (7 - q % 8) b)

/-- The emits of R99 for a bit string, from position `q` on. -/
def emitAll (p : Nat) : Nat → List Bool → Memory Byte → Memory Byte
  | _, [], m => m
  | q, b :: bs, m => emitAll p (q + 1) bs (emitBit p q b m)

/-- OUTBUF after PACK (R99). -/
def packBlob (s : State) : Memory Byte :=
  let m := Memory.write s.outbuf 0 s.nuniq
  let m := writeRecords s.cfg.codeAlign s.uniq s.clen s.cbits (List.range s.n) m
  let m := writeLength (1 + 3 * s.n) (BitVec.ofNat 32 (totalBits s)) m
  emitAll (payloadStart s) 0 (bitString s) m

/-- The writes of PACK (R99), before `ok()`. -/
def packState (s : State) : State :=
  { s with
    outbuf := packBlob s
    bitlen := BitVec.ofNat 32 (totalBits s)
    bloblen := BitVec.ofNat 32 (blobLength s)
    phase := .packed }

/-- Every code length of a used symbol is at most 8, the width of a CBITS entry. -/
def codesFit (s : State) : Bool :=
  (s.uniqList ++ s.inputList).all fun x => decide ((s.clenAt x).toNat ≤ maxCodeLen)

/-- Every entry PACK reads or writes exists: UNIQ[0..N-1], INBUF[0..L-1], the bits of CBITS, OUTBUF[0..BLOBLEN-1]. -/
def packInside (s : State) : Bool :=
  decide (s.n ≤ asize) && decide (s.len ≤ s.cfg.cap) && codesFit s && decide (blobLength s ≤ hdrMax + s.cfg.cap)

/-- The body of EXEC[PACK] (R99). The two faults arise in no state a run reaches (log entry 11). -/
def packBody (s : State) : Result :=
  if !packInside s then .fault .outsideArray
  else if totalBits s ≥ 2 ^ 32 then .fault .overflow
  else .next (ok (packState s))

/-- PACK (R99). -/
def execPack (s : State) : Result := whenAccepted .pack s (packBody s)

/-- The body of EXEC[ENCODE] (R102): BUILD's, CODES's and, unless CODES failed, PACK's. -/
def encodeBody (s : State) : Result :=
  andThen (buildBody s) fun t =>
    andThen (codesBody t) fun u =>
      match u.phase with
      | .failed => .next u
      | .collect | .tree | .coded | .packed => packBody u

/-- ENCODE (R102). -/
def execEncode (s : State) : Result := whenAccepted .encode s (encodeBody s)

end Sys2Proof.Machine
end

