-- ==== Sys2Proof/Machine/Readback.lean ====
section
/-! DEFINITION. The read commands (44_readback.md): each copies one entry of an array into RES0 and RES1, or fails with
RANGE and leaves both (R109, 60_exceptions.md R123). -/

namespace Sys2Proof.Machine

/-- RES1 of RD_NODE: SYM in bits 31:24, PAR in 23:16, LFT in 15:8, RGT in 7:0 (R113). -/
def nodeLinks (x : Node) : Word := x.sym ++ x.par ++ x.lft ++ x.rgt

/-- RD_COUNT (R110). -/
def execRdCount (arg : Arg) (s : State) : Result :=
  whenAccepted (.rdCount arg) s <|
    match symOperand arg with
    | none => .next (fail .range (encode (.rdCount arg)) s)
    | some x => .next (answer (s.countAt x) 0 s)

/-- RD_UNIQ (R111). The fault arises in no state a run reaches (log entry 11). -/
def execRdUniq (arg : Arg) (s : State) : Result :=
  whenAccepted (.rdUniq arg) s <|
    match idxOperand arg s.n with
    | none => .next (fail .range (encode (.rdUniq arg)) s)
    | some i => if i ≥ asize then .fault .outsideArray else .next (answer ((s.uniqAt i).setWidth 32) 0 s)

/-- RD_INPUT (R112). The fault arises in no state a run reaches (log entry 11). -/
def execRdInput (arg : Arg) (s : State) : Result :=
  whenAccepted (.rdInput arg) s <|
    match idxOperand arg s.len with
    | none => .next (fail .range (encode (.rdInput arg)) s)
    | some i => if i ≥ s.cfg.cap then .fault .outsideArray else .next (answer ((s.inputAt i).setWidth 32) 0 s)

/-- RD_NODE (R113). NNODES is at most 255, so a valid index is inside the arena. -/
def execRdNode (arg : Arg) (s : State) : Result :=
  whenAccepted (.rdNode arg) s <|
    match idxOperand arg s.nnodes.toNat with
    | none => .next (fail .range (encode (.rdNode arg)) s)
    | some i => .next (answer (s.nodeAt i).w (nodeLinks (s.nodeAt i)) s)

/-- RD_CODE (R114). -/
def execRdCode (arg : Arg) (s : State) : Result :=
  whenAccepted (.rdCode arg) s <|
    match symOperand arg with
    | none => .next (fail .range (encode (.rdCode arg)) s)
    | some x => .next (answer (0#16 ++ s.clenAt x ++ s.cbitsAt x) 0 s)

/-- RD_BLOB (R115). The fault arises in no state a run reaches (log entry 11). -/
def execRdBlob (arg : Arg) (s : State) : Result :=
  whenAccepted (.rdBlob arg) s <|
    match idxOperand arg s.bloblen.toNat with
    | none => .next (fail .range (encode (.rdBlob arg)) s)
    | some i =>
      if i ≥ hdrMax + s.cfg.cap then .fault .outsideArray else .next (answer ((s.blobAt i).setWidth 32) 0 s)

end Sys2Proof.Machine
end

