-- ==== Sys2Proof/Machine/SymbolTable.lean ====
section
/-! DEFINITION. The symbol counter: NOP, CLEAR and PUSH (40_symbol_table.md). -/

namespace Sys2Proof.Machine

/-- NOP (R76). -/
def execNop (s : State) : Result := whenAccepted .nop s (.next (ok s))

/-- The writes of CLEAR (R77), before `ok()`. UNIQ, INBUF, NODE and OUTBUF keep their entries, none of them valid any more
(log entry 8). -/
def clearState (s : State) : State :=
  { s with
    count := [], clen := [], cbits := []
    inlen := 0, nuniq := 0, nnodes := 0, root := nil
    bitlen := 0, bloblen := 0
    res0 := 0, res1 := 0
    errinfo := 0, err := .none, ovr := false
    phase := .collect }

/-- CLEAR (R77). -/
def execClear (s : State) : Result := whenAccepted .clear s (.next (ok (clearState s)))

/-- The writes of PUSH for an accepted symbol (R78), before `ok()`. -/
def pushState (x : Sym) (s : State) : State :=
  { s with
    inbuf := Memory.write s.inbuf s.len x
    inlen := s.inlen + 1
    uniq := if s.countAt x = 0 then Memory.write s.uniq s.n x else s.uniq
    nuniq := if s.countAt x = 0 then s.nuniq + 1 else s.nuniq
    count := Memory.write s.count x.toNat (s.countAt x + 1) }

/-- The entries PUSH writes exist: INBUF[L], and UNIQ[N] on a first occurrence (R35, R36). -/
def pushInside (x : Sym) (s : State) : Bool :=
  decide (s.len < s.cfg.cap) && (decide (s.countAt x ≠ 0) || decide (s.n < asize))

/-- PUSH (R78 to R81): out of range is dropped, then INLEN = CAP is FULL, else the symbol is stored and counted. The two
faults arise in no state a run reaches (log entry 11). -/
def execPush (arg : Arg) (s : State) : Result :=
  whenAccepted (.push arg) s <|
    match symOperand arg with
    | none => .next (ok s)
    | some x =>
      if s.len = s.cfg.cap then .next (fail .full (encode (.push arg)) s)
      else if !pushInside x s then .fault .outsideArray
      else if (s.countAt x).toNat + 1 ≥ 2 ^ 32 then .fault .overflow
      else .next (ok (pushState x s))

end Sys2Proof.Machine
end

