-- ==== Sys2Proof/Machine/Dispatch.lean ====
section
/-! DEFINITION. EXEC[opc] of the core step (30_encoding.md R66), one arm per command: the phase check and the command's
own rule. -/

namespace Sys2Proof.Machine

def exec (i : Instr) (s : State) : Host.Outcome State Fault Refusal :=
  match i with
  | .nop => Sys2Proof.Machine.execNop s
  | .clear => Sys2Proof.Machine.execClear s
  | .push arg => Sys2Proof.Machine.execPush arg s
  | .build => Sys2Proof.Machine.execBuild s
  | .codes => Sys2Proof.Machine.execCodes s
  | .pack => Sys2Proof.Machine.execPack s
  | .encode => Sys2Proof.Machine.execEncode s
  | .rdCount arg => Sys2Proof.Machine.execRdCount arg s
  | .rdUniq arg => Sys2Proof.Machine.execRdUniq arg s
  | .rdInput arg => Sys2Proof.Machine.execRdInput arg s
  | .rdNode arg => Sys2Proof.Machine.execRdNode arg s
  | .rdCode arg => Sys2Proof.Machine.execRdCode arg s
  | .rdBlob arg => Sys2Proof.Machine.execRdBlob arg s

end Sys2Proof.Machine
end

