-- ==== Sys2Proof/Machine/Flags.lean ====
section
/-! DEFINITION. The registers as the host sees them: STATUS and its fields (10_state.md R16 to R21) and the register window
(R14 to R32). -/

namespace Sys2Proof.Machine

/-- The value of STATUS.PHASE (R19). -/
def phaseBits : Phase → BitVec 3
  | .collect => 0#3
  | .tree => 1#3
  | .coded => 2#3
  | .packed => 3#3
  | .failed => 4#3

/-- The value of an error code (60_exceptions.md R119). -/
def errBits : ErrCode → Byte
  | .none => 0x00#8
  | .illegal => 0x01#8
  | .sequence => 0x02#8
  | .full => 0x03#8
  | .range => 0x04#8
  | .codeTooLong => 0x05#8

/-- STATUS (R16): 31:24 zero, 23:16 ERR, 15:8 LASTERR, 7 zero, 6:4 PHASE, 3:2 zero, 1 OVR, 0 BUSY. -/
def statusWord (s : State) : Word :=
  0#8 ++ errBits s.err ++ errBits s.lasterr ++
    (0#1 ++ phaseBits s.phase ++ 0#2 ++ BitVec.ofBool s.ovr ++ BitVec.ofBool s.busy)

/-- The 13 registers of the window (R14). -/
inductive Reg where
  | cmd | status | res0 | res1 | inlen | nuniq | nnodes | root | bitlen | bloblen | errinfo | id | capr
deriving DecidableEq, Repr

/-- The register at an offset of the window (R14); none at a reserved offset. Only word-aligned offsets hold one. -/
def regAt (off : BitVec 8) : Option Reg :=
  match off.toNat with
  | 0x00 => some .cmd
  | 0x04 => some .status
  | 0x08 => some .res0
  | 0x0C => some .res1
  | 0x10 => some .inlen
  | 0x14 => some .nuniq
  | 0x18 => some .nnodes
  | 0x1C => some .root
  | 0x20 => some .bitlen
  | 0x24 => some .bloblen
  | 0x28 => some .errinfo
  | 0x2C => some .id
  | 0x30 => some .capr
  | _ => none

/-- What a register holds: CMD reads 0 (R15), the upper bits of NUNIQ, NNODES and ROOT are 0 (R24 to R26), ID and CAPR are
hardwired (R30, R31). -/
def regValue (s : State) : Reg → Word
  | .cmd => 0
  | .status => statusWord s
  | .res0 => s.res0
  | .res1 => s.res1
  | .inlen => s.inlen
  | .nuniq => s.nuniq.setWidth 32
  | .nnodes => s.nnodes.setWidth 32
  | .root => s.root.setWidth 32
  | .bitlen => s.bitlen
  | .bloblen => s.bloblen
  | .errinfo => s.errinfo
  | .id => idValue
  | .capr => BitVec.ofNat 32 s.cfg.cap

/-- R17: the registers that read true while BUSY = 1. STATUS is not among them; its bits BUSY and OVR are. -/
def readsTrueWhileBusy : Reg → Bool
  | .id | .capr => true
  | .cmd | .status | .res0 | .res1 | .inlen | .nuniq | .nnodes | .root | .bitlen | .bloblen | .errinfo => false

/-- What a register other than ID and CAPR reads as while BUSY = 1 (R17), given a free draw: STATUS shows BUSY = 1 and
the true OVR and is free elsewhere, any other register is free in every bit. DEDUCED (log entry 9): STATUS's reserved bits
and CMD are free too. -/
def busyValue (s : State) (draw : Word) : Reg → Word
  | .status => draw.extractLsb' 2 30 ++ BitVec.ofBool s.ovr ++ 1#1
  | .cmd | .res0 | .res1 | .inlen | .nuniq | .nnodes | .root | .bitlen | .bloblen | .errinfo => draw
  | .id => idValue
  | .capr => BitVec.ofNat 32 s.cfg.cap

end Sys2Proof.Machine
end

