-- ==== Sys2Proof/Machine/HostBus.lean ====
section
/-! DEFINITION. What the host does to the core (70_reset_and_hazards.md R144): BusRead, BusWrite (20_memory.md R45 to R49)
and reset (70_reset_and_hazards.md R131, R132), and the command scripts of the assembler (30_encoding.md R72). -/

namespace Sys2Proof.Machine

/-- The offset of a platform address in the register window at BASE (10_state.md R14); none outside it, where the access
is not one of this core (log entry 16). -/
def windowOffset (c : Config) (addr : Nat) : Option (BitVec 8) :=
  if c.base ≤ addr ∧ addr < c.base + 256 then some (BitVec.ofNat 8 (addr - c.base)) else none

/-- A register access is a 32-bit access at an offset that is a multiple of 4 (20_memory.md R46). -/
def isRegAccess (size : AccessSize) (off : BitVec 8) : Bool := size == .word && off.toNat % 4 == 0

/-- The register a read register-access meets: its value, or a free draw while BUSY = 1 (10_state.md R17). -/
def readReg (r : Reg) (s : State) : State :=
  if s.busy && !readsTrueWhileBusy r then
    { s with rdata := busyValue s (Config.freeWord s.draws) r, draws := s.draws + 1 }
  else { s with rdata := regValue s r }

/-- BusRead (20_memory.md R45, R46, R48): only the model's own fields change. A read that is no register access, and a
read of a reserved offset (10_state.md R32), returns 0. -/
def busRead (size : AccessSize) (off : BitVec 8) (s : State) : State :=
  if isRegAccess size off then
    match regAt off with
    | some r => readReg r s
    | none => { s with rdata := 0 }
  else { s with rdata := 0 }

/-- A CMD write (10_state.md R15): latched while BUSY = 0, dropped with OVR <- 1 while BUSY = 1 (R18). -/
def issueCommand (w : Word) (s : State) : State :=
  if s.busy then { s with ovr := true } else { s with pending := w, busy := true }

/-- BusWrite (20_memory.md R45, R46, R49): only a register access to CMD has an effect. -/
def busWrite (size : AccessSize) (off : BitVec 8) (v : Word) (s : State) : State :=
  if isRegAccess size off && off == 0x00#8 then issueCommand v s else s

/-- Reset (70_reset_and_hazards.md R131, R132): every piece of the core's state at its value in 10_state.md R43, a pending
command discarded. The parameters stay, and so do the model's own fields, which are not the core's (log entry 17). -/
def resetCore (s : State) : State :=
  { State.resetWith s.cfg with host := s.host, rdata := s.rdata, draws := s.draws }

/-- The script of ISSUE (30_encoding.md R72): the CMD write, `polls` polls of its WAIT that still find BUSY = 1, the core's
turn, and the poll that ends the WAIT. How many polls come before the core's step is open
(70_reset_and_hazards.md R141), so it is an argument (log entry 20). -/
def issueScript (c : Config) (i : Instr) (polls : Nat) : List HostEvent :=
  .write c.base .word (encode i) :: (List.replicate polls (.read (c.base + 4) .word) ++ [.coreTurn, .read (c.base + 4) .word])

/-- The commands of PUSHSTR (30_encoding.md R72): one PUSH per character. A character above 0xFFFFFF does not exist. -/
def pushString (cs : List Char) : List Instr := cs.map fun c => .push (BitVec.ofNat 24 c.toNat)

/-- The commands of one encode (40_symbol_table.md R82): CLEAR, one PUSH per element, ENCODE. -/
def encodeProgram (cs : List Char) : List Instr := .clear :: (pushString cs ++ [.encode])

/-- The commands that read the whole blob of `n` bytes (44_readback.md R116). -/
def readBlobProgram (n : Nat) : List Instr := (List.range n).map fun i => .rdBlob (BitVec.ofNat 24 i)

end Sys2Proof.Machine
end

