-- ==== Sys2Proof/Machine/CoreStep.lean ====
section
/-! DEFINITION. The core step (30_encoding.md R66) and the host's events (20_memory.md R51), which the step of the machine
chooses between. -/

namespace Sys2Proof.Machine

/-- `STATUS.BUSY <- 0`, the end of the core step (R66). -/
def complete (s : State) : State := { s with busy := false }

/-- The core step of R66 in a state with BUSY = 1: decode PENDING, an illegal word is `fail(ILLEGAL, w)` (R67, R120), a
command runs, and BUSY becomes 0. -/
def coreStep (s : State) : Result :=
  match decode s.pending with
  | .error _ => .next (complete (fail .illegal s.pending s))
  | .ok i => andThen (exec i s) fun t => .next (complete t)

/-- The core's turn: its step is enabled iff BUSY = 1 (R66); otherwise it waits for a CMD write (R131) and nothing
changes (log entry 1). -/
def coreTurn (s : State) : Result := if s.busy then coreStep s else .next s

/-- One event of the host. An access outside the window is not one of this core and changes nothing (log entry 16). -/
def hostEvent (e : HostEvent) (s : State) : Result :=
  match e with
  | .read addr size =>
    match windowOffset s.cfg addr with
    | some off => .next (busRead size off s)
    | none => .next s
  | .write addr size v =>
    match windowOffset s.cfg addr with
    | some off => .next (busWrite size off v s)
    | none => .next s
  | .reset => .next (resetCore s)
  | .coreTurn => coreTurn s

/-- A state whose next step is the core step of the command word `w`: `w` latched in PENDING, BUSY = 1 (10_state.md R15),
and the next move the core's (log entry 13). -/
def placeCommand (w : Word) (s : State) : State :=
  { s with pending := w, busy := true, host := .coreTurn :: s.host }

end Sys2Proof.Machine
end

