-- ==== Sys2Proof/Machine/Step.lean ====
section
/-! DEFINITION. One step of the machine: the host's next event, or the core's turn where the host has none left
(20_memory.md R51, 70_reset_and_hazards.md R141). -/

namespace Sys2Proof.Machine

/-- One event of the total order of host transactions and core steps (20_memory.md R51). With no host event left the core
takes its step if BUSY = 1, as the fairness of R141 says. -/
def step (s : State) : Host.Outcome State Fault Refusal :=
  match s.host with
  | [] => coreTurn s
  | e :: es => hostEvent e { s with host := es }

/-- `s` with a command word latched for the very next step (log entry 13). -/
def State.withFetchWord (s : State) (nbits w : Nat) : State :=
  placeCommand (BitVec.ofNat 32 (w % 2 ^ nbits)) s

end Sys2Proof.Machine
end

