-- ==== Sys2Proof/Safety.lean ====
section
/-! DEFINITION. What counts as a sound state of the core: the invariants of 10_state.md R38, R39 and R44, of the registers
in each phase (R19, R25 to R28) and of the error record (R20, R21), in the words the statements use. -/

namespace Sys2Proof.Machine

/-- Every array is in the canonical form, with no entry at or beyond its size (R34 to R40). -/
def State.arraysWf (s : State) : Bool :=
  Memory.wf asize s.count && Memory.wf asize s.uniq && Memory.wf s.cfg.cap s.inbuf && Memory.wf maxNodes s.node &&
    Memory.wf asize s.clen && Memory.wf asize s.cbits && Memory.wf (hdrMax + s.cfg.cap) s.outbuf

/-- The counting invariants of R44. -/
structure State.CountsOk (s : State) : Prop where
  /-- (a) the counts sum to INLEN. -/
  sum_eq : ((List.range asize).map fun k => (Memory.read s.count k).toNat).sum = s.len
  /-- (b) NUNIQ is the number of symbols with a positive count. -/
  nuniq_eq : s.n = ((List.range asize).filter fun k => decide (Memory.read s.count k ≠ 0)).length
  /-- (c) UNIQ[0..N-1] are distinct. -/
  distinct : s.uniqList.Nodup
  /-- (c) each has a positive count. -/
  positive : ∀ x ∈ s.uniqList, s.countAt x ≠ 0
  /-- (c) they stand in the order of their first occurrence in INBUF. -/
  ordered : s.uniqList.Pairwise fun x y => s.inputList.idxOf x < s.inputList.idxOf y
  /-- (d) COUNT[x] is the number of occurrences of x in INBUF[0..L-1]. -/
  count_eq : ∀ x : Sym, (s.countAt x).toNat = s.inputList.count x

/-- The arena of a built tree: R38, the results of R86 and the layout of R37. -/
structure State.ArenaOk (s : State) : Prop where
  /-- NNODES (R86): 0 if N = 0, else 2N - 1. -/
  nnodes_eq : s.nnodes.toNat = 2 * s.n - 1
  /-- ROOT (R86): NIL if N = 0, else NNODES - 1. -/
  root_eq : s.root = if s.n = 0 then nil else BitVec.ofNat 8 (2 * s.n - 2)
  /-- Leaf i is the i-th unique symbol with its count (R37, R84). -/
  leaf : ∀ i < s.n, (s.nodeAt i).w = s.countAt (s.uniqAt i) ∧ (s.nodeAt i).sym = (s.uniqAt i).setWidth 8 ∧
    (s.nodeAt i).lft = nil ∧ (s.nodeAt i).rgt = nil
  /-- An internal node has two different children, both older than it and both linked back to it, and their weights'
  exact sum (R37, R38 (c), (d)). -/
  internal : ∀ p < s.nnodes.toNat, s.n ≤ p →
    (s.nodeAt p).sym = nosym ∧ (s.nodeAt p).lft ≠ (s.nodeAt p).rgt ∧
    (s.nodeAt p).lft.toNat < p ∧ (s.nodeAt p).rgt.toNat < p ∧
    (s.nodeAt (s.nodeAt p).lft.toNat).par = BitVec.ofNat 8 p ∧ (s.nodeAt (s.nodeAt p).rgt.toNat).par = BitVec.ofNat 8 p ∧
    (s.nodeAt p).w.toNat = (s.nodeAt (s.nodeAt p).lft.toNat).w.toNat + (s.nodeAt (s.nodeAt p).rgt.toNat).w.toNat
  /-- The root has no parent; any other node is a child of a younger node (R38 (b), (d)). -/
  parent : ∀ i < s.nnodes.toNat,
    (i = s.root.toNat → (s.nodeAt i).par = nil) ∧
    (i ≠ s.root.toNat → i < (s.nodeAt i).par.toNat ∧ (s.nodeAt i).par.toNat < s.nnodes.toNat ∧
      ((s.nodeAt (s.nodeAt i).par.toNat).lft.toNat = i ∨ (s.nodeAt (s.nodeAt i).par.toNat).rgt.toNat = i))
  /-- The root weighs L (R38 (e)). -/
  root_weight : 1 ≤ s.n → (s.nodeAt s.root.toNat).w = s.inlen

/-- The node met after `d` parent links from node `i`. -/
def climb (node : Memory Node) : Nat → Nat → Nat
  | i, 0 => i
  | i, d + 1 => climb node (Memory.read node i).par.toNat d

/-- The node met by following a code from node `j` towards the leaves: 0 = left, 1 = right (00_scope.md, Code). -/
def descend (node : Memory Node) : Nat → List Bool → Nat
  | j, [] => j
  | j, b :: bs => descend node (if b then (Memory.read node j).rgt.toNat else (Memory.read node j).lft.toNat) bs

/-- CLEN and CBITS are what R91 derives from the arena. -/
def State.CodesOk (s : State) : Prop := codeTable s = some (s.clen, s.cbits)

/-- No code has been derived: CLEN and CBITS are 0 (R39). -/
def State.NoCodes (s : State) : Prop := s.clen = [] ∧ s.cbits = []

/-- No blob has been made: BITLEN and BLOBLEN are 0 (R27, R28). -/
def State.NoBlob (s : State) : Prop := s.bitlen = 0 ∧ s.bloblen = 0

/-- The blob is what R99 packs from the code table and the input. -/
def State.BlobOk (s : State) : Prop :=
  s.bitlen.toNat = totalBits s ∧ s.bloblen.toNat = blobLength s ∧
    ∀ i < blobLength s, s.blobAt i = Memory.read (packBlob s) i

/-- What each phase says of the registers and arrays (R19, R25 to R28, R37 to R40). -/
def State.PhaseOk (s : State) : Prop :=
  match s.phase with
  | .collect => s.nnodes = 0 ∧ s.root = nil ∧ s.NoCodes ∧ s.NoBlob
  | .tree => s.ArenaOk ∧ s.NoCodes ∧ s.NoBlob
  | .coded => s.ArenaOk ∧ s.CodesOk ∧ firstTooLong s = none ∧ s.NoBlob
  | .packed => s.ArenaOk ∧ s.CodesOk ∧ firstTooLong s = none ∧ s.BlobOk
  | .failed => s.ArenaOk ∧ s.CodesOk ∧ firstTooLong s ≠ none ∧ s.NoBlob

/-- With no error recorded, ERRINFO is 0 and the last command did not fail (R20, R21, R29). -/
def State.ErrorsOk (s : State) : Prop := s.err = .none → s.errinfo = 0 ∧ s.lasterr = .none

/-- The invariant of the core: it holds after reset, every step keeps it, and in a state that meets it no step stops. -/
structure State.Inv (s : State) : Prop where
  /-- The parameters are legal (00_scope.md R6). -/
  legal : s.cfg.legal = true
  /-- The arrays are in canonical form and of their size. -/
  arrays : s.arraysWf = true
  /-- INLEN is at most CAP (R23). -/
  len_le : s.len ≤ s.cfg.cap
  /-- NUNIQ is at most 128 (R24). -/
  n_le : s.n ≤ asize
  /-- R44. -/
  counts : s.CountsOk
  /-- R20, R21, R29. -/
  errors : s.ErrorsOk
  /-- R19, R25 to R28, R37 to R40. -/
  phaseOk : s.PhaseOk

/-- The values R43 gives after reset. It says nothing of PENDING and of the contents of UNIQ, INBUF, NODE and OUTBUF, which
R43 leaves unspecified. -/
structure State.AtReset (s : State) : Prop where
  status : s.busy = false ∧ s.ovr = false ∧ s.phase = .collect ∧ s.lasterr = .none ∧ s.err = .none
  results : s.res0 = 0 ∧ s.res1 = 0
  registers : s.inlen = 0 ∧ s.nuniq = 0 ∧ s.nnodes = 0 ∧ s.root = nil ∧ s.bitlen = 0 ∧ s.bloblen = 0 ∧ s.errinfo = 0
  tables : ∀ x : Sym, s.countAt x = 0 ∧ s.clenAt x = 0 ∧ s.cbitsAt x = 0

/-- Codes have been derived: phase CODED, PACKED or FAILED (R19). -/
def State.hasCodes (s : State) : Bool := s.phase == .coded || s.phase == .packed || s.phase == .failed

/-- The end of a run (70_reset_and_hazards.md R143): the host has issued its last transaction and BUSY = 0. -/
def State.ended (s : State) : Bool := s.host == [] && !s.busy

/-- What a correct program must end with (70_reset_and_hazards.md R136): no CMD write was dropped. -/
def State.endedCorrectly (s : State) : Bool := s.ended && !s.ovr

/-- The next step is a core step: BUSY = 1 and the next move is the core's. -/
def State.coreMoves (s : State) : Bool := s.busy && (s.host == [] || s.host.head? == some .coreTurn)

/-- The next step is a write to CMD (10_state.md R15). -/
def State.cmdWrite (s : State) : Bool :=
  match s.host with
  | .write addr size _ :: _ => addr == s.cfg.base && size == .word
  | .read _ _ :: _ | .reset :: _ | .coreTurn :: _ | [] => false

/-- Two states that differ at most where the spec leaves the contents unspecified: the entries of UNIQ, INBUF, NODE and
OUTBUF outside their valid counts, and PENDING while BUSY = 0 (R33, R43; 93 U3, U4). -/
structure State.Agree (s t : State) : Prop where
  /-- Every register, COUNT, CLEN, CBITS, the parameters and the model's own fields are equal. -/
  rest : t = { s with uniq := t.uniq, inbuf := t.inbuf, node := t.node, outbuf := t.outbuf, pending := t.pending }
  uniq : ∀ i < s.n, s.uniqAt i = t.uniqAt i
  inbuf : ∀ j < s.len, s.inputAt j = t.inputAt j
  node : ∀ i < s.nnodes.toNat, s.nodeAt i = t.nodeAt i
  outbuf : ∀ i < s.bloblen.toNat, s.blobAt i = t.blobAt i
  pending : s.busy = true → s.pending = t.pending

end Sys2Proof.Machine
end

