-- ==== Sys2Proof/Certificates/Slice0/Obligations.lean ====
section
/-! DEFINITION. The statements for the provers, from the numbered rules of spec/. -/

open Sys2Proof Sys2Proof.Machine

/-! ### Encoding and decode (30_encoding.md) -/

/-- R65, R69, R71: words written out from the opcode map and from the spec's examples decode to the commands they stand for,
and reserved opcodes and operands of a `none`-kind command are rejected by name. -/
def Obligations.SpecWordsDecode : Prop :=
  decode 0x00000000#32 = .ok .nop ∧ decode 0x01000000#32 = .ok .clear ∧
  decode 0x02000061#32 = .ok (.push 0x61#24) ∧ decode 0x02FFFFFF#32 = .ok (.push 0xFFFFFF#24) ∧
  decode 0x03000000#32 = .ok .build ∧ decode 0x04000000#32 = .ok .codes ∧
  decode 0x05000000#32 = .ok .pack ∧ decode 0x06000000#32 = .ok .encode ∧
  decode 0x10000061#32 = .ok (.rdCount 0x61#24) ∧ decode 0x11000001#32 = .ok (.rdUniq 1#24) ∧
  decode 0x12000003#32 = .ok (.rdInput 3#24) ∧ decode 0x13000002#32 = .ok (.rdNode 2#24) ∧
  decode 0x14000061#32 = .ok (.rdCode 0x61#24) ∧ decode 0x1500000B#32 = .ok (.rdBlob 11#24) ∧
  decode 0x07000000#32 = .error .reservedOpcode ∧ decode 0x0F123456#32 = .error .reservedOpcode ∧
  decode 0x16000000#32 = .error .reservedOpcode ∧ decode 0xFF000000#32 = .error .reservedOpcode ∧
  decode 0x03000001#32 = .error .nonzeroArg ∧ decode 0x00000001#32 = .error .nonzeroArg

/-- R63 to R65, R71: decoding the word of a command gives the command back, for every command and every operand. -/
def Obligations.DecodeOfEncode : Prop :=
  ∀ i : Instr, decode (encode i) = .ok i

/-- R65: "A command of kind `none` matches exactly one word"; every word that decodes is the word of the command it
decodes to. -/
def Obligations.EncodeOfDecode : Prop :=
  ∀ (w : Word) (i : Instr), decode w = .ok i → encode i = w

/-- R67, R120: which words decode, and that any other word completes with ILLEGAL, records the whole word and changes
nothing else: as the core step of R66, and as the step of the machine in a state with BUSY = 1 whose next move is the core's
(the host's events `es` still to come are the model's own field, log entry 1). -/
def Obligations.IllegalWordCompletes : Prop :=
  ∀ w : Word,
    ((∃ i, decode w = .ok i) ↔
      (w.toNat / 2 ^ 24 ≤ 0x06 ∨ (0x10 ≤ w.toNat / 2 ^ 24 ∧ w.toNat / 2 ^ 24 ≤ 0x15)) ∧
      ((w.toNat / 2 ^ 24 ≤ 0x06 ∧ w.toNat / 2 ^ 24 ≠ 0x02) → w.toNat % 2 ^ 24 = 0)) ∧
    ∀ s : State, s.pending = w → (∀ i, decode w ≠ .ok i) →
      let t : State := { s with
        busy := false
        lasterr := .illegal
        err := if s.err = .none then .illegal else s.err
        errinfo := if s.err = .none then w else s.errinfo }
      coreStep s = .next t ∧
      ∀ es : List HostEvent, s.busy = true → (s.host = [] ∧ es = [] ∨ s.host = .coreTurn :: es) →
        step s = .next { t with host := es }

/-- R66, R51: a step at a state with BUSY = 1 whose next move is the core's is `exec` of the decoded command, after which
BUSY is 0; so is the step right after a command word is placed. With BUSY = 0 and no host event
left nothing changes, the model's choice of log entry 1; the placing of a word is log entry 13. -/
def Obligations.StepRunsDecodedCommand : Prop :=
  ∀ s : State,
    (∀ (i : Instr) (es : List HostEvent), decode s.pending = .ok i → s.busy = true →
      (s.host = [] ∧ es = [] ∨ s.host = .coreTurn :: es) →
      step s = andThen (exec i { s with host := es }) fun t => .next { t with busy := false }) ∧
    (∀ (i : Instr) (w : Nat), w < 2 ^ 32 → decode (BitVec.ofNat 32 w) = .ok i →
      step (s.withFetchWord 32 w) =
        andThen (exec i { s with pending := BitVec.ofNat 32 w, busy := true }) fun t => .next { t with busy := false }) ∧
    (s.busy = false → s.host = [] → step s = .next s)

/-- R68, R121: the phases each command is accepted in; in any other phase it completes with SEQUENCE, records the command
word and changes nothing else. An accepted command never ends in SEQUENCE. -/
def Obligations.PhaseCheck : Prop :=
  ∀ (i : Instr) (s : State),
    let accepted : Prop := match i with
      | .nop | .clear | .rdCount _ | .rdUniq _ | .rdInput _ => True
      | .push _ | .build | .encode => s.phase = .collect
      | .codes => s.phase = .tree
      | .pack => s.phase = .coded
      | .rdNode _ => s.phase = .tree ∨ s.phase = .coded ∨ s.phase = .packed ∨ s.phase = .failed
      | .rdCode _ => s.phase = .coded ∨ s.phase = .packed ∨ s.phase = .failed
      | .rdBlob _ => s.phase = .packed
    (¬ accepted → exec i s = .next { s with
      lasterr := .sequence
      err := if s.err = .none then .sequence else s.err
      errinfo := if s.err = .none then encode i else s.errinfo }) ∧
    (accepted → ∀ t, exec i s = .next t → t.lasterr ≠ .sequence)

/-! ### Errors (60_exceptions.md, 10_state.md R20 to R22) -/

/-- R118, R119: a command that fails, but for CODE_TOO_LONG, leaves the core as it was except LASTERR, ERR and ERRINFO, and
records the command word; only CODES and ENCODE can fail with CODE_TOO_LONG, which leaves the core in FAILED. -/
def Obligations.FailureLeavesData : Prop :=
  ∀ (i : Instr) (s t : State), exec i s = .next t → t.lasterr ≠ .none →
    (t.lasterr ≠ .codeTooLong → t = { s with
      lasterr := t.lasterr
      err := if s.err = .none then t.lasterr else s.err
      errinfo := if s.err = .none then encode i else s.errinfo }) ∧
    (t.lasterr = .codeTooLong → (i = .codes ∨ i = .encode) ∧ t.phase = .failed)

/-- R21, R29: the error record is sticky over every step but a reset and a completed CLEAR, which clear it; the first error
writes ERR and ERRINFO together. -/
def Obligations.ErrorRecordSticky : Prop :=
  ∀ s t : State, step s = .next t →
    let clears : Prop := s.host.head? = some .reset ∨ (s.coreMoves = true ∧ decode s.pending = .ok .clear)
    (clears → t.err = .none ∧ t.errinfo = 0) ∧
    (¬ clears →
      (s.err ≠ .none → t.err = s.err ∧ t.errinfo = s.errinfo) ∧
      (s.err = .none → s.coreMoves = true → t.err = t.lasterr) ∧
      (s.err = .none → s.coreMoves = false → t.err = .none) ∧
      (s.err = .none → t.err = .none → t.errinfo = s.errinfo) ∧
      (s.err = .none → t.err ≠ .none → t.err ≠ .codeTooLong → t.errinfo = s.pending) ∧
      (s.err = .none → t.err = .codeTooLong →
        ∃ x : Sym, 8 < (t.clenAt x).toNat ∧ t.errinfo = 0#16 ++ t.clenAt x ++ x.setWidth 8))

/-- R22: only a successful read command writes RES0 and RES1, a one-word result writes RES1 = 0, and CLEAR and reset write
both to 0. -/
def Obligations.ResultRegisters : Prop :=
  ∀ (i : Instr) (s t : State), exec i s = .next t →
    ((i ≠ .clear ∧ t.lasterr ≠ .none ∨ i.mnemonic ∈ [Mnemonic.nop, .push, .build, .codes, .pack, .encode]) →
      t.res0 = s.res0 ∧ t.res1 = s.res1) ∧
    (i.mnemonic ∈ [Mnemonic.rdCount, .rdUniq, .rdInput, .rdCode, .rdBlob] → t.lasterr = .none → t.res1 = 0) ∧
    (i = .clear → t.res0 = 0 ∧ t.res1 = 0) ∧
    ((resetCore s).res0 = 0 ∧ (resetCore s).res1 = 0)

/-! ### The symbol counter (40_symbol_table.md) -/

/-- R76, R77, R135: NOP writes LASTERR alone; CLEAR leaves the state reset leaves, but for what reset leaves unspecified,
BUSY (which the core step clears) and the model's own fields. That the unspecified entries and PENDING stay in place is the
model's choice (log entry 8). -/
def Obligations.NopAndClearComplete : Prop :=
  ∀ s : State,
    exec .nop s = .next { s with lasterr := .none } ∧
    ∃ t, exec .clear s = .next t ∧ State.AtReset { t with busy := false } ∧
      t = { t with
        busy := s.busy, pending := s.pending, uniq := s.uniq, inbuf := s.inbuf, node := s.node, outbuf := s.outbuf
        cfg := s.cfg, host := s.host, rdata := s.rdata, draws := s.draws }

/-- R79: a symbol outside 0..127 is dropped: nothing but LASTERR <- 0, even with the input buffer full. -/
def Obligations.PushDropsOutOfRange : Prop :=
  ∀ (arg : Arg) (s : State), s.phase = .collect → 127 < arg.toNat →
    exec (.push arg) s = .next { s with lasterr := .none }

/-- R122, R80: an in-range symbol with INLEN = CAP fails with FULL, records the command word and is neither counted nor
stored. -/
def Obligations.PushFull : Prop :=
  ∀ (arg : Arg) (s : State), s.phase = .collect → arg.toNat ≤ 127 → s.len = s.cfg.cap →
    exec (.push arg) s = .next { s with
      lasterr := .full
      err := if s.err = .none then .full else s.err
      errinfo := if s.err = .none then BitVec.ofNat 32 (0x02000000 + arg.toNat) else s.errinfo }

/-- R78, R81: an accepted symbol is stored at INBUF[L], counted, and on its first occurrence appended to UNIQ; every other
entry and every other register is unchanged. -/
def Obligations.PushAccepted : Prop :=
  ∀ (arg : Arg) (s : State), s.cfg.legal = true → s.arraysWf = true → s.phase = .collect → arg.toNat ≤ 127 →
    s.len < s.cfg.cap → (s.countAt (arg.setWidth 7) = 0 → s.n < 128) →
    (s.countAt (arg.setWidth 7)).toNat + 1 < 2 ^ 32 →
    ∃ t, exec (.push arg) s = .next t ∧
      t = { s with
        inbuf := t.inbuf, inlen := t.inlen, uniq := t.uniq, nuniq := t.nuniq, count := t.count, lasterr := .none } ∧
      t.len = s.len + 1 ∧
      t.n = (if s.countAt (arg.setWidth 7) = 0 then s.n + 1 else s.n) ∧
      (∀ j, t.inputAt j = if j = s.len then arg.setWidth 7 else s.inputAt j) ∧
      (∀ i, t.uniqAt i = if s.countAt (arg.setWidth 7) = 0 ∧ i = s.n then arg.setWidth 7 else s.uniqAt i) ∧
      (∀ y, t.countAt y = if y = arg.setWidth 7 then s.countAt y + 1 else s.countAt y)

/-- R44: the counting invariants hold after reset, and every step keeps them. -/
def Obligations.CountingInvariant : Prop :=
  (∀ c : Config, (State.resetWith c).CountsOk) ∧
  ∀ s t : State, s.cfg.legal = true → s.arraysWf = true → s.len ≤ s.cfg.cap → s.CountsOk → step s = .next t → t.CountsOk

/-! ### The tree builder (41_tree_builder.md) -/

/-- R83: FIFO extracts the least index among the minimum-weight nodes; ANY extracts some minimum-weight node, and every one
of them under some choice (the form of the choice is the model's, log entry 5). -/
def Obligations.ExtractionOrder : Prop :=
  ∀ (node : Memory Node) (E : List Nat) (choice : Nat), E ≠ [] → E.Pairwise (· < ·) →
    (∀ tb, argmin tb node choice E ∈ E ∧ ∀ j ∈ E, weightAt node (argmin tb node choice E) ≤ weightAt node j) ∧
    (∀ j ∈ E, weightAt node j = weightAt node (argmin .fifo node choice E) → argmin .fifo node choice E ≤ j) ∧
    (∀ j ∈ E, (∀ k ∈ E, weightAt node j ≤ weightAt node k) → ∃ c, argmin .any node c E = j)

/-- R84, R86, R90: BUILD in COLLECT always completes; NNODES and ROOT; the leaves are seeded in UNIQ order; no entry beyond
NNODES and no other register is written. The count of free draws is the model's own (log entries 4 and 5). -/
def Obligations.BuildCompletes : Prop :=
  ∀ s : State, s.arraysWf = true → s.phase = .collect → s.n ≤ 128 → leafWeight s < 2 ^ 32 →
    ∃ t, exec .build s = .next t ∧
      t = { s with
        node := t.node
        nnodes := BitVec.ofNat 8 (2 * s.n - 1)
        root := if s.n = 0 then 0xFF#8 else BitVec.ofNat 8 (2 * s.n - 2)
        phase := .tree
        lasterr := .none
        draws := if s.cfg.tieBreak = .any then s.draws + 2 * (s.n - 1) else s.draws } ∧
      (∀ i < s.n, (t.nodeAt i).w = s.countAt (s.uniqAt i) ∧ (t.nodeAt i).sym = (s.uniqAt i).setWidth 8 ∧
        (t.nodeAt i).lft = 0xFF#8 ∧ (t.nodeAt i).rgt = 0xFF#8) ∧
      (∀ i, 2 * s.n - 1 ≤ i → t.nodeAt i = s.nodeAt i)

/-- R88: the empty input gives an empty arena with no root, a single symbol one leaf that is the root. -/
def Obligations.BuildEdgeCases : Prop :=
  ∀ s : State, s.arraysWf = true → s.phase = .collect →
    (s.n = 0 → exec .build s = .next
      { s with nnodes := 0, root := 0xFF#8, phase := .tree, lasterr := .none }) ∧
    (s.n = 1 → ∃ t, exec .build s = .next t ∧
      t = { s with node := t.node, nnodes := 1, root := 0, phase := .tree, lasterr := .none } ∧
      ∀ i, t.nodeAt i = if i = 0
        then { w := s.countAt (s.uniqAt 0), sym := (s.uniqAt 0).setWidth 8, par := 0xFF#8, lft := 0xFF#8, rgt := 0xFF#8 }
        else s.nodeAt i)

/-- R84 to R86, R38: whatever the free choices of TIE_BREAK = ANY are, and under FIFO, BUILD makes a sound arena. -/
def Obligations.BuildMakesSoundArena : Prop :=
  ∀ (choice : Nat → Nat) (s : State), s.cfg.legal = true → s.arraysWf = true → s.len ≤ s.cfg.cap → s.n ≤ 128 → s.CountsOk →
    (buildState choice s).ArenaOk

/-- R38: the arena's invariants in every phase but COLLECT. -/
def Obligations.TreeInvariants : Prop :=
  ∀ s : State, s.Inv → s.phase ≠ .collect →
    (∀ i < s.nnodes.toNat,
      (i < s.n ↔ (s.nodeAt i).sym ≠ 0xFF#8) ∧ (i < s.n ↔ (s.nodeAt i).lft = 0xFF#8) ∧
      (i < s.n ↔ (s.nodeAt i).rgt = 0xFF#8) ∧
      ((s.nodeAt i).par = 0xFF#8 ↔ i = s.root.toNat)) ∧
    (∀ p < s.nnodes.toNat, s.n ≤ p →
      (s.nodeAt p).lft.toNat < p ∧ (s.nodeAt p).rgt.toNat < p ∧
      (s.nodeAt (s.nodeAt p).lft.toNat).par.toNat = p ∧ (s.nodeAt (s.nodeAt p).rgt.toNat).par.toNat = p ∧
      (s.nodeAt p).w.toNat =
        (s.nodeAt (s.nodeAt p).lft.toNat).w.toNat + (s.nodeAt (s.nodeAt p).rgt.toNat).w.toNat) ∧
    (1 ≤ s.n → (s.nodeAt s.root.toNat).w = s.inlen)

/-- R89: the weights of the extracted nodes, in extraction order, never decrease, under FIFO and under every choice of ANY.
The nodes extracted for the internal node p are its left and then its right child. -/
def Obligations.ExtractedWeightsNondecreasing : Prop :=
  ∀ (choice : Nat → Nat) (s : State), s.arraysWf = true → s.n ≤ 128 → leafWeight s < 2 ^ 32 →
    let t := buildState choice s
    ∀ p, s.n ≤ p → p < 2 * s.n - 1 →
      (t.nodeAt (t.nodeAt p).lft.toNat).w.toNat ≤ (t.nodeAt (t.nodeAt p).rgt.toNat).w.toNat ∧
      (p + 1 < 2 * s.n - 1 →
        (t.nodeAt (t.nodeAt p).rgt.toNat).w.toNat ≤ (t.nodeAt (t.nodeAt (p + 1)).lft.toNat).w.toNat)

/-- R83, R84: under FIFO nodes leave the eligible set in the order of their weights, and among equal weights in the order of
their indices: each extracted node comes strictly after the one extracted before it. -/
def Obligations.FifoExtractsInOrder : Prop :=
  ∀ (choice : Nat → Nat) (s : State), s.cfg.tieBreak = .fifo → s.arraysWf = true → s.n ≤ 128 → leafWeight s < 2 ^ 32 →
    let t := buildState choice s
    let before : Nat → Nat → Prop := fun i j =>
      (t.nodeAt i).w.toNat < (t.nodeAt j).w.toNat ∨ ((t.nodeAt i).w.toNat = (t.nodeAt j).w.toNat ∧ i < j)
    ∀ p, s.n ≤ p → p < 2 * s.n - 1 →
      before (t.nodeAt p).lft.toNat (t.nodeAt p).rgt.toNat ∧
      (p + 1 < 2 * s.n - 1 → before (t.nodeAt p).rgt.toNat (t.nodeAt (p + 1)).lft.toNat)

/-- R87: every outcome of TIE_BREAK = ANY has the same leaf seeding, the same NNODES and ROOT, and the same extracted weights
in the same order. -/
def Obligations.TieBreakKeepsWeights : Prop :=
  ∀ (c c' : Nat → Nat) (s : State), s.arraysWf = true → s.n ≤ 128 → leafWeight s < 2 ^ 32 →
    let t := buildState c s
    let u := buildState c' s
    t.nnodes = u.nnodes ∧ t.root = u.root ∧
    (∀ i < s.n, (t.nodeAt i).w = (u.nodeAt i).w ∧ (t.nodeAt i).sym = (u.nodeAt i).sym) ∧
    ∀ p, s.n ≤ p → p < 2 * s.n - 1 →
      (t.nodeAt (t.nodeAt p).lft.toNat).w = (u.nodeAt (u.nodeAt p).lft.toNat).w ∧
      (t.nodeAt (t.nodeAt p).rgt.toNat).w = (u.nodeAt (u.nodeAt p).rgt.toNat).w

/-! ### The code table (42_code_table.md) -/

/-- R91, R93, R96, R124: CODES in TREE completes over every sound arena. With two or more unique symbols CLEN of the i-th is
the number of parent links from leaf i to the root, and its code bits, root side first, lead from the root to leaf i, a code
longer than 8 having no bits; the entry of an absent symbol is 0. If every code length is at most 8 it ends in CODED; else in
FAILED with CODE_TOO_LONG, reporting the first too-long symbol in UNIQ order. No other register and no other array is
written. -/
def Obligations.CodesCompletes : Prop :=
  ∀ s : State, s.phase = .tree → s.n ≤ 128 → s.ArenaOk →
    ∃ t, exec .codes s = .next t ∧
      t = { s with
        clen := t.clen, cbits := t.cbits, phase := t.phase, lasterr := t.lasterr, err := t.err, errinfo := t.errinfo } ∧
      (2 ≤ s.n → s.uniqList.Nodup → ∀ i < s.n,
        climb s.node i (t.clenAt (s.uniqAt i)).toNat = s.root.toNat ∧
        (∀ d < (t.clenAt (s.uniqAt i)).toNat, climb s.node i d ≠ s.root.toNat) ∧
        ((t.clenAt (s.uniqAt i)).toNat ≤ 8 → descend s.node s.root.toNat (codeBits t (s.uniqAt i)) = i) ∧
        (8 < (t.clenAt (s.uniqAt i)).toNat → t.cbitsAt (s.uniqAt i) = 0)) ∧
      (∀ x, x ∉ s.uniqList → t.clenAt x = 0 ∧ t.cbitsAt x = 0) ∧
      ((∀ i < s.n, (t.clenAt (s.uniqAt i)).toNat ≤ 8) →
        t.phase = .coded ∧ t.lasterr = .none ∧ t.err = s.err ∧ t.errinfo = s.errinfo) ∧
      (∀ k < s.n, 8 < (t.clenAt (s.uniqAt k)).toNat → (∀ i < k, (t.clenAt (s.uniqAt i)).toNat ≤ 8) →
        t.phase = .failed ∧ t.lasterr = .codeTooLong ∧
        t.err = (if s.err = .none then .codeTooLong else s.err) ∧
        t.errinfo = (if s.err = .none
          then BitVec.ofNat 32 ((t.clenAt (s.uniqAt k)).toNat * 256 + (s.uniqAt k).toNat) else s.errinfo))

/-- R92, R94: with one unique symbol its code is the one bit SINGLE_CODE_BIT and every other entry is 0; with none the tables
are all 0, whatever the arena holds. Both end in CODED. -/
def Obligations.CodesEdgeCases : Prop :=
  ∀ s : State, s.phase = .tree →
    (s.n = 0 → exec .codes s = .next { s with clen := [], cbits := [], phase := .coded, lasterr := .none }) ∧
    (s.n = 1 → ∃ t, exec .codes s = .next t ∧
      t = { s with clen := t.clen, cbits := t.cbits, phase := .coded, lasterr := .none } ∧
      ∀ x, t.clenAt x = (if x = s.uniqAt 0 then 1#8 else 0#8) ∧
        t.cbitsAt x = (if x = s.uniqAt 0 then s.cfg.singleCodeBit.setWidth 8 else 0#8))

/-- R96, R39, R92: in every state with codes, for N >= 2 CLEN of the i-th unique symbol is the number of parent links from leaf i
to the root, and its code bits, root side first, lead from the root to leaf i; for N = 1 the only code has length 1, at depth 0,
and is SINGLE_CODE_BIT. A too-long symbol has no
bits, an absent one has length 0 and no bits, and no bit stands above the code's length. -/
def Obligations.CodesFollowTree : Prop :=
  ∀ s : State, s.Inv → s.hasCodes = true →
    (∀ x, x ∉ s.uniqList → s.clenAt x = 0 ∧ s.cbitsAt x = 0) ∧
    (s.n = 1 → s.root = 0 ∧ s.clenAt (s.uniqAt 0) = 1 ∧ s.cbitsAt (s.uniqAt 0) = s.cfg.singleCodeBit.setWidth 8) ∧
    (2 ≤ s.n → ∀ i < s.n,
      climb s.node i (s.clenAt (s.uniqAt i)).toNat = s.root.toNat ∧
      (∀ d < (s.clenAt (s.uniqAt i)).toNat, climb s.node i d ≠ s.root.toNat) ∧
      ((s.clenAt (s.uniqAt i)).toNat ≤ 8 →
        descend s.node s.root.toNat (codeBits s (s.uniqAt i)) = i ∧
        (s.cbitsAt (s.uniqAt i)).toNat < 2 ^ (s.clenAt (s.uniqAt i)).toNat) ∧
      (8 < (s.clenAt (s.uniqAt i)).toNat → s.cbitsAt (s.uniqAt i) = 0))

/-- R95: after a successful CODES no symbol's code is a prefix of another's. -/
def Obligations.CodesArePrefixFree : Prop :=
  ∀ s : State, s.Inv → (s.phase = .coded ∨ s.phase = .packed) →
    ∀ x ∈ s.uniqList, ∀ y ∈ s.uniqList, codeBits s x <+: codeBits s y → x = y

/-- R97: the sum of 2^(-CLEN) over the unique symbols is 1 for N >= 2, 1/2 for N = 1 and 0 for N = 0. -/
def Obligations.CodesAreComplete : Prop :=
  ∀ s : State, s.Inv → s.hasCodes = true →
    (s.uniqList.map fun x => (1 / 2 : ℚ) ^ (s.clenAt x).toNat).sum =
      if s.n = 0 then 0 else if s.n = 1 then 1 / 2 else 1

/-- R98: a leaf's depth is at most N - 1; CODES over at most 9 symbols never fails; over 10 or more it fails iff some leaf
has depth 9 or more. -/
def Obligations.WhenCodesTooLong : Prop :=
  ∀ s : State, s.Inv → s.phase = .tree →
    (∀ i < s.n, ∃ d ≤ s.n - 1, climb s.node i d = s.root.toNat) ∧
    (s.n ≤ 9 → ∃ t, exec .codes s = .next t ∧ t.phase = .coded ∧ t.lasterr = .none) ∧
    (10 ≤ s.n → ∃ t, exec .codes s = .next t ∧
      (t.lasterr = .codeTooLong ↔ ∃ i < s.n, ∀ d ≤ 8, climb s.node i d ≠ s.root.toNat) ∧
      (t.lasterr = .none ↔ t.lasterr ≠ .codeTooLong))

/-! ### The bit-packer (43_bit_packer.md, 20_memory.md R54 to R59) -/

/-- R99, R100, R55: PACK in CODED completes when every entry it reads and writes exists; BITLEN is the sum of the input's code
lengths, BLOBLEN is 5 + 3N + ceil(BITLEN / 8); no byte beyond the blob and no other register is written. -/
def Obligations.PackCompletes : Prop :=
  ∀ s : State, s.cfg.legal = true → s.arraysWf = true → s.phase = .coded → s.n ≤ 128 → s.len ≤ s.cfg.cap →
    (∀ i < s.n, (s.clenAt (s.uniqAt i)).toNat ≤ 8) → (∀ j < s.len, (s.clenAt (s.inputAt j)).toNat ≤ 8) →
    let T := ((List.range s.len).map fun j => (s.clenAt (s.inputAt j)).toNat).sum
    ∃ t, exec .pack s = .next t ∧
      t = { s with
        outbuf := t.outbuf
        bitlen := BitVec.ofNat 32 T
        bloblen := BitVec.ofNat 32 (5 + 3 * s.n + (T + 7) / 8)
        phase := .packed
        lasterr := .none } ∧
      t.bitlen.toNat = T ∧ t.bloblen.toNat = 5 + 3 * s.n + (T + 7) / 8 ∧ t.bloblen.toNat ≤ 389 + s.cfg.cap ∧
      (∀ i, 5 + 3 * s.n + (T + 7) / 8 ≤ i → t.blobAt i = s.blobAt i)

/-- R56, R57, R58: in PACKED the blob begins with the count byte, the records in UNIQ order, and BITLEN big-endian. -/
def Obligations.BlobHeader : Prop :=
  ∀ s : State, s.Inv → s.phase = .packed →
    s.blobAt 0 = s.nuniq ∧
    (∀ i < s.n, s.blobAt (1 + 3 * i) = (s.uniqAt i).setWidth 8 ∧
      s.blobAt (2 + 3 * i) = s.clenAt (s.uniqAt i) ∧
      1 ≤ (s.clenAt (s.uniqAt i)).toNat ∧ (s.clenAt (s.uniqAt i)).toNat ≤ 8 ∧
      s.blobAt (3 + 3 * i) = match s.cfg.codeAlign with
        | .left => s.cbitsAt (s.uniqAt i) <<< (8 - (s.clenAt (s.uniqAt i)).toNat)
        | .right => s.cbitsAt (s.uniqAt i)) ∧
    s.bitlen = s.blobAt (1 + 3 * s.n) ++ s.blobAt (2 + 3 * s.n) ++ s.blobAt (3 + 3 * s.n) ++ s.blobAt (4 + 3 * s.n)

/-- R59, R101: in PACKED bit q of the bit string (the codes of INBUF[0..L-1] in input order, root-side bit first) is bit
7 - (q mod 8) of byte P + q div 8, and every later bit of the last payload byte is 0. -/
def Obligations.BlobPayload : Prop :=
  ∀ s : State, s.Inv → s.phase = .packed →
    let P := 5 + 3 * s.n
    let bits := (s.inputList.flatMap fun x =>
      (List.range (s.clenAt x).toNat).map fun k => (s.cbitsAt x).getLsbD ((s.clenAt x).toNat - 1 - k))
    bits.length = s.bitlen.toNat ∧
    (∀ q < s.bitlen.toNat, some ((s.blobAt (P + q / 8)).getLsbD (7 - q % 8)) = bits[q]?) ∧
    (∀ q, s.bitlen.toNat ≤ q → q < 8 * ((s.bitlen.toNat + 7) / 8) →
      (s.blobAt (P + q / 8)).getLsbD (7 - q % 8) = false)

/-- R103, R55: in PACKED the length field counts COUNT[s] x CLEN[s] over the unique symbols, and BLOBLEN is the length R55
gives. R104, said of the stored input (what PUSH accepted): the count byte is NUNIQ, the number of distinct symbols in INBUF[0..L-1]. -/
def Obligations.BlobIdentities : Prop :=
  ∀ s : State, s.Inv → s.phase = .packed →
    s.bitlen.toNat = (s.uniqList.map fun x => (s.countAt x).toNat * (s.clenAt x).toNat).sum ∧
    (s.blobAt 0).toNat = ((List.range 128).filter fun k => decide (BitVec.ofNat 7 k ∈ s.inputList)).length ∧
    s.blobAt 0 = s.nuniq ∧
    s.bloblen.toNat = 5 + 3 * s.n + (s.bitlen.toNat + 7) / 8 ∧ 5 ≤ s.bloblen.toNat ∧ s.bloblen.toNat ≤ 389 + s.cfg.cap

/-- R106: with an empty input PACK writes exactly five bytes 00. -/
def Obligations.EmptyBlob : Prop :=
  ∀ s : State, s.arraysWf = true → s.phase = .coded → s.len = 0 → s.n = 0 →
    ∃ t, exec .pack s = .next t ∧ t.phase = .packed ∧ t.lasterr = .none ∧ t.bitlen = 0 ∧ t.bloblen = 5 ∧
      ∀ i, t.blobAt i = if i < 5 then 0 else s.blobAt i

/-- R107: with one unique symbol the blob is 01, its record, the length L, and L copies of SINGLE_CODE_BIT. -/
def Obligations.SingleSymbolBlob : Prop :=
  ∀ s : State, s.Inv → s.phase = .packed → s.n = 1 →
    s.blobAt 0 = 1 ∧ s.blobAt 1 = (s.uniqAt 0).setWidth 8 ∧ s.blobAt 2 = 1 ∧
    s.blobAt 3 = (match s.cfg.codeAlign with
      | .left => s.cfg.singleCodeBit.setWidth 8 <<< 7
      | .right => s.cfg.singleCodeBit.setWidth 8) ∧
    s.blobAt 4 ++ s.blobAt 5 ++ s.blobAt 6 ++ s.blobAt 7 = s.inlen ∧
    s.bloblen.toNat = 8 + (s.len + 7) / 8 ∧
    (s.cfg.singleCodeBit = 0 → ∀ i < (s.len + 7) / 8, s.blobAt (8 + i) = 0) ∧
    (s.cfg.singleCodeBit = 1 → (∀ i < s.len / 8, s.blobAt (8 + i) = 0xFF#8) ∧
      (s.len % 8 ≠ 0 → (s.blobAt (8 + s.len / 8)).toNat = 256 - 2 ^ (8 - s.len % 8)))

/-- R108: the first BITLEN bits of a PACKED blob's payload parse in exactly one way as a sequence of the unique symbols'
codes, and that parse is INBUF[0..L-1]. -/
def Obligations.PayloadParsesUniquely : Prop :=
  ∀ s : State, s.Inv → s.phase = .packed → ∀ xs : List Sym, (∀ x ∈ xs, x ∈ s.uniqList) →
    (xs.flatMap (codeBits s) =
      (List.range s.bitlen.toNat).map (fun q => (s.blobAt (5 + 3 * s.n + q / 8)).getLsbD (7 - q % 8)) ↔
      xs = s.inputList)

/-- R105: under FIFO the blob is a function of the accepted input. -/
def Obligations.BlobIsFunctionOfInput : Prop :=
  ∀ s t s' : State, s.Inv → t.Inv → s.phase = .collect → t.phase = .collect → s.cfg = t.cfg → s.cfg.tieBreak = .fifo →
    s.inputList = t.inputList → exec .encode s = .next s' → s'.phase = .packed →
    ∃ t', exec .encode t = .next t' ∧ t'.phase = .packed ∧ t'.bitlen = s'.bitlen ∧ t'.bloblen = s'.bloblen ∧
      ∀ i < s'.bloblen.toNat, t'.blobAt i = s'.blobAt i

/-- R102: in COLLECT the end state of ENCODE is that of BUILD, CODES and, unless CODES failed, PACK, one after another. -/
def Obligations.EncodeIsBuildCodesPack : Prop :=
  ∀ s : State, s.phase = .collect →
    exec .encode s = andThen (exec .build s) fun u => andThen (exec .codes u) fun v =>
      if v.phase = .failed then .next v else exec .pack v

/-- R102: ENCODE in COLLECT completes, in PACKED with success or in FAILED with CODE_TOO_LONG and no blob; it writes only what
BUILD, CODES and PACK write. -/
def Obligations.EncodeCompletes : Prop :=
  ∀ s : State, s.Inv → s.phase = .collect →
    ∃ t, exec .encode s = .next t ∧
      t = { s with
        node := t.node, nnodes := BitVec.ofNat 8 (2 * s.n - 1)
        root := if s.n = 0 then 0xFF#8 else BitVec.ofNat 8 (2 * s.n - 2)
        clen := t.clen, cbits := t.cbits, outbuf := t.outbuf, bitlen := t.bitlen, bloblen := t.bloblen
        phase := t.phase, lasterr := t.lasterr, err := t.err, errinfo := t.errinfo, draws := t.draws } ∧
      ((t.phase = .packed ∧ t.lasterr = .none ∧ t.err = s.err ∧ t.errinfo = s.errinfo ∧
          t.bloblen.toNat = 5 + 3 * s.n + (t.bitlen.toNat + 7) / 8) ∨
        (t.phase = .failed ∧ t.lasterr = .codeTooLong ∧ t.bitlen = 0 ∧ t.bloblen = 0 ∧ t.outbuf = s.outbuf))

/-! ### Read-back (44_readback.md) -/

/-- R110, R111, R112: the reads of the symbol counter's arrays, in every phase; RES0, RES1 and LASTERR alone are written. -/
def Obligations.ReadCounterArrays : Prop :=
  ∀ (arg : Arg) (s : State),
    (arg.toNat ≤ 127 → exec (.rdCount arg) s = .next
      { s with res0 := s.countAt (arg.setWidth 7), res1 := 0, lasterr := .none }) ∧
    (arg.toNat < s.n → s.n ≤ 128 → exec (.rdUniq arg) s = .next
      { s with res0 := (s.uniqAt arg.toNat).setWidth 32, res1 := 0, lasterr := .none }) ∧
    (arg.toNat < s.len → s.len ≤ s.cfg.cap → exec (.rdInput arg) s = .next
      { s with res0 := (s.inputAt arg.toNat).setWidth 32, res1 := 0, lasterr := .none })

/-- R113, R114, R115: the reads of the tree, the code table and the blob in the phases that accept them; RES0, RES1 and LASTERR
alone are written. -/
def Obligations.ReadTreeCodesBlob : Prop :=
  ∀ (arg : Arg) (s : State),
    (s.phase ≠ .collect → arg.toNat < s.nnodes.toNat → exec (.rdNode arg) s = .next
      { s with
        res0 := (s.nodeAt arg.toNat).w
        res1 := (s.nodeAt arg.toNat).sym ++ (s.nodeAt arg.toNat).par ++ (s.nodeAt arg.toNat).lft ++ (s.nodeAt arg.toNat).rgt
        lasterr := .none }) ∧
    (s.phase ≠ .collect → s.phase ≠ .tree → arg.toNat ≤ 127 → exec (.rdCode arg) s = .next
      { s with
        res0 := BitVec.ofNat 32 ((s.clenAt (arg.setWidth 7)).toNat * 256 + (s.cbitsAt (arg.setWidth 7)).toNat)
        res1 := 0
        lasterr := .none }) ∧
    (s.phase = .packed → arg.toNat < s.bloblen.toNat → s.bloblen.toNat ≤ 389 + s.cfg.cap → exec (.rdBlob arg) s = .next
      { s with res0 := (s.blobAt arg.toNat).setWidth 32, res1 := 0, lasterr := .none })

/-- R123: a read command whose operand is outside its array fails with RANGE, records the command word, and leaves RES0 and
RES1 unchanged. -/
def Obligations.ReadOutsideRange : Prop :=
  ∀ (i : Instr) (s : State),
    let outside : Prop := match i with
      | .rdCount a => 127 < a.toNat
      | .rdUniq a => s.n ≤ a.toNat
      | .rdInput a => s.len ≤ a.toNat
      | .rdNode a => s.phase ≠ .collect ∧ s.nnodes.toNat ≤ a.toNat
      | .rdCode a => (s.phase = .coded ∨ s.phase = .packed ∨ s.phase = .failed) ∧ 127 < a.toNat
      | .rdBlob a => s.phase = .packed ∧ s.bloblen.toNat ≤ a.toNat
      | .nop | .clear | .push _ | .build | .codes | .pack | .encode => False
    outside → exec i s = .next { s with
      lasterr := .range
      err := if s.err = .none then .range else s.err
      errinfo := if s.err = .none then encode i else s.errinfo }

/-! ### The register window (10_state.md R14 to R32, 20_memory.md R45 to R49) -/

/-- R16: the fields of STATUS, as the number 95_test_vectors.md writes it as. -/
def Obligations.StatusLayout : Prop :=
  ∀ s : State, (statusWord s).toNat =
    (errBits s.err).toNat * 65536 + (errBits s.lasterr).toNat * 256 + (phaseBits s.phase).toNat * 16 +
      s.ovr.toNat * 2 + s.busy.toNat ∧
    ([Phase.collect, .tree, .coded, .packed, .failed].map phaseBits = [0, 1, 2, 3, 4]) ∧
    ([ErrCode.none, .illegal, .sequence, .full, .range, .codeTooLong].map errBits = [0, 1, 2, 3, 4, 5])

/-- R15, R18: a CMD write is latched while BUSY = 0, and dropped with OVR <- 1 while BUSY = 1. -/
def Obligations.CmdWrite : Prop :=
  ∀ (s : State) (es : List HostEvent) (w : Word), s.host = .write s.cfg.base .word w :: es →
    (s.busy = false → step s = .next { s with host := es, pending := w, busy := true }) ∧
    (s.busy = true → step s = .next { s with host := es, ovr := true })

/-- R18: OVR is set by nothing but a dropped CMD write, which changes no error code, and cleared by nothing but reset and
CLEAR. -/
def Obligations.OverrunFlag : Prop :=
  ∀ s t : State, step s = .next t →
    (s.cmdWrite = true → s.busy = true → t.ovr = true ∧ t.lasterr = s.lasterr ∧ t.err = s.err) ∧
    (s.ovr = false → t.ovr = true → s.cmdWrite = true ∧ s.busy = true) ∧
    (s.ovr = true → t.ovr = false →
      s.host.head? = some .reset ∨ (s.coreMoves = true ∧ decode s.pending = .ok .clear))

/-- R14, R48: while BUSY = 0 a register read answers what R14's table says and changes nothing of the core. -/
def Obligations.IdleRegisterReads : Prop :=
  ∀ (s : State) (es : List HostEvent) (off : Nat), off < 256 → off % 4 = 0 →
    s.host = .read (s.cfg.base + off) .word :: es → s.busy = false →
    step s = .next { s with
      host := es
      rdata :=
        if off = 0x04 then statusWord s
        else if off = 0x08 then s.res0
        else if off = 0x0C then s.res1
        else if off = 0x10 then s.inlen
        else if off = 0x14 then s.nuniq.setWidth 32
        else if off = 0x18 then s.nnodes.setWidth 32
        else if off = 0x1C then s.root.setWidth 32
        else if off = 0x20 then s.bitlen
        else if off = 0x24 then s.bloblen
        else if off = 0x28 then s.errinfo
        else if off = 0x2C then 0x48554601#32
        else if off = 0x30 then BitVec.ofNat 32 s.cfg.cap
        else 0#32 }

/-- R17, R48: while BUSY = 1 a read of STATUS answers BUSY = 1 and the true OVR, and a read of any other register but ID and
CAPR completes with some value; nothing of the core changes. That CMD is among them is
the model's reading (log entry 9), and so is the count of draws (log entry 4). -/
def Obligations.BusyRegisterReads : Prop :=
  ∀ (s : State) (es : List HostEvent) (off : Nat), off ≤ 0x28 → off % 4 = 0 →
    s.host = .read (s.cfg.base + off) .word :: es → s.busy = true →
    ∃ v : Word, step s = .next { s with host := es, rdata := v, draws := s.draws + 1 } ∧
      (off = 0x04 → v.getLsbD 0 = true ∧ v.getLsbD 1 = s.ovr)

/-- R30, R31: ID and CAPR read the same in every phase and while BUSY. -/
def Obligations.IdAndCapacityReads : Prop :=
  ∀ (s : State) (es : List HostEvent),
    (s.host = .read (s.cfg.base + 0x2C) .word :: es → step s = .next { s with host := es, rdata := 0x48554601#32 }) ∧
    (s.host = .read (s.cfg.base + 0x30) .word :: es →
      step s = .next { s with host := es, rdata := BitVec.ofNat 32 s.cfg.cap })

/-- R32: a reserved offset reads 0, and a write to one or to a read-only register is ignored. That this holds while BUSY = 1 as
well, where R17 makes other reads free, is the model's reading (log entry 9). -/
def Obligations.ReservedAndReadOnly : Prop :=
  ∀ (s : State) (es : List HostEvent) (off : Nat) (v : Word), off < 256 → off % 4 = 0 →
    (0x34 ≤ off → s.host = .read (s.cfg.base + off) .word :: es → step s = .next { s with host := es, rdata := 0 }) ∧
    (off ≠ 0 → s.host = .write (s.cfg.base + off) .word v :: es → step s = .next { s with host := es })

/-- R46: a narrower or misaligned write is ignored entirely, and such a read returns 0; neither sets an error or OVR. R46 also
lets a model refuse these accesses; taking the defined reading is the model's choice (log entry 15). -/
def Obligations.NarrowAndMisaligned : Prop :=
  ∀ (s : State) (es : List HostEvent) (off : Nat) (size : AccessSize) (v : Word), off < 256 →
    (size ≠ .word ∨ off % 4 ≠ 0) →
    (s.host = .read (s.cfg.base + off) size :: es → step s = .next { s with host := es, rdata := 0 }) ∧
    (s.host = .write (s.cfg.base + off) size v :: es → step s = .next { s with host := es })

/-! ### Reset (10_state.md R43, 70_reset_and_hazards.md) -/

/-- R43, R131: every piece of state the reset table gives a value has it, in the state after reset of every build, and the
core then waits. That an idle step changes nothing is log entry 1; BASE's default is log entry 3. -/
def Obligations.ResetState : Prop :=
  ∀ c : Config, (State.resetWith c).AtReset ∧ (State.resetWith c).cfg = c ∧ step (State.resetWith c) = .next (State.resetWith c) ∧
    State.reset = State.resetWith
      { cap := 65536, tieBreak := .fifo, codeAlign := .left, singleCodeBit := 0, base := Config.standard.base }

/-- R131, R132: reset is one event in any state; it discards a pending command and leaves the reset values. That it
keeps the parameters and the host's coming events is log entry 17. -/
def Obligations.ResetEvent : Prop :=
  ∀ (s : State) (es : List HostEvent), s.host = .reset :: es →
    ∃ t, step s = .next t ∧ t.AtReset ∧ t.cfg = s.cfg ∧ t.host = es

/-! ### The whole machine -/

/-- The invariant of the core holds after reset of every legal build. -/
def Obligations.ResetMeetsInvariant : Prop :=
  ∀ c : Config, c.legal = true → (State.resetWith c).Inv

/-- In every state that meets the invariant the step answers a next state that meets it: no command hangs or indexes outside
an array, no sum wraps, no ancestor walk fails to end (R66, R85), and R19, R25 to R28, R38, R39 and R44 hold for ever. -/
def Obligations.MachineInvariant : Prop :=
  ∀ s : State, s.Inv → ∃ t, step s = .next t ∧ t.Inv

/-- Every step keeps every array in canonical form and of its size (R34 to R40). -/
def Obligations.ArraysStayCanonical : Prop :=
  ∀ s t : State, s.arraysWf = true → step s = .next t → t.arraysWf = true

/-- R6: "No parameter changes during a run." The parameters are a field of State by the model's choice (log entry 3). -/
def Obligations.ParametersNeverChange : Prop :=
  ∀ s t : State, step s = .next t → t.cfg = s.cfg

/-- R19: the only events that change the phase, and what they change it to. -/
def Obligations.PhaseMoves : Prop :=
  ∀ s t : State, step s = .next t → t.phase ≠ s.phase →
    (s.host.head? = some .reset ∧ t.phase = .collect) ∨
    (s.coreMoves = true ∧ ∃ i, decode s.pending = .ok i ∧
      ((i = .clear ∧ t.phase = .collect) ∨
        (i = .build ∧ s.phase = .collect ∧ t.phase = .tree ∧ t.lasterr = .none) ∨
        (i = .codes ∧ s.phase = .tree ∧ t.phase = .coded ∧ t.lasterr = .none) ∨
        (i = .pack ∧ s.phase = .coded ∧ t.phase = .packed ∧ t.lasterr = .none) ∨
        (i = .encode ∧ s.phase = .collect ∧ t.phase = .packed ∧ t.lasterr = .none) ∨
        (i = .codes ∧ s.phase = .tree ∧ t.phase = .failed ∧ t.lasterr = .codeTooLong) ∨
        (i = .encode ∧ s.phase = .collect ∧ t.phase = .failed ∧ t.lasterr = .codeTooLong)))

/-- R90, R140, R100: once built, the input, the arena, the code table and the blob change under no step but a reset and a
completed CLEAR. -/
def Obligations.ResultsLiveUntilClear : Prop :=
  ∀ s t : State, step s = .next t → s.host.head? ≠ some .reset →
    ¬ (s.coreMoves = true ∧ decode s.pending = .ok .clear) →
    (s.phase ≠ .collect → t.node = s.node ∧ t.nnodes = s.nnodes ∧ t.root = s.root ∧ t.count = s.count ∧
      t.uniq = s.uniq ∧ t.nuniq = s.nuniq ∧ t.inbuf = s.inbuf ∧ t.inlen = s.inlen) ∧
    (s.phase = .coded ∨ s.phase = .packed ∨ s.phase = .failed → t.clen = s.clen ∧ t.cbits = s.cbits) ∧
    (s.phase = .packed ∨ s.phase = .failed → t.outbuf = s.outbuf ∧ t.bitlen = s.bitlen ∧ t.bloblen = s.bloblen)

/-- R43, R33: what the spec leaves unspecified never matters. From two sound states that differ at most in the entries outside
the valid counts and in PENDING while BUSY = 0, the steps answer states that again differ at most there. -/
def Obligations.UnspecifiedContentsNeverMatter : Prop :=
  ∀ s t : State, s.Inv → t.Inv → s.Agree t →
    ∃ s' t', step s = .next s' ∧ step t = .next t' ∧ s'.Agree t'
end

