-- ==== Sys2Proof/Laws/Memory.lean ====
section
/-! SUPPORT. The laws of arrays: a read after a write, the canonical form and its preservation, and that two arrays in
canonical form that read alike are equal. -/

namespace Sys2Proof.Machine

@[simp] theorem Memory.unlisted_bitVec (w : Nat) : Memory.unlisted (BitVec w) = 0#w := rfl

@[simp] theorem Memory.read_nil {α : Type} [Inhabited α] (i : Nat) : Memory.read ([] : Memory α) i = Memory.unlisted α := rfl

@[simp] theorem Memory.wf_nil {α : Type} [Inhabited α] [DecidableEq α] (size : Nat) : Memory.wf size ([] : Memory α) = true := rfl

theorem Memory.read_cons {α : Type} [Inhabited α] (j : Nat) (x : α) (m : Memory α) (i : Nat) :
    Memory.read ((j, x) :: m) i = if i = j then x else Memory.read m i := rfl

variable {α : Type} [Inhabited α] [DecidableEq α]

theorem Memory.wfFrom_cons {size lo j : Nat} {x : α} {m : Memory α} :
    Memory.wfFrom size lo ((j, x) :: m) = true ↔
      lo ≤ j ∧ j < size ∧ x ≠ Memory.unlisted α ∧ Memory.wfFrom size (j + 1) m = true := by
  simp [Memory.wfFrom, and_assoc]

/-- A canonical array reads as unlisted below its first index. -/
theorem Memory.read_below {size : Nat} {m : Memory α} : ∀ {lo : Nat}, Memory.wfFrom size lo m = true →
    ∀ i < lo, Memory.read m i = Memory.unlisted α := by
  induction m with
  | nil => intro _ _ _ _; rfl
  | cons c m ih =>
    obtain ⟨j, x⟩ := c
    intro lo h i hi
    obtain ⟨hlo, -, -, hm⟩ := Memory.wfFrom_cons.1 h
    rw [Memory.read_cons, if_neg (by omega), ih hm i (by omega)]

/-- A canonical array reads as unlisted at and beyond its size. -/
theorem Memory.read_beyond {size : Nat} {m : Memory α} : ∀ {lo : Nat}, Memory.wfFrom size lo m = true →
    ∀ i, size ≤ i → Memory.read m i = Memory.unlisted α := by
  induction m with
  | nil => intro _ _ _ _; rfl
  | cons c m ih =>
    obtain ⟨j, x⟩ := c
    intro lo h i hi
    obtain ⟨-, hj, -, hm⟩ := Memory.wfFrom_cons.1 h
    rw [Memory.read_cons, if_neg (by omega), ih hm i hi]

theorem Memory.wfFrom_mono {size lo lo' : Nat} (hlo : lo' ≤ lo) {m : Memory α}
    (h : Memory.wfFrom size lo m = true) : Memory.wfFrom size lo' m = true := by
  cases m with
  | nil => rfl
  | cons c m =>
    obtain ⟨j, x⟩ := c
    obtain ⟨h1, h2, h3, h4⟩ := Memory.wfFrom_cons.1 h
    exact Memory.wfFrom_cons.2 ⟨by omega, h2, h3, h4⟩

/-- Reading back what was written, for a canonical array. -/
theorem Memory.read_write_from {size : Nat} {m : Memory α} {i : Nat} {v : α} : ∀ {lo : Nat},
    Memory.wfFrom size lo m = true → ∀ j, Memory.read (Memory.write m i v) j = if j = i then v else Memory.read m j := by
  induction m with
  | nil =>
    intro _ _ j
    by_cases hv : v = Memory.unlisted α
    · simp [Memory.write, hv, Memory.read]
    · simp [Memory.write, hv, Memory.read]
  | cons c m ih =>
    obtain ⟨k, x⟩ := c
    intro lo h j
    have hk := Memory.wfFrom_cons.1 h
    have below : ∀ a ≤ k, Memory.read m a = Memory.unlisted α := fun a ha =>
      Memory.read_below hk.2.2.2 a (by omega)
    rcases lt_trichotomy i k with h1 | h1 | h1
    · rw [Memory.write, if_pos h1]
      by_cases hv : v = Memory.unlisted α
      · rw [if_pos hv]
        by_cases hj : j = i
        · rw [if_pos hj, Memory.read_cons, if_neg (by omega), below j (by omega), hv]
        · rw [if_neg hj]
      · rw [if_neg hv, Memory.read_cons]
    · rw [Memory.write, if_neg (by omega), if_pos h1]
      by_cases hv : v = Memory.unlisted α
      · rw [if_pos hv]
        by_cases hj : j = i
        · rw [if_pos hj, below j (by omega), hv]
        · rw [if_neg hj, Memory.read_cons, if_neg (by omega)]
      · rw [if_neg hv, Memory.read_cons, Memory.read_cons]
        by_cases hj : j = i
        · rw [if_pos hj, if_pos hj]
        · rw [if_neg hj, if_neg hj, if_neg (by omega)]
    · rw [Memory.write, if_neg (by omega), if_neg (by omega), Memory.read_cons, Memory.read_cons, ih hk.2.2.2 j]
      by_cases hj : j = k
      · rw [if_pos hj, if_pos hj, if_neg (by omega)]
      · rw [if_neg hj, if_neg hj]

/-- A write keeps the canonical form. -/
theorem Memory.wfFrom_write {size : Nat} {m : Memory α} {i : Nat} {v : α} (hi : i < size) : ∀ {lo : Nat},
    lo ≤ i → Memory.wfFrom size lo m = true → Memory.wfFrom size lo (Memory.write m i v) = true := by
  induction m with
  | nil =>
    intro lo hlo _
    by_cases hv : v = Memory.unlisted α
    · simp [Memory.write, hv, Memory.wfFrom]
    · simp [Memory.write, hv, Memory.wfFrom, hi, hlo]
  | cons c m ih =>
    obtain ⟨k, x⟩ := c
    intro lo hlo h
    have hk := Memory.wfFrom_cons.1 h
    unfold Memory.write
    split_ifs with h1 h2 h3 h4
    · exact h
    · exact Memory.wfFrom_cons.2 ⟨hlo, hi, h2, Memory.wfFrom_cons.2 ⟨by omega, hk.2.1, hk.2.2.1, hk.2.2.2⟩⟩
    · exact Memory.wfFrom_mono (by omega) hk.2.2.2
    · exact Memory.wfFrom_cons.2 ⟨hlo, hi, h4, by simpa [h3] using hk.2.2.2⟩
    · exact Memory.wfFrom_cons.2 ⟨hk.1, hk.2.1, hk.2.2.1, ih (by omega) hk.2.2.2⟩

/-- A read after a write: the value written at the index written, the old value everywhere else. -/
theorem Memory.read_write {size : Nat} {m : Memory α} (h : Memory.wf size m = true) (i : Nat) (v : α) (j : Nat) :
    Memory.read (Memory.write m i v) j = if j = i then v else Memory.read m j :=
  Memory.read_write_from h j

/-- A write inside the array keeps its canonical form. -/
theorem Memory.wf_write {size : Nat} {m : Memory α} (h : Memory.wf size m = true) {i : Nat} (hi : i < size) (v : α) :
    Memory.wf size (Memory.write m i v) = true :=
  Memory.wfFrom_write hi (Nat.zero_le i) h

/-- Two canonical arrays that read alike are equal data. -/
theorem Memory.ext_read_from {size : Nat} {m m' : Memory α} : ∀ {lo : Nat}, Memory.wfFrom size lo m = true →
    Memory.wfFrom size lo m' = true → (∀ i, Memory.read m i = Memory.read m' i) → m = m' := by
  induction m generalizing m' with
  | nil =>
    intro lo _ h' e
    cases m' with
    | nil => rfl
    | cons c m' =>
      obtain ⟨k, y⟩ := c
      have := e k
      rw [Memory.read_nil, Memory.read_cons, if_pos rfl] at this
      exact absurd this.symm (Memory.wfFrom_cons.1 h').2.2.1
  | cons c m ih =>
    obtain ⟨j, x⟩ := c
    intro lo h h' e
    have hj := Memory.wfFrom_cons.1 h
    cases m' with
    | nil =>
      have := e j
      rw [Memory.read_nil, Memory.read_cons, if_pos rfl] at this
      exact absurd this hj.2.2.1
    | cons c' m' =>
      obtain ⟨k, y⟩ := c'
      have hk := Memory.wfFrom_cons.1 h'
      have hjk : j = k := by
        rcases lt_trichotomy j k with hlt | heq | hgt
        · have := e j
          rw [Memory.read_cons, if_pos rfl, Memory.read_cons, if_neg (by omega),
            Memory.read_below hk.2.2.2 j (by omega)] at this
          exact absurd this hj.2.2.1
        · exact heq
        · have := e k
          rw [Memory.read_cons, if_neg (by omega), Memory.read_below hj.2.2.2 k (by omega), Memory.read_cons,
            if_pos rfl] at this
          exact absurd this.symm hk.2.2.1
      subst hjk
      have hx : x = y := by simpa [Memory.read_cons] using e j
      subst hx
      congr 1
      refine ih hj.2.2.2 hk.2.2.2 fun i => ?_
      by_cases hi : i = j
      · rw [hi, Memory.read_below hj.2.2.2 j (by omega), Memory.read_below hk.2.2.2 j (by omega)]
      · simpa [Memory.read_cons, hi] using e i

/-- Two canonical arrays that read alike are equal data. -/
theorem Memory.ext_read {size : Nat} {m m' : Memory α} (h : Memory.wf size m = true) (h' : Memory.wf size m' = true)
    (e : ∀ i, Memory.read m i = Memory.read m' i) : m = m' :=
  Memory.ext_read_from h h' e

end Sys2Proof.Machine
end

