-- ==== Sys2Proof/Laws/State.lean ====
section
/-! SUPPORT. One lemma per field per named update of the state, true by rfl: `ok`, `fail`, `answer`, `complete`; and what
the derived views of the arrays are after each. -/

namespace Sys2Proof.Machine

/-! ### The constants of 00_scope.md R7 as numerals, for arithmetic -/

@[simp] theorem symMax_eq : symMax = 127 := rfl
@[simp] theorem asize_eq : asize = 128 := rfl
@[simp] theorem maxCodeLen_eq : maxCodeLen = 8 := rfl
@[simp] theorem maxNodes_eq : maxNodes = 255 := rfl
@[simp] theorem hdrMax_eq : hdrMax = 389 := rfl
@[simp] theorem nil_eq : nil = 0xFF#8 := rfl
@[simp] theorem nosym_eq : nosym = 0xFF#8 := rfl

variable (s : State) (code : ErrCode) (info r0 r1 : Word)

/-! ### `ok` -/

@[simp] theorem ok_busy : (ok s).busy = s.busy := rfl
@[simp] theorem ok_ovr : (ok s).ovr = s.ovr := rfl
@[simp] theorem ok_phase : (ok s).phase = s.phase := rfl
@[simp] theorem ok_lasterr : (ok s).lasterr = ErrCode.none := rfl
@[simp] theorem ok_err : (ok s).err = s.err := rfl
@[simp] theorem ok_res0 : (ok s).res0 = s.res0 := rfl
@[simp] theorem ok_res1 : (ok s).res1 = s.res1 := rfl
@[simp] theorem ok_inlen : (ok s).inlen = s.inlen := rfl
@[simp] theorem ok_nuniq : (ok s).nuniq = s.nuniq := rfl
@[simp] theorem ok_nnodes : (ok s).nnodes = s.nnodes := rfl
@[simp] theorem ok_root : (ok s).root = s.root := rfl
@[simp] theorem ok_bitlen : (ok s).bitlen = s.bitlen := rfl
@[simp] theorem ok_bloblen : (ok s).bloblen = s.bloblen := rfl
@[simp] theorem ok_errinfo : (ok s).errinfo = s.errinfo := rfl
@[simp] theorem ok_pending : (ok s).pending = s.pending := rfl
@[simp] theorem ok_count : (ok s).count = s.count := rfl
@[simp] theorem ok_uniq : (ok s).uniq = s.uniq := rfl
@[simp] theorem ok_inbuf : (ok s).inbuf = s.inbuf := rfl
@[simp] theorem ok_node : (ok s).node = s.node := rfl
@[simp] theorem ok_clen : (ok s).clen = s.clen := rfl
@[simp] theorem ok_cbits : (ok s).cbits = s.cbits := rfl
@[simp] theorem ok_outbuf : (ok s).outbuf = s.outbuf := rfl
@[simp] theorem ok_cfg : (ok s).cfg = s.cfg := rfl
@[simp] theorem ok_host : (ok s).host = s.host := rfl
@[simp] theorem ok_rdata : (ok s).rdata = s.rdata := rfl
@[simp] theorem ok_draws : (ok s).draws = s.draws := rfl
@[simp] theorem ok_len : (ok s).len = s.len := rfl
@[simp] theorem ok_n : (ok s).n = s.n := rfl
@[simp] theorem ok_uniqList : (ok s).uniqList = s.uniqList := rfl
@[simp] theorem ok_inputList : (ok s).inputList = s.inputList := rfl
@[simp] theorem ok_countAt (x : Sym) : (ok s).countAt x = s.countAt x := rfl
@[simp] theorem ok_clenAt (x : Sym) : (ok s).clenAt x = s.clenAt x := rfl
@[simp] theorem ok_cbitsAt (x : Sym) : (ok s).cbitsAt x = s.cbitsAt x := rfl
@[simp] theorem ok_uniqAt (i : Nat) : (ok s).uniqAt i = s.uniqAt i := rfl
@[simp] theorem ok_inputAt (i : Nat) : (ok s).inputAt i = s.inputAt i := rfl
@[simp] theorem ok_nodeAt (i : Nat) : (ok s).nodeAt i = s.nodeAt i := rfl
@[simp] theorem ok_blobAt (i : Nat) : (ok s).blobAt i = s.blobAt i := rfl

/-! ### `fail` -/

@[simp] theorem fail_busy : (fail code info s).busy = s.busy := rfl
@[simp] theorem fail_ovr : (fail code info s).ovr = s.ovr := rfl
@[simp] theorem fail_phase : (fail code info s).phase = s.phase := rfl
@[simp] theorem fail_lasterr : (fail code info s).lasterr = code := rfl
@[simp] theorem fail_err : (fail code info s).err = if s.err = .none then code else s.err := rfl
@[simp] theorem fail_res0 : (fail code info s).res0 = s.res0 := rfl
@[simp] theorem fail_res1 : (fail code info s).res1 = s.res1 := rfl
@[simp] theorem fail_inlen : (fail code info s).inlen = s.inlen := rfl
@[simp] theorem fail_nuniq : (fail code info s).nuniq = s.nuniq := rfl
@[simp] theorem fail_nnodes : (fail code info s).nnodes = s.nnodes := rfl
@[simp] theorem fail_root : (fail code info s).root = s.root := rfl
@[simp] theorem fail_bitlen : (fail code info s).bitlen = s.bitlen := rfl
@[simp] theorem fail_bloblen : (fail code info s).bloblen = s.bloblen := rfl
@[simp] theorem fail_errinfo : (fail code info s).errinfo = if s.err = .none then info else s.errinfo := rfl
@[simp] theorem fail_pending : (fail code info s).pending = s.pending := rfl
@[simp] theorem fail_count : (fail code info s).count = s.count := rfl
@[simp] theorem fail_uniq : (fail code info s).uniq = s.uniq := rfl
@[simp] theorem fail_inbuf : (fail code info s).inbuf = s.inbuf := rfl
@[simp] theorem fail_node : (fail code info s).node = s.node := rfl
@[simp] theorem fail_clen : (fail code info s).clen = s.clen := rfl
@[simp] theorem fail_cbits : (fail code info s).cbits = s.cbits := rfl
@[simp] theorem fail_outbuf : (fail code info s).outbuf = s.outbuf := rfl
@[simp] theorem fail_cfg : (fail code info s).cfg = s.cfg := rfl
@[simp] theorem fail_host : (fail code info s).host = s.host := rfl
@[simp] theorem fail_rdata : (fail code info s).rdata = s.rdata := rfl
@[simp] theorem fail_draws : (fail code info s).draws = s.draws := rfl
@[simp] theorem fail_len : (fail code info s).len = s.len := rfl
@[simp] theorem fail_n : (fail code info s).n = s.n := rfl
@[simp] theorem fail_uniqList : (fail code info s).uniqList = s.uniqList := rfl
@[simp] theorem fail_inputList : (fail code info s).inputList = s.inputList := rfl
@[simp] theorem fail_countAt (x : Sym) : (fail code info s).countAt x = s.countAt x := rfl
@[simp] theorem fail_clenAt (x : Sym) : (fail code info s).clenAt x = s.clenAt x := rfl
@[simp] theorem fail_cbitsAt (x : Sym) : (fail code info s).cbitsAt x = s.cbitsAt x := rfl
@[simp] theorem fail_uniqAt (i : Nat) : (fail code info s).uniqAt i = s.uniqAt i := rfl
@[simp] theorem fail_inputAt (i : Nat) : (fail code info s).inputAt i = s.inputAt i := rfl
@[simp] theorem fail_nodeAt (i : Nat) : (fail code info s).nodeAt i = s.nodeAt i := rfl
@[simp] theorem fail_blobAt (i : Nat) : (fail code info s).blobAt i = s.blobAt i := rfl

/-! ### `answer` -/

@[simp] theorem answer_busy : (answer r0 r1 s).busy = s.busy := rfl
@[simp] theorem answer_ovr : (answer r0 r1 s).ovr = s.ovr := rfl
@[simp] theorem answer_phase : (answer r0 r1 s).phase = s.phase := rfl
@[simp] theorem answer_lasterr : (answer r0 r1 s).lasterr = ErrCode.none := rfl
@[simp] theorem answer_err : (answer r0 r1 s).err = s.err := rfl
@[simp] theorem answer_res0 : (answer r0 r1 s).res0 = r0 := rfl
@[simp] theorem answer_res1 : (answer r0 r1 s).res1 = r1 := rfl
@[simp] theorem answer_inlen : (answer r0 r1 s).inlen = s.inlen := rfl
@[simp] theorem answer_nuniq : (answer r0 r1 s).nuniq = s.nuniq := rfl
@[simp] theorem answer_nnodes : (answer r0 r1 s).nnodes = s.nnodes := rfl
@[simp] theorem answer_root : (answer r0 r1 s).root = s.root := rfl
@[simp] theorem answer_bitlen : (answer r0 r1 s).bitlen = s.bitlen := rfl
@[simp] theorem answer_bloblen : (answer r0 r1 s).bloblen = s.bloblen := rfl
@[simp] theorem answer_errinfo : (answer r0 r1 s).errinfo = s.errinfo := rfl
@[simp] theorem answer_pending : (answer r0 r1 s).pending = s.pending := rfl
@[simp] theorem answer_count : (answer r0 r1 s).count = s.count := rfl
@[simp] theorem answer_uniq : (answer r0 r1 s).uniq = s.uniq := rfl
@[simp] theorem answer_inbuf : (answer r0 r1 s).inbuf = s.inbuf := rfl
@[simp] theorem answer_node : (answer r0 r1 s).node = s.node := rfl
@[simp] theorem answer_clen : (answer r0 r1 s).clen = s.clen := rfl
@[simp] theorem answer_cbits : (answer r0 r1 s).cbits = s.cbits := rfl
@[simp] theorem answer_outbuf : (answer r0 r1 s).outbuf = s.outbuf := rfl
@[simp] theorem answer_cfg : (answer r0 r1 s).cfg = s.cfg := rfl
@[simp] theorem answer_host : (answer r0 r1 s).host = s.host := rfl
@[simp] theorem answer_rdata : (answer r0 r1 s).rdata = s.rdata := rfl
@[simp] theorem answer_draws : (answer r0 r1 s).draws = s.draws := rfl
@[simp] theorem answer_len : (answer r0 r1 s).len = s.len := rfl
@[simp] theorem answer_n : (answer r0 r1 s).n = s.n := rfl
@[simp] theorem answer_uniqList : (answer r0 r1 s).uniqList = s.uniqList := rfl
@[simp] theorem answer_inputList : (answer r0 r1 s).inputList = s.inputList := rfl
@[simp] theorem answer_countAt (x : Sym) : (answer r0 r1 s).countAt x = s.countAt x := rfl
@[simp] theorem answer_clenAt (x : Sym) : (answer r0 r1 s).clenAt x = s.clenAt x := rfl
@[simp] theorem answer_cbitsAt (x : Sym) : (answer r0 r1 s).cbitsAt x = s.cbitsAt x := rfl
@[simp] theorem answer_uniqAt (i : Nat) : (answer r0 r1 s).uniqAt i = s.uniqAt i := rfl
@[simp] theorem answer_inputAt (i : Nat) : (answer r0 r1 s).inputAt i = s.inputAt i := rfl
@[simp] theorem answer_nodeAt (i : Nat) : (answer r0 r1 s).nodeAt i = s.nodeAt i := rfl
@[simp] theorem answer_blobAt (i : Nat) : (answer r0 r1 s).blobAt i = s.blobAt i := rfl

/-! ### `complete` -/

@[simp] theorem complete_busy : (complete s).busy = false := rfl
@[simp] theorem complete_ovr : (complete s).ovr = s.ovr := rfl
@[simp] theorem complete_phase : (complete s).phase = s.phase := rfl
@[simp] theorem complete_lasterr : (complete s).lasterr = s.lasterr := rfl
@[simp] theorem complete_err : (complete s).err = s.err := rfl
@[simp] theorem complete_res0 : (complete s).res0 = s.res0 := rfl
@[simp] theorem complete_res1 : (complete s).res1 = s.res1 := rfl
@[simp] theorem complete_inlen : (complete s).inlen = s.inlen := rfl
@[simp] theorem complete_nuniq : (complete s).nuniq = s.nuniq := rfl
@[simp] theorem complete_nnodes : (complete s).nnodes = s.nnodes := rfl
@[simp] theorem complete_root : (complete s).root = s.root := rfl
@[simp] theorem complete_bitlen : (complete s).bitlen = s.bitlen := rfl
@[simp] theorem complete_bloblen : (complete s).bloblen = s.bloblen := rfl
@[simp] theorem complete_errinfo : (complete s).errinfo = s.errinfo := rfl
@[simp] theorem complete_pending : (complete s).pending = s.pending := rfl
@[simp] theorem complete_count : (complete s).count = s.count := rfl
@[simp] theorem complete_uniq : (complete s).uniq = s.uniq := rfl
@[simp] theorem complete_inbuf : (complete s).inbuf = s.inbuf := rfl
@[simp] theorem complete_node : (complete s).node = s.node := rfl
@[simp] theorem complete_clen : (complete s).clen = s.clen := rfl
@[simp] theorem complete_cbits : (complete s).cbits = s.cbits := rfl
@[simp] theorem complete_outbuf : (complete s).outbuf = s.outbuf := rfl
@[simp] theorem complete_cfg : (complete s).cfg = s.cfg := rfl
@[simp] theorem complete_host : (complete s).host = s.host := rfl
@[simp] theorem complete_rdata : (complete s).rdata = s.rdata := rfl
@[simp] theorem complete_draws : (complete s).draws = s.draws := rfl
@[simp] theorem complete_len : (complete s).len = s.len := rfl
@[simp] theorem complete_n : (complete s).n = s.n := rfl
@[simp] theorem complete_uniqList : (complete s).uniqList = s.uniqList := rfl
@[simp] theorem complete_inputList : (complete s).inputList = s.inputList := rfl
@[simp] theorem complete_countAt (x : Sym) : (complete s).countAt x = s.countAt x := rfl
@[simp] theorem complete_clenAt (x : Sym) : (complete s).clenAt x = s.clenAt x := rfl
@[simp] theorem complete_cbitsAt (x : Sym) : (complete s).cbitsAt x = s.cbitsAt x := rfl
@[simp] theorem complete_uniqAt (i : Nat) : (complete s).uniqAt i = s.uniqAt i := rfl
@[simp] theorem complete_inputAt (i : Nat) : (complete s).inputAt i = s.inputAt i := rfl
@[simp] theorem complete_nodeAt (i : Nat) : (complete s).nodeAt i = s.nodeAt i := rfl
@[simp] theorem complete_blobAt (i : Nat) : (complete s).blobAt i = s.blobAt i := rfl

end Sys2Proof.Machine
end

