-- ==== Sys2Proof/Laws/Builder.lean ====
section
/-! SUPPORT. The tree builder's parts: what seeding the leaves and linking two nodes write, that an extraction takes a member
of the eligible set, and how many turns the merge loop makes. -/

namespace Sys2Proof.Machine

/-- The leaf of R84, step 1, for the unique symbol `i`. -/
def leafNode (count : Memory Word) (uniq : Memory Sym) (i : Nat) : Node :=
  { w := Memory.read count (Memory.read uniq i).toNat, sym := (Memory.read uniq i).setWidth 8
    par := nil, lft := nil, rgt := nil }

theorem seedLeaves_wf {size : Nat} (count : Memory Word) (uniq : Memory Sym) : ∀ (is : List Nat) (node : Memory Node),
    (∀ i ∈ is, i < size) → Memory.wf size node = true → Memory.wf size (seedLeaves count uniq is node) = true
  | [], _, _, h => h
  | i :: is, _, hi, h =>
    seedLeaves_wf count uniq is _ (fun j hj => hi j (List.mem_cons_of_mem _ hj))
      (Memory.wf_write h (hi i List.mem_cons_self) _)

theorem seedLeaves_read_mem {size : Nat} (count : Memory Word) (uniq : Memory Sym) : ∀ (is : List Nat) (node : Memory Node),
    (∀ i ∈ is, i < size) → Memory.wf size node = true → ∀ j,
    Memory.read (seedLeaves count uniq is node) j = if j ∈ is then leafNode count uniq j else Memory.read node j
  | [], node, _, _, j => by simp [seedLeaves]
  | i :: is, node, hi, h, j => by
    rw [seedLeaves, seedLeaves_read_mem count uniq is _ (fun k hk => hi k (List.mem_cons_of_mem _ hk))
      (Memory.wf_write h (hi i List.mem_cons_self) _), Memory.read_write h]
    by_cases hj : j ∈ is
    · simp [hj]
    · by_cases he : j = i
      · subst he; simp [hj, leafNode]
      · simp [hj, he]

/-- Seeding writes the leaves 0 to n-1 and no other entry. -/
theorem seedLeaves_read {n size : Nat} (hn : n ≤ size) (count : Memory Word) (uniq : Memory Sym) (node : Memory Node)
    (h : Memory.wf size node = true) (j : Nat) :
    Memory.read (seedLeaves count uniq (List.range n) node) j =
      if j < n then leafNode count uniq j else Memory.read node j := by
  rw [seedLeaves_read_mem count uniq (List.range n) node (fun i hi => by have := List.mem_range.1 hi; omega) h]
  simp only [List.mem_range]

theorem linkNodes_wf {size : Nat} {node : Memory Node} (h : Memory.wf size node = true) {a b k : Nat} (ha : a < size)
    (hb : b < size) (hk : k < size) : Memory.wf size (linkNodes node a b k) = true :=
  Memory.wf_write (Memory.wf_write (Memory.wf_write h hk _) ha _) hb _

/-- A merge writes the new node `k` and the parent links of `a` and `b`, and nothing else. -/
theorem linkNodes_read {size : Nat} {node : Memory Node} (h : Memory.wf size node = true) {a b k : Nat} (ha : a < size)
    (hk : k < size) (hak : a ≠ k) (hbk : b ≠ k) (hab : a ≠ b) (j : Nat) :
    Memory.read (linkNodes node a b k) j =
      if j = k then
        { w := (Memory.read node a).w + (Memory.read node b).w
          sym := nosym, par := nil, lft := BitVec.ofNat 8 a, rgt := BitVec.ofNat 8 b }
      else if j = a ∨ j = b then { Memory.read node j with par := BitVec.ofNat 8 k }
      else Memory.read node j := by
  have h1 := Memory.wf_write h hk
    ({ w := (Memory.read node a).w + (Memory.read node b).w
       sym := nosym, par := nil, lft := BitVec.ofNat 8 a, rgt := BitVec.ofNat 8 b } : Node)
  simp only [linkNodes, setParent, Memory.read_write (Memory.wf_write h1 ha _), Memory.read_write h1, Memory.read_write h]
  by_cases h2 : j = b
  · subst h2
    simp [hbk, hab.symm]
  · by_cases h3 : j = a
    · subst h3
      simp [hak, hab]
    · simp [h2, h3]

theorem minWeight_le (node : Memory Node) : ∀ (E : List Nat), ∀ j ∈ E, minWeight node E ≤ weightAt node j
  | [], _, h => by cases h
  | [i], j, h => by simp at h; simp [minWeight, h]
  | i :: k :: E, j, h => by
    rw [minWeight]
    · rcases List.mem_cons.1 h with rfl | h
      · exact min_le_left _ _
      · exact le_trans (min_le_right _ _) (minWeight_le node (k :: E) j h)
    · simp

theorem minWeight_attained (node : Memory Node) : ∀ {E : List Nat}, E ≠ [] → ∃ j ∈ E, weightAt node j = minWeight node E
  | [], h => absurd rfl h
  | [i], _ => ⟨i, by simp, rfl⟩
  | i :: k :: E, _ => by
    obtain ⟨j, hj, e⟩ := minWeight_attained node (E := k :: E) (by simp)
    have hm : minWeight node (i :: k :: E) = min (weightAt node i) (minWeight node (k :: E)) := by
      rw [minWeight]; simp
    rw [hm]
    rcases le_total (weightAt node i) (minWeight node (k :: E)) with h | h
    · exact ⟨i, by simp, by rw [min_eq_left h]⟩
    · exact ⟨j, List.mem_cons_of_mem _ hj, by rw [min_eq_right h, e]⟩

/-- An extraction takes one of the lightest members of the eligible set. -/
theorem argmin_mem_lightest (tb : TieBreak) (node : Memory Node) (c : Nat) {E : List Nat} (h : E ≠ []) :
    argmin tb node c E ∈ lightest node E := by
  obtain ⟨j, hj, e⟩ := minWeight_attained node h
  have hmem : j ∈ lightest node E := by simp [lightest, hj, e]
  have hpos : 0 < (lightest node E).length := List.length_pos_of_mem hmem
  cases tb with
  | fifo =>
    simp only [argmin]
    cases hl : lightest node E with
    | nil => rw [hl] at hmem; cases hmem
    | cons a l => simp
  | any =>
    simp only [argmin]
    rw [List.getD_eq_getElem _ _ (Nat.mod_lt _ hpos)]
    exact List.getElem_mem _

theorem argmin_mem (tb : TieBreak) (node : Memory Node) (c : Nat) {E : List Nat} (h : E ≠ []) :
    argmin tb node c E ∈ E :=
  List.mem_of_mem_filter (argmin_mem_lightest tb node c h)

/-- One turn of the loop: two different eligible nodes are extracted, linked under the next free index, and that index
becomes eligible. -/
theorem mergeOnce_spec (tb : TieBreak) (choice : Nat → Nat) (f : Forest) (hd : f.eligible.Nodup)
    (hl : 2 ≤ f.eligible.length) :
    ∃ a b, a ∈ f.eligible ∧ b ∈ f.eligible ∧ a ≠ b ∧
      a = argmin tb f.node (choice f.draw) f.eligible ∧
      b = argmin tb f.node (choice (f.draw + 1)) (f.eligible.erase a) ∧
      mergeOnce tb choice f =
        { node := linkNodes f.node a b f.next, eligible := (f.eligible.erase a).erase b ++ [f.next]
          next := f.next + 1, draw := f.draw + 2 } := by
  have hne : f.eligible ≠ [] := by intro h; simp [h] at hl
  have ha := argmin_mem tb f.node (choice f.draw) hne
  have hne' : f.eligible.erase (argmin tb f.node (choice f.draw) f.eligible) ≠ [] := by
    intro h
    have := List.length_erase_of_mem ha
    rw [h] at this
    simp at this
    omega
  have hb := argmin_mem tb f.node (choice (f.draw + 1)) hne'
  refine ⟨_, _, ha, List.mem_of_mem_erase hb, ?_, rfl, rfl, rfl⟩
  intro e
  rw [← e] at hb
  exact (hd.not_mem_erase) hb

theorem mergeOnce_length (tb : TieBreak) (choice : Nat → Nat) (f : Forest) (hd : f.eligible.Nodup)
    (hl : 2 ≤ f.eligible.length) : (mergeOnce tb choice f).eligible.length + 1 = f.eligible.length := by
  obtain ⟨a, b, ha, hb, hab, -, -, e⟩ := mergeOnce_spec tb choice f hd hl
  have hb' : b ∈ f.eligible.erase a := (List.mem_erase_of_ne hab.symm).2 hb
  rw [e]
  simp only [List.length_append, List.length_singleton, List.length_erase_of_mem hb', List.length_erase_of_mem ha]
  omega

theorem mergeOnce_nodup (tb : TieBreak) (choice : Nat → Nat) (f : Forest) (hd : f.eligible.Nodup)
    (hlt : ∀ j ∈ f.eligible, j < f.next) (hl : 2 ≤ f.eligible.length) :
    (mergeOnce tb choice f).eligible.Nodup ∧
      ∀ j ∈ (mergeOnce tb choice f).eligible, j < (mergeOnce tb choice f).next := by
  obtain ⟨a, b, -, -, -, -, -, e⟩ := mergeOnce_spec tb choice f hd hl
  have hsub : ∀ j ∈ (f.eligible.erase a).erase b, j < f.next := fun j hj =>
    hlt j (List.mem_of_mem_erase (List.mem_of_mem_erase hj))
  rw [e]
  constructor
  · refine List.Nodup.append ((hd.erase a).erase b) (by simp) ?_
    intro j hj hj'
    have := hsub j hj
    simp at hj'
    omega
  · intro j hj
    rcases List.mem_append.1 hj with h | h
    · have := hsub j h
      simp only
      omega
    · simp at h
      simp only
      omega

/-- The loop ends with one eligible node, after |E| - 1 turns of two extractions each. -/
theorem mergeAll_shape (tb : TieBreak) (choice : Nat → Nat) : ∀ (fuel : Nat) (f : Forest), f.eligible.Nodup →
    (∀ j ∈ f.eligible, j < f.next) → 1 ≤ f.eligible.length → f.eligible.length ≤ fuel + 1 →
    (mergeAll tb choice fuel f).eligible.length = 1 ∧
      (mergeAll tb choice fuel f).next = f.next + (f.eligible.length - 1) ∧
      (mergeAll tb choice fuel f).draw = f.draw + 2 * (f.eligible.length - 1)
  | 0, f, _, _, h1, h2 => by
    rw [mergeAll]
    omega
  | fuel + 1, f, hd, hlt, h1, h2 => by
    rw [mergeAll]
    split_ifs with h
    · omega
    · have hl : 2 ≤ f.eligible.length := by omega
      have hlen := mergeOnce_length tb choice f hd hl
      have hn := mergeOnce_nodup tb choice f hd hlt hl
      obtain ⟨e1, e2, e3⟩ := mergeAll_shape tb choice fuel (mergeOnce tb choice f) hn.1 hn.2 (by omega) (by omega)
      have en : (mergeOnce tb choice f).next = f.next + 1 := rfl
      have ed : (mergeOnce tb choice f).draw = f.draw + 2 := rfl
      refine ⟨e1, ?_, ?_⟩ <;> omega

end Sys2Proof.Machine
end

