-- ==== Sys2Proof/Laws/Codes.lean ====
section
/-! SUPPORT. The code-length calculator's parts: what an ancestor walk answers, and what the loop over the leaves writes. -/

namespace Sys2Proof.Machine

theorem climb_succ (node : Memory Node) (i d : Nat) :
    climb node i (d + 1) = climb node (Memory.read node i).par.toNat d := rfl

/-- The bit a walk collects at the node `j`: 0 if `j` is its parent's left child, else 1. -/
def walkBit (node : Memory Node) (j : Nat) : Bool :=
  (Memory.read node (Memory.read node j).par.toNat).lft.toNat ≠ j

/-- A walk that answers has climbed k < fuel links, the k-th node being the first without a parent. -/
theorem walk_eq_some {node : Memory Node} : ∀ {fuel j d : Nat} {v v' : Byte} {d' : Nat},
    walk node fuel j d v = some (d', v') →
    ∃ k < fuel, d' = d + k ∧ (Memory.read node (climb node j k)).par = nil ∧
      ∀ e < k, (Memory.read node (climb node j e)).par ≠ nil
  | 0, _, _, _, _, _, h => by cases h
  | fuel + 1, j, d, v, v', d', h => by
    rw [walk] at h
    by_cases hp : (Memory.read node j).par = nil
    · simp only [hp, if_true, Option.some.injEq, Prod.mk.injEq] at h
      exact ⟨0, by omega, h.1.symm, hp, by simp⟩
    · simp only [hp, if_false] at h
      obtain ⟨k, hk, e1, e2, e3⟩ := walk_eq_some h
      refine ⟨k + 1, by omega, by omega, e2, ?_⟩
      intro e he
      cases e with
      | zero => exact hp
      | succ e => exact e3 e (by omega)

/-- A walk answers if a node without a parent is met within its fuel. -/
theorem walk_of_climb {node : Memory Node} : ∀ {fuel j : Nat} (d : Nat) (v : Byte) {k : Nat}, k < fuel →
    (Memory.read node (climb node j k)).par = nil → (∀ e < k, (Memory.read node (climb node j e)).par ≠ nil) →
    ∃ v', walk node fuel j d v = some (d + k, v')
  | fuel + 1, j, d, v, 0, _, h, _ => ⟨v, by rw [walk]; simp only [climb] at h; simp [h]⟩
  | fuel + 1, j, d, v, k + 1, hk, h, hne => by
    have h0 : (Memory.read node j).par ≠ nil := hne 0 (by omega)
    have hs := fun u => walk_of_climb (node := node) (fuel := fuel) (j := (Memory.read node j).par.toNat) (d + 1) u
      (k := k) (by omega) h (fun e he => hne (e + 1) (by omega))
    rw [walk]
    simp only [h0, if_false]
    rw [show d + (k + 1) = d + 1 + k by omega]
    exact hs _

/-- The bits of a walk: below `d` they are the old ones, the bit of the link e is at d + e, and no bit stands above. -/
theorem walk_bits {node : Memory Node} : ∀ {fuel j d : Nat} {v v' : Byte} {d' : Nat},
    walk node fuel j d v = some (d', v') → (∀ b, d ≤ b → v.getLsbD b = false) →
    ∀ b < 8, v'.getLsbD b =
      if b < d then v.getLsbD b else if b < d' then walkBit node (climb node j (b - d)) else false
  | 0, _, _, _, _, _, h, _, _, _ => by cases h
  | fuel + 1, j, d, v, v', d', h, hv, b, hb => by
    rw [walk] at h
    by_cases hp : (Memory.read node j).par = nil
    · simp only [hp, if_true, Option.some.injEq, Prod.mk.injEq] at h
      obtain ⟨rfl, rfl⟩ := h
      by_cases hbd : b < d
      · simp [hbd]
      · simp [hbd, hv b (by omega)]
    · simp only [hp, if_false] at h
      obtain ⟨k, -, hd', -, -⟩ := walk_eq_some h
      rw [walk_bits h ?_ b hb]
      · by_cases hd : d < 8
        · simp only [hd, if_true]
          by_cases h1 : b < d
          · have : b < d + 1 := by omega
            simp only [this, h1, if_true, BitVec.getLsbD_or, BitVec.getLsbD_shiftLeft]
            simp
          · by_cases h2 : b = d
            · subst h2
              have h3 : b < d' := by omega
              simp only [Nat.lt_succ_self, if_true, lt_irrefl, if_false, h3, Nat.sub_self, BitVec.getLsbD_or,
                BitVec.getLsbD_shiftLeft, hv b le_rfl, hb, climb, walkBit]
              split_ifs with h4 <;> simp [h4]
            · have h4 : ¬ b < d + 1 := by omega
              simp only [h4, h1, if_false]
              have e : b - d = (b - (d + 1)) + 1 := by omega
              rw [e, climb_succ]
        · have h1 : b < d := by omega
          have h2 : b < d + 1 := by omega
          simp [hd, h1, h2]
      · intro c hc
        split_ifs with hd h4
        · simp [hv c (by omega)]
        · rw [BitVec.getLsbD_or, BitVec.getLsbD_shiftLeft, hv c (by omega)]
          have : c - d ≠ 0 := by omega
          simp [BitVec.getLsbD_one, this]
        · exact hv c (by omega)

/-- The loop over the leaves stops only on a walk without end. -/
theorem deriveCodes_isSome {node : Memory Node} {uniq : Memory Sym} : ∀ {is : List Nat} (clen cbits : Memory Byte),
    (∀ i ∈ is, (walk node maxNodes i 0 0).isSome = true) → (deriveCodes node uniq is clen cbits).isSome = true
  | [], _, _, _ => rfl
  | i :: is, _, _, h => by
    obtain ⟨⟨d, v⟩, e⟩ := Option.isSome_iff_exists.1 (h i List.mem_cons_self)
    rw [deriveCodes, e]
    exact deriveCodes_isSome _ _ fun j hj => h j (List.mem_cons_of_mem _ hj)

theorem deriveCodes_wf {node : Memory Node} {uniq : Memory Sym} : ∀ {is : List Nat} {clen cbits cl cb : Memory Byte},
    deriveCodes node uniq is clen cbits = some (cl, cb) → Memory.wf asize clen = true → Memory.wf asize cbits = true →
    Memory.wf asize cl = true ∧ Memory.wf asize cb = true
  | [], _, _, _, _, h, h1, h2 => by
    simp only [deriveCodes, Option.some.injEq, Prod.mk.injEq] at h
    exact ⟨h.1 ▸ h1, h.2 ▸ h2⟩
  | i :: is, _, _, _, _, h, h1, h2 => by
    rw [deriveCodes] at h
    cases hw : walk node maxNodes i 0 0 with
    | none => simp only [hw] at h; cases h
    | some p =>
      simp only [hw] at h
      exact deriveCodes_wf h (Memory.wf_write h1 (Memory.read uniq i).isLt _) (Memory.wf_write h2 (Memory.read uniq i).isLt _)

/-- The loop writes the entries of its leaves' symbols and no other. -/
theorem deriveCodes_other {node : Memory Node} {uniq : Memory Sym} : ∀ {is : List Nat} {clen cbits cl cb : Memory Byte},
    deriveCodes node uniq is clen cbits = some (cl, cb) → Memory.wf asize clen = true → Memory.wf asize cbits = true →
    ∀ k, (∀ i ∈ is, (Memory.read uniq i).toNat ≠ k) → Memory.read cl k = Memory.read clen k ∧ Memory.read cb k = Memory.read cbits k
  | [], _, _, _, _, h, _, _, _, _ => by
    simp only [deriveCodes, Option.some.injEq, Prod.mk.injEq] at h
    exact ⟨by rw [h.1], by rw [h.2]⟩
  | i :: is, _, _, _, _, h, h1, h2, k, hk => by
    rw [deriveCodes] at h
    cases hw : walk node maxNodes i 0 0 with
    | none => simp only [hw] at h; cases h
    | some p =>
      simp only [hw] at h
      have hi : k ≠ (Memory.read uniq i).toNat := fun e => hk i List.mem_cons_self e.symm
      have := deriveCodes_other h (Memory.wf_write h1 (Memory.read uniq i).isLt _)
        (Memory.wf_write h2 (Memory.read uniq i).isLt _) k (fun j hj => hk j (List.mem_cons_of_mem _ hj))
      rw [Memory.read_write h1, Memory.read_write h2, if_neg hi, if_neg hi] at this
      exact this

/-- The entry of a leaf whose symbol is no other leaf's: its walk's depth, and its bits if the code is no longer than 8. -/
theorem deriveCodes_leaf {node : Memory Node} {uniq : Memory Sym} : ∀ {is : List Nat} {clen cbits cl cb : Memory Byte},
    deriveCodes node uniq is clen cbits = some (cl, cb) → Memory.wf asize clen = true → Memory.wf asize cbits = true →
    is.Nodup → (∀ i ∈ is, ∀ j ∈ is, Memory.read uniq i = Memory.read uniq j → i = j) → ∀ i ∈ is,
    ∃ d v, walk node maxNodes i 0 0 = some (d, v) ∧
      Memory.read cl (Memory.read uniq i).toNat = BitVec.ofNat 8 d ∧
      Memory.read cb (Memory.read uniq i).toNat = if d ≤ maxCodeLen then v else 0
  | [], _, _, _, _, _, _, _, _, _, i, hi => by cases hi
  | i :: is, _, _, _, _, h, h1, h2, hd, hinj, j, hj => by
    rw [deriveCodes] at h
    cases hw : walk node maxNodes i 0 0 with
    | none => simp only [hw] at h; cases h
    | some p =>
      obtain ⟨d, v⟩ := p
      simp only [hw] at h
      have w1 := Memory.wf_write h1 (Memory.read uniq i).isLt (BitVec.ofNat 8 d)
      have w2 := Memory.wf_write h2 (Memory.read uniq i).isLt (if d ≤ maxCodeLen then v else 0)
      rcases List.mem_cons.1 hj with rfl | hj
      · refine ⟨d, v, hw, ?_⟩
        have := deriveCodes_other h w1 w2 (Memory.read uniq j).toNat (fun k hk e => by
          have := hinj k (List.mem_cons_of_mem _ hk) j List.mem_cons_self (BitVec.eq_of_toNat_eq e)
          subst this
          exact (List.nodup_cons.1 hd).1 hk)
        rw [Memory.read_write h1, Memory.read_write h2, if_pos rfl, if_pos rfl] at this
        exact this
      · exact deriveCodes_leaf h w1 w2 (List.nodup_cons.1 hd).2
          (fun a ha b hb => hinj a (List.mem_cons_of_mem _ ha) b (List.mem_cons_of_mem _ hb)) j hj

end Sys2Proof.Machine
end

