-- ==== Sys2Proof/Laws/Exec.lean ====
section
/-! SUPPORT. What each shared operation and each meaning can do, said once: if it answers next t, then one of these cases
holds. Later proofs cite these and do not unfold the meanings. -/

namespace Sys2Proof.Machine

/-! ### `andThen`, `whenAccepted`, operands -/

@[simp] theorem andThen_next (s : State) (f : State → Result) : andThen (.next s) f = f s := rfl
@[simp] theorem andThen_fault (r : Fault) (f : State → Result) : andThen (.fault r) f = .fault r := rfl
@[simp] theorem andThen_refused (r : Refusal) (f : State → Result) : andThen (.refused r) f = .refused r := rfl

theorem andThen_eq_next {r : Result} {f : State → Result} {t : State} :
    andThen r f = .next t ↔ ∃ s, r = .next s ∧ f s = .next t := by
  cases r <;> simp

theorem whenAccepted_of_accepts {i : Instr} {s : State} {body : Result} (h : accepts i s.phase = true) :
    whenAccepted i s body = body := by
  simp [whenAccepted, h]

theorem whenAccepted_of_refuses {i : Instr} {s : State} {body : Result} (h : accepts i s.phase = false) :
    whenAccepted i s body = .next (fail .sequence (encode i) s) := by
  simp [whenAccepted, h]

theorem whenAccepted_eq_next {i : Instr} {s t : State} {body : Result} (h : whenAccepted i s body = .next t) :
    (accepts i s.phase = true ∧ body = .next t) ∨
      (accepts i s.phase = false ∧ t = fail .sequence (encode i) s) := by
  unfold whenAccepted at h
  split at h
  · exact .inl ⟨‹_›, h⟩
  · exact .inr ⟨eq_false_of_ne_true ‹_›, by simpa using h.symm⟩

theorem symOperand_inside {arg : Arg} (h : arg.toNat ≤ symMax) : symOperand arg = some (arg.setWidth 7) := by
  simp [symOperand, h]

theorem symOperand_outside {arg : Arg} (h : symMax < arg.toNat) : symOperand arg = none := by
  simp [symOperand]; exact h

theorem symOperand_toNat {arg : Arg} {x : Sym} (h : symOperand arg = some x) : x.toNat = arg.toNat := by
  unfold symOperand at h
  split at h
  · have hx : arg.setWidth 7 = x := by simpa using h
    have : arg.toNat < 2 ^ 7 := by have : arg.toNat ≤ 127 := ‹_›; omega
    rw [← hx, BitVec.toNat_setWidth, Nat.mod_eq_of_lt this]
  · simp at h

theorem idxOperand_inside {arg : Arg} {valid : Nat} (h : arg.toNat < valid) : idxOperand arg valid = some arg.toNat := by
  simp [idxOperand, h]

theorem idxOperand_outside {arg : Arg} {valid : Nat} (h : valid ≤ arg.toNat) : idxOperand arg valid = none := by
  simp [idxOperand, h]

theorem idxOperand_eq_some {arg : Arg} {valid i : Nat} (h : idxOperand arg valid = some i) :
    i = arg.toNat ∧ i < valid := by
  unfold idxOperand at h
  split at h
  · have : arg.toNat = i := by simpa using h
    omega
  · simp at h

/-! ### The bodies -/

theorem buildBody_eq_next {s t : State} (h : buildBody s = .next t) :
    s.n ≤ asize ∧ leafWeight s < 2 ^ 32 ∧ t = buildState Config.tieChoice s := by
  unfold buildBody at h
  split_ifs at h with h1 h2
  · exact ⟨not_lt.1 h1, not_le.1 h2, by simpa using h.symm⟩

theorem buildBody_of {s : State} (h1 : s.n ≤ asize) (h2 : leafWeight s < 2 ^ 32) :
    buildBody s = .next (buildState Config.tieChoice s) := by
  rw [buildBody, if_neg (by omega), if_neg (by omega)]

theorem codesBody_eq_next {s t : State} (h : codesBody s = .next t) :
    s.n ≤ asize ∧ ∃ clen cbits, codeTable s = some (clen, cbits) ∧
      t = checkLengths { s with clen := clen, cbits := cbits } := by
  unfold codesBody at h
  split_ifs at h with h1
  split at h
  · simp at h
  · exact ⟨not_lt.1 h1, _, _, ‹_›, by simpa using h.symm⟩

theorem codesBody_of {s : State} (h1 : s.n ≤ asize) {clen cbits : Memory Byte}
    (h2 : codeTable s = some (clen, cbits)) :
    codesBody s = .next (checkLengths { s with clen := clen, cbits := cbits }) := by
  rw [codesBody, if_neg (by omega), h2]

theorem checkLengths_cases (s : State) :
    (firstTooLong s = none ∧ checkLengths s = ok { s with phase := .coded }) ∨
    (∃ x, firstTooLong s = some x ∧
      checkLengths s = fail .codeTooLong (0#16 ++ s.clenAt x ++ x.setWidth 8) { s with phase := .failed }) := by
  unfold checkLengths
  split
  · exact .inr ⟨_, ‹_›, rfl⟩
  · exact .inl ⟨‹_›, rfl⟩

theorem packBody_eq_next {s t : State} (h : packBody s = .next t) :
    packInside s = true ∧ totalBits s < 2 ^ 32 ∧ t = ok (packState s) := by
  unfold packBody at h
  split_ifs at h with h1 h2
  · exact ⟨by simpa using h1, not_le.1 h2, by simpa using h.symm⟩

theorem packBody_of {s : State} (h1 : packInside s = true) (h2 : totalBits s < 2 ^ 32) :
    packBody s = .next (ok (packState s)) := by
  rw [packBody, if_neg (by simp [h1]), if_neg (by omega)]

theorem encodeBody_eq_next {s t : State} (h : encodeBody s = .next t) :
    ∃ u v, buildBody s = .next u ∧ codesBody u = .next v ∧
      ((v.phase = .failed ∧ t = v) ∨ (v.phase ≠ .failed ∧ packBody v = .next t)) := by
  obtain ⟨u, hu, h⟩ := andThen_eq_next.1 h
  obtain ⟨v, hv, h⟩ := andThen_eq_next.1 h
  refine ⟨u, v, hu, hv, ?_⟩
  split at h
  · exact .inl ⟨‹_›, by simpa using h.symm⟩
  all_goals exact .inr ⟨by simp_all, h⟩

/-! ### The meanings: what a next state of each is -/

theorem execNop_eq_next {s t : State} (h : execNop s = .next t) : t = ok s := by
  rcases whenAccepted_eq_next h with ⟨-, h⟩ | ⟨h, -⟩
  · simpa using h.symm
  · simp [accepts] at h

theorem execClear_eq_next {s t : State} (h : execClear s = .next t) : t = ok (clearState s) := by
  rcases whenAccepted_eq_next h with ⟨-, h⟩ | ⟨h, -⟩
  · simpa using h.symm
  · simp [accepts] at h

theorem execPush_eq_next {arg : Arg} {s t : State} (h : execPush arg s = .next t) :
    (s.phase ≠ .collect ∧ t = fail .sequence (encode (.push arg)) s) ∨
    (s.phase = .collect ∧ symOperand arg = none ∧ t = ok s) ∨
    (s.phase = .collect ∧ (∃ x, symOperand arg = some x) ∧ s.len = s.cfg.cap ∧
      t = fail .full (encode (.push arg)) s) ∨
    (s.phase = .collect ∧ ∃ x, symOperand arg = some x ∧ s.len ≠ s.cfg.cap ∧ pushInside x s = true ∧
      (s.countAt x).toNat + 1 < 2 ^ 32 ∧ t = ok (pushState x s)) := by
  rcases whenAccepted_eq_next h with ⟨ha, h⟩ | ⟨ha, h⟩
  · have hp : s.phase = .collect := by simpa [accepts] using ha
    split at h
    · exact .inr (.inl ⟨hp, ‹_›, by simpa using h.symm⟩)
    · rename_i x hx
      split_ifs at h with h1 h2 h3
      · exact .inr (.inr (.inl ⟨hp, ⟨x, hx⟩, h1, by simpa using h.symm⟩))
      · exact .inr (.inr (.inr ⟨hp, x, hx, h1, by simpa using h2, by omega, by simpa using h.symm⟩))
  · exact .inl ⟨by simpa [accepts] using ha, h⟩

theorem execBuild_eq_next {s t : State} (h : execBuild s = .next t) :
    (s.phase ≠ .collect ∧ t = fail .sequence (encode .build) s) ∨
    (s.phase = .collect ∧ s.n ≤ asize ∧ leafWeight s < 2 ^ 32 ∧ t = ok (buildState Config.tieChoice s)) := by
  rcases whenAccepted_eq_next h with ⟨ha, h⟩ | ⟨ha, h⟩
  · obtain ⟨u, hu, h⟩ := andThen_eq_next.1 h
    obtain ⟨h1, h2, rfl⟩ := buildBody_eq_next hu
    exact .inr ⟨by simpa [accepts] using ha, h1, h2, by simpa using h.symm⟩
  · exact .inl ⟨by simpa [accepts] using ha, h⟩

theorem execCodes_eq_next {s t : State} (h : execCodes s = .next t) :
    (s.phase ≠ .tree ∧ t = fail .sequence (encode .codes) s) ∨
    (s.phase = .tree ∧ s.n ≤ asize ∧ ∃ clen cbits, codeTable s = some (clen, cbits) ∧
      t = checkLengths { s with clen := clen, cbits := cbits }) := by
  rcases whenAccepted_eq_next h with ⟨ha, h⟩ | ⟨ha, h⟩
  · exact .inr ⟨by simpa [accepts] using ha, codesBody_eq_next h⟩
  · exact .inl ⟨by simpa [accepts] using ha, h⟩

theorem execPack_eq_next {s t : State} (h : execPack s = .next t) :
    (s.phase ≠ .coded ∧ t = fail .sequence (encode .pack) s) ∨
    (s.phase = .coded ∧ packInside s = true ∧ totalBits s < 2 ^ 32 ∧ t = ok (packState s)) := by
  rcases whenAccepted_eq_next h with ⟨ha, h⟩ | ⟨ha, h⟩
  · exact .inr ⟨by simpa [accepts] using ha, packBody_eq_next h⟩
  · exact .inl ⟨by simpa [accepts] using ha, h⟩

theorem execEncode_eq_next {s t : State} (h : execEncode s = .next t) :
    (s.phase ≠ .collect ∧ t = fail .sequence (encode .encode) s) ∨
    (s.phase = .collect ∧ encodeBody s = .next t) := by
  rcases whenAccepted_eq_next h with ⟨ha, h⟩ | ⟨ha, h⟩
  · exact .inr ⟨by simpa [accepts] using ha, h⟩
  · exact .inl ⟨by simpa [accepts] using ha, h⟩

theorem execRdCount_eq_next {arg : Arg} {s t : State} (h : execRdCount arg s = .next t) :
    (symOperand arg = none ∧ t = fail .range (encode (.rdCount arg)) s) ∨
    (∃ x, symOperand arg = some x ∧ t = answer (s.countAt x) 0 s) := by
  rcases whenAccepted_eq_next h with ⟨-, h⟩ | ⟨h, -⟩
  · split at h
    · exact .inl ⟨‹_›, by simpa using h.symm⟩
    · exact .inr ⟨_, ‹_›, by simpa using h.symm⟩
  · simp [accepts] at h

theorem execRdUniq_eq_next {arg : Arg} {s t : State} (h : execRdUniq arg s = .next t) :
    (idxOperand arg s.n = none ∧ t = fail .range (encode (.rdUniq arg)) s) ∨
    (∃ i, idxOperand arg s.n = some i ∧ i < asize ∧ t = answer ((s.uniqAt i).setWidth 32) 0 s) := by
  rcases whenAccepted_eq_next h with ⟨-, h⟩ | ⟨h, -⟩
  · split at h
    · exact .inl ⟨‹_›, by simpa using h.symm⟩
    · split_ifs at h with h1
      exact .inr ⟨_, ‹_›, not_le.1 h1, by simpa using h.symm⟩
  · simp [accepts] at h

theorem execRdInput_eq_next {arg : Arg} {s t : State} (h : execRdInput arg s = .next t) :
    (idxOperand arg s.len = none ∧ t = fail .range (encode (.rdInput arg)) s) ∨
    (∃ i, idxOperand arg s.len = some i ∧ i < s.cfg.cap ∧ t = answer ((s.inputAt i).setWidth 32) 0 s) := by
  rcases whenAccepted_eq_next h with ⟨-, h⟩ | ⟨h, -⟩
  · split at h
    · exact .inl ⟨‹_›, by simpa using h.symm⟩
    · split_ifs at h with h1
      exact .inr ⟨_, ‹_›, not_le.1 h1, by simpa using h.symm⟩
  · simp [accepts] at h

theorem execRdNode_eq_next {arg : Arg} {s t : State} (h : execRdNode arg s = .next t) :
    (s.phase = .collect ∧ t = fail .sequence (encode (.rdNode arg)) s) ∨
    (idxOperand arg s.nnodes.toNat = none ∧ t = fail .range (encode (.rdNode arg)) s) ∨
    (∃ i, idxOperand arg s.nnodes.toNat = some i ∧ t = answer (s.nodeAt i).w (nodeLinks (s.nodeAt i)) s) := by
  rcases whenAccepted_eq_next h with ⟨-, h⟩ | ⟨ha, h⟩
  · split at h
    · exact .inr (.inl ⟨‹_›, by simpa using h.symm⟩)
    · exact .inr (.inr ⟨_, ‹_›, by simpa using h.symm⟩)
  · refine .inl ⟨?_, h⟩
    cases hp : s.phase <;> simp [accepts, hp] at ha ⊢

theorem execRdCode_eq_next {arg : Arg} {s t : State} (h : execRdCode arg s = .next t) :
    ((s.phase = .collect ∨ s.phase = .tree) ∧ t = fail .sequence (encode (.rdCode arg)) s) ∨
    (symOperand arg = none ∧ t = fail .range (encode (.rdCode arg)) s) ∨
    (∃ x, symOperand arg = some x ∧ t = answer (0#16 ++ s.clenAt x ++ s.cbitsAt x) 0 s) := by
  rcases whenAccepted_eq_next h with ⟨-, h⟩ | ⟨ha, h⟩
  · split at h
    · exact .inr (.inl ⟨‹_›, by simpa using h.symm⟩)
    · exact .inr (.inr ⟨_, ‹_›, by simpa using h.symm⟩)
  · refine .inl ⟨?_, h⟩
    cases hp : s.phase <;> simp [accepts, hp] at ha ⊢

theorem execRdBlob_eq_next {arg : Arg} {s t : State} (h : execRdBlob arg s = .next t) :
    (s.phase ≠ .packed ∧ t = fail .sequence (encode (.rdBlob arg)) s) ∨
    (idxOperand arg s.bloblen.toNat = none ∧ t = fail .range (encode (.rdBlob arg)) s) ∨
    (∃ i, idxOperand arg s.bloblen.toNat = some i ∧ i < hdrMax + s.cfg.cap ∧
      t = answer ((s.blobAt i).setWidth 32) 0 s) := by
  rcases whenAccepted_eq_next h with ⟨-, h⟩ | ⟨ha, h⟩
  · split at h
    · exact .inr (.inl ⟨‹_›, by simpa using h.symm⟩)
    · split_ifs at h with h1
      exact .inr (.inr ⟨_, ‹_›, not_le.1 h1, by simpa using h.symm⟩)
  · exact .inl ⟨by simpa [accepts] using ha, h⟩

/-! ### Everything a command can do -/

/-- What a command does when it answers a next state, one constructor per way. -/
inductive Did (s : State) : Instr → State → Prop where
  /-- It fails with an error other than CODE_TOO_LONG and changes nothing but the error record. -/
  | failed (i : Instr) (c : ErrCode) (hc : c ≠ .none) (hl : c ≠ .codeTooLong) : Did s i (fail c (encode i) s)
  | nop : Did s .nop (ok s)
  | cleared : Did s .clear (ok (clearState s))
  | dropped (arg : Arg) (hp : s.phase = .collect) (hx : symOperand arg = none) : Did s (.push arg) (ok s)
  | pushed (arg : Arg) (x : Sym) (hp : s.phase = .collect) (hx : symOperand arg = some x) (hl : s.len ≠ s.cfg.cap)
      (hi : pushInside x s = true) (hc : (s.countAt x).toNat + 1 < 2 ^ 32) : Did s (.push arg) (ok (pushState x s))
  | built (hp : s.phase = .collect) (hn : s.n ≤ asize) (hw : leafWeight s < 2 ^ 32) :
      Did s .build (ok (buildState Config.tieChoice s))
  | coded (u : State) (clen cbits : Memory Byte) (hp : s.phase = .tree) (hn : s.n ≤ asize)
      (hc : codeTable s = some (clen, cbits)) (hu : u = { s with clen := clen, cbits := cbits })
      (hf : firstTooLong u = none) : Did s .codes (ok { u with phase := .coded })
  | tooLong (u : State) (clen cbits : Memory Byte) (x : Sym) (hp : s.phase = .tree) (hn : s.n ≤ asize)
      (hc : codeTable s = some (clen, cbits)) (hu : u = { s with clen := clen, cbits := cbits })
      (hf : firstTooLong u = some x) :
      Did s .codes (fail .codeTooLong (0#16 ++ u.clenAt x ++ x.setWidth 8) { u with phase := .failed })
  | packed (hp : s.phase = .coded) (hi : packInside s = true) (ht : totalBits s < 2 ^ 32) :
      Did s .pack (ok (packState s))
  | encoded (u : State) (clen cbits : Memory Byte) (hp : s.phase = .collect) (hn : s.n ≤ asize)
      (hw : leafWeight s < 2 ^ 32) (hc : codeTable (buildState Config.tieChoice s) = some (clen, cbits))
      (hu : u = { buildState Config.tieChoice s with clen := clen, cbits := cbits }) (hf : firstTooLong u = none)
      (hi : packInside (ok { u with phase := .coded }) = true) (ht : totalBits (ok { u with phase := .coded }) < 2 ^ 32) :
      Did s .encode (ok (packState (ok { u with phase := .coded })))
  | encodeTooLong (u : State) (clen cbits : Memory Byte) (x : Sym) (hp : s.phase = .collect) (hn : s.n ≤ asize)
      (hw : leafWeight s < 2 ^ 32) (hc : codeTable (buildState Config.tieChoice s) = some (clen, cbits))
      (hu : u = { buildState Config.tieChoice s with clen := clen, cbits := cbits }) (hf : firstTooLong u = some x) :
      Did s .encode (fail .codeTooLong (0#16 ++ u.clenAt x ++ x.setWidth 8) { u with phase := .failed })
  /-- A read command succeeds; only RD_NODE has a second result word. -/
  | answered (i : Instr) (r0 r1 : Word) (hi : i.mnemonic ∈ [Mnemonic.rdCount, .rdUniq, .rdInput, .rdNode, .rdCode, .rdBlob])
      (h1 : i.mnemonic ≠ .rdNode → r1 = 0) : Did s i (answer r0 r1 s)

/-- Every next state of a command is one of the cases of `Did`. -/
theorem exec_did {i : Instr} {s t : State} (h : exec i s = .next t) : Did s i t := by
  have seq : ∀ j : Instr, Did s j (fail .sequence (encode j) s) := fun j => .failed j _ (by simp) (by simp)
  have range : ∀ j : Instr, Did s j (fail .range (encode j) s) := fun j => .failed j _ (by simp) (by simp)
  cases i with
  | nop => rw [execNop_eq_next h]; exact .nop
  | clear => rw [execClear_eq_next h]; exact .cleared
  | push a =>
    rcases execPush_eq_next h with ⟨_, rfl⟩ | ⟨hp, hx, rfl⟩ | ⟨-, -, -, rfl⟩ | ⟨hp, x, h1, h2, h3, h4, rfl⟩
    · exact seq _
    · exact .dropped a hp hx
    · exact .failed _ _ (by simp) (by simp)
    · exact .pushed a x hp h1 h2 h3 h4
  | build =>
    rcases execBuild_eq_next h with ⟨_, rfl⟩ | ⟨hp, h1, h2, rfl⟩
    · exact seq _
    · exact .built hp h1 h2
  | codes =>
    rcases execCodes_eq_next h with ⟨_, rfl⟩ | ⟨hp, hn, a, b, hc, rfl⟩
    · exact seq _
    · rcases checkLengths_cases { s with clen := a, cbits := b } with ⟨hf, e⟩ | ⟨x, hf, e⟩
      · rw [e]; exact .coded _ a b hp hn hc rfl hf
      · rw [e]; exact .tooLong _ a b x hp hn hc rfl hf
  | pack =>
    rcases execPack_eq_next h with ⟨_, rfl⟩ | ⟨hp, hi, ht, rfl⟩
    · exact seq _
    · exact .packed hp hi ht
  | encode =>
    rcases execEncode_eq_next h with ⟨_, rfl⟩ | ⟨hp, hb⟩
    · exact seq _
    · obtain ⟨u, v, hu, hv, hb⟩ := encodeBody_eq_next hb
      obtain ⟨hn, hw, rfl⟩ := buildBody_eq_next hu
      obtain ⟨-, a, b, hc, rfl⟩ := codesBody_eq_next hv
      rcases checkLengths_cases { buildState Config.tieChoice s with clen := a, cbits := b } with ⟨hf, e⟩ | ⟨x, hf, e⟩
      · rw [e] at hb
        rcases hb with ⟨hph, -⟩ | ⟨-, hb⟩
        · simp at hph
        · obtain ⟨hi, ht, rfl⟩ := packBody_eq_next hb
          exact .encoded _ a b hp hn hw hc rfl hf hi ht
      · rw [e] at hb
        rcases hb with ⟨-, rfl⟩ | ⟨hph, -⟩
        · exact .encodeTooLong _ a b x hp hn hw hc rfl hf
        · simp at hph
  | rdCount a =>
    rcases execRdCount_eq_next h with ⟨_, rfl⟩ | ⟨x, -, rfl⟩
    · exact range _
    · exact .answered _ _ _ (by simp [Instr.mnemonic]) fun _ => rfl
  | rdUniq a =>
    rcases execRdUniq_eq_next h with ⟨_, rfl⟩ | ⟨x, -, -, rfl⟩
    · exact range _
    · exact .answered _ _ _ (by simp [Instr.mnemonic]) fun _ => rfl
  | rdInput a =>
    rcases execRdInput_eq_next h with ⟨_, rfl⟩ | ⟨x, -, -, rfl⟩
    · exact range _
    · exact .answered _ _ _ (by simp [Instr.mnemonic]) fun _ => rfl
  | rdNode a =>
    rcases execRdNode_eq_next h with ⟨_, rfl⟩ | ⟨_, rfl⟩ | ⟨x, -, rfl⟩
    · exact seq _
    · exact range _
    · exact .answered _ _ _ (by simp [Instr.mnemonic]) fun hm => absurd rfl hm
  | rdCode a =>
    rcases execRdCode_eq_next h with ⟨_, rfl⟩ | ⟨_, rfl⟩ | ⟨x, -, rfl⟩
    · exact seq _
    · exact range _
    · exact .answered _ _ _ (by simp [Instr.mnemonic]) fun _ => rfl
  | rdBlob a =>
    rcases execRdBlob_eq_next h with ⟨_, rfl⟩ | ⟨_, rfl⟩ | ⟨x, -, -, rfl⟩
    · exact seq _
    · exact range _
    · exact .answered _ _ _ (by simp [Instr.mnemonic]) fun _ => rfl

/-- No command writes BUSY, PENDING, the parameters or what the host holds; none but CLEAR writes OVR. -/
theorem exec_frame {i : Instr} {s t : State} (h : exec i s = .next t) :
    t.busy = s.busy ∧ t.pending = s.pending ∧ t.cfg = s.cfg ∧ t.host = s.host ∧ t.rdata = s.rdata ∧
      (i ≠ .clear → t.ovr = s.ovr) := by
  cases exec_did h with
  | cleared => exact ⟨rfl, rfl, rfl, rfl, rfl, fun hc => absurd rfl hc⟩
  | coded u _ _ _ _ _ hu _ => subst hu; exact ⟨rfl, rfl, rfl, rfl, rfl, fun _ => rfl⟩
  | tooLong u _ _ _ _ _ _ hu _ => subst hu; exact ⟨rfl, rfl, rfl, rfl, rfl, fun _ => rfl⟩
  | encoded u _ _ _ _ _ _ hu _ _ _ => subst hu; exact ⟨rfl, rfl, rfl, rfl, rfl, fun _ => rfl⟩
  | encodeTooLong u _ _ _ _ _ _ _ hu _ => subst hu; exact ⟨rfl, rfl, rfl, rfl, rfl, fun _ => rfl⟩
  | _ => exact ⟨rfl, rfl, rfl, rfl, rfl, fun _ => rfl⟩

/-! ### The core step and the step of the machine -/

theorem coreStep_eq_next {s t : State} (h : coreStep s = .next t) :
    (∃ e, decode s.pending = .error e ∧ t = complete (fail .illegal s.pending s)) ∨
    (∃ i u, decode s.pending = .ok i ∧ exec i s = .next u ∧ t = complete u) := by
  unfold coreStep at h
  split at h
  · exact .inl ⟨_, ‹_›, by simpa using h.symm⟩
  · obtain ⟨u, hu, h⟩ := andThen_eq_next.1 h
    exact .inr ⟨_, u, ‹_›, hu, by simpa using h.symm⟩

theorem coreTurn_eq_next {s t : State} (h : coreTurn s = .next t) :
    (s.busy = true ∧ coreStep s = .next t) ∨ (s.busy = false ∧ t = s) := by
  unfold coreTurn at h
  split at h
  · exact .inl ⟨‹_›, h⟩
  · exact .inr ⟨eq_false_of_ne_true ‹_›, by simpa using h.symm⟩

/-- Everything a step can do: a core step, a core's turn with nothing to do, or one event of the host. -/
theorem step_eq_next {s t : State} (h : step s = .next t) :
    (∃ es, (s.host = [] ∧ es = [] ∨ s.host = .coreTurn :: es) ∧
      ((s.busy = true ∧ coreStep { s with host := es } = .next t) ∨ (s.busy = false ∧ t = { s with host := es }))) ∨
    (∃ es, s.host = .reset :: es ∧ t = resetCore { s with host := es }) ∨
    (∃ es addr size, s.host = .read addr size :: es ∧
      ((windowOffset s.cfg addr = none ∧ t = { s with host := es }) ∨
        ∃ off, windowOffset s.cfg addr = some off ∧ t = busRead size off { s with host := es })) ∨
    (∃ es addr size v, s.host = .write addr size v :: es ∧
      ((windowOffset s.cfg addr = none ∧ t = { s with host := es }) ∨
        ∃ off, windowOffset s.cfg addr = some off ∧ t = busWrite size off v { s with host := es })) := by
  unfold step at h
  split at h
  · rename_i hh
    have hs : ({ s with host := [] } : State) = s := by rw [← hh]
    refine .inl ⟨[], .inl ⟨hh, rfl⟩, ?_⟩
    rw [hs]
    exact coreTurn_eq_next h
  · rename_i e es hh
    cases e with
    | coreTurn => exact .inl ⟨es, .inr hh, coreTurn_eq_next h⟩
    | reset => exact .inr (.inl ⟨es, hh, by simpa [hostEvent] using h.symm⟩)
    | read addr size =>
      refine .inr (.inr (.inl ⟨es, addr, size, hh, ?_⟩))
      simp only [hostEvent] at h
      split at h
      · exact .inr ⟨_, ‹_›, by simpa using h.symm⟩
      · exact .inl ⟨‹_›, by simpa using h.symm⟩
    | write addr size v =>
      refine .inr (.inr (.inr ⟨es, addr, size, v, hh, ?_⟩))
      simp only [hostEvent] at h
      split at h
      · exact .inr ⟨_, ‹_›, by simpa using h.symm⟩
      · exact .inl ⟨‹_›, by simpa using h.symm⟩

end Sys2Proof.Machine
end

