-- ==== Sys2Proof/Laws/Invariant.lean ====
section
/-! SUPPORT. Which fields of the state each part of the invariant depends on. -/

namespace Sys2Proof.Machine

theorem CountsOk_congr {s t : State} (h : s.CountsOk) (h1 : t.count = s.count) (h2 : t.uniq = s.uniq)
    (h3 : t.nuniq = s.nuniq) (h4 : t.inbuf = s.inbuf) (h5 : t.inlen = s.inlen) : t.CountsOk := by
  cases s
  cases t
  subst h1 h2 h3 h4 h5
  exact ⟨h.sum_eq, h.nuniq_eq, h.distinct, h.positive, h.ordered, h.count_eq⟩

theorem ArenaOk_congr {s t : State} (h : s.ArenaOk) (h1 : t.count = s.count) (h2 : t.uniq = s.uniq)
    (h3 : t.nuniq = s.nuniq) (h4 : t.inlen = s.inlen) (h5 : t.node = s.node) (h6 : t.nnodes = s.nnodes)
    (h7 : t.root = s.root) : t.ArenaOk := by
  cases s
  cases t
  subst h1 h2 h3 h4 h5 h6 h7
  exact ⟨h.nnodes_eq, h.root_eq, h.leaf, h.internal, h.parent, h.root_weight⟩

theorem CodesOk_congr {s t : State} (h : s.CodesOk) (h1 : t.uniq = s.uniq) (h2 : t.nuniq = s.nuniq)
    (h3 : t.node = s.node) (h4 : t.cfg = s.cfg) (h5 : t.clen = s.clen) (h6 : t.cbits = s.cbits) : t.CodesOk := by
  cases s
  cases t
  subst h1 h2 h3 h4 h5 h6
  exact h

end Sys2Proof.Machine
end

