-- ==== Sys2Proof/Laws/Packer.lean ====
section
/-! SUPPORT. The bit-packer's parts: which bytes a record, the length field and the emits write. -/

namespace Sys2Proof.Machine

theorem writeRecords_wf {size : Nat} {align : CodeAlign} {uniq : Memory Sym} {clen cbits : Memory Byte} :
    ∀ {is : List Nat} {m : Memory Byte}, (∀ i ∈ is, 3 + 3 * i < size) → Memory.wf size m = true →
    Memory.wf size (writeRecords align uniq clen cbits is m) = true
  | [], _, _, h => h
  | i :: is, _, hi, h => by
    have := hi i List.mem_cons_self
    exact writeRecords_wf (is := is) (fun j hj => hi j (List.mem_cons_of_mem _ hj))
      (Memory.wf_write (Memory.wf_write (Memory.wf_write h (by omega) _) (by omega) _) (by omega) _)

/-- The records of `is` write three bytes each and no other. -/
theorem writeRecords_other {size : Nat} {align : CodeAlign} {uniq : Memory Sym} {clen cbits : Memory Byte} :
    ∀ {is : List Nat} {m : Memory Byte}, (∀ i ∈ is, 3 + 3 * i < size) → Memory.wf size m = true →
    ∀ k, (∀ i ∈ is, k < 1 + 3 * i ∨ 3 + 3 * i < k) →
    Memory.read (writeRecords align uniq clen cbits is m) k = Memory.read m k
  | [], _, _, _, _, _ => rfl
  | i :: is, m, hi, h, k, hk => by
    have hb := hi i List.mem_cons_self
    have h1 := Memory.wf_write h (show 1 + 3 * i < size by omega) ((Memory.read uniq i).setWidth 8)
    have h2 := Memory.wf_write h1 (show 2 + 3 * i < size by omega) (Memory.read clen (Memory.read uniq i).toNat)
    have h3 := Memory.wf_write h2 hb (recbits align (Memory.read clen (Memory.read uniq i).toNat)
      (Memory.read cbits (Memory.read uniq i).toNat))
    have hki := hk i List.mem_cons_self
    rw [writeRecords, writeRecords_other (fun j hj => hi j (List.mem_cons_of_mem _ hj)) h3 k
      (fun j hj => hk j (List.mem_cons_of_mem _ hj)), Memory.read_write h2, Memory.read_write h1, Memory.read_write h,
      if_neg (by omega), if_neg (by omega), if_neg (by omega)]

/-- Record i holds the i-th unique symbol, its code length and its code bits. -/
theorem writeRecords_record {size : Nat} {align : CodeAlign} {uniq : Memory Sym} {clen cbits : Memory Byte} :
    ∀ {is : List Nat} {m : Memory Byte}, (∀ i ∈ is, 3 + 3 * i < size) → Memory.wf size m = true → is.Nodup →
    ∀ i ∈ is,
    Memory.read (writeRecords align uniq clen cbits is m) (1 + 3 * i) = (Memory.read uniq i).setWidth 8 ∧
    Memory.read (writeRecords align uniq clen cbits is m) (2 + 3 * i) = Memory.read clen (Memory.read uniq i).toNat ∧
    Memory.read (writeRecords align uniq clen cbits is m) (3 + 3 * i) =
      recbits align (Memory.read clen (Memory.read uniq i).toNat) (Memory.read cbits (Memory.read uniq i).toNat)
  | [], _, _, _, _, _, hi => by cases hi
  | j :: is, m, hb, h, hd, i, hi => by
    have hj := hb j List.mem_cons_self
    have h1 := Memory.wf_write h (show 1 + 3 * j < size by omega) ((Memory.read uniq j).setWidth 8)
    have h2 := Memory.wf_write h1 (show 2 + 3 * j < size by omega) (Memory.read clen (Memory.read uniq j).toNat)
    have h3 := Memory.wf_write h2 hj (recbits align (Memory.read clen (Memory.read uniq j).toNat)
      (Memory.read cbits (Memory.read uniq j).toNat))
    have hb' : ∀ k ∈ is, 3 + 3 * k < size := fun k hk => hb k (List.mem_cons_of_mem _ hk)
    rcases List.mem_cons.1 hi with rfl | hi
    · have hne : ∀ k ∈ is, k ≠ i := fun k hk e => (List.nodup_cons.1 hd).1 (e ▸ hk)
      rw [writeRecords, writeRecords_other hb' h3 _ (fun k hk => by have := hne k hk; omega),
        writeRecords_other hb' h3 _ (fun k hk => by have := hne k hk; omega),
        writeRecords_other hb' h3 _ (fun k hk => by have := hne k hk; omega)]
      simp only [Memory.read_write h2, Memory.read_write h1, Memory.read_write h]
      refine ⟨?_, ?_, ?_⟩ <;> simp
    · exact writeRecords_record hb' h3 (List.nodup_cons.1 hd).2 i hi

theorem writeLength_wf {size o : Nat} {m : Memory Byte} (h : Memory.wf size m = true) (ho : o + 3 < size) (t : Word) :
    Memory.wf size (writeLength o t m) = true :=
  Memory.wf_write (Memory.wf_write (Memory.wf_write (Memory.wf_write h (by omega) _) (by omega) _) (by omega) _)
    (by omega) _

/-- The length field writes four bytes, the most significant first, and no other. -/
theorem writeLength_read {size o : Nat} {m : Memory Byte} (h : Memory.wf size m = true) (ho : o + 3 < size) (t : Word)
    (k : Nat) : Memory.read (writeLength o t m) k =
      if k = o + 3 then t.extractLsb' 0 8 else if k = o + 2 then t.extractLsb' 8 8
      else if k = o + 1 then t.extractLsb' 16 8 else if k = o then t.extractLsb' 24 8 else Memory.read m k := by
  have h0 := Memory.wf_write h (show o < size by omega) (t.extractLsb' 24 8)
  have h1 := Memory.wf_write h0 (show o + 1 < size by omega) (t.extractLsb' 16 8)
  have h2 := Memory.wf_write h1 (show o + 2 < size by omega) (t.extractLsb' 8 8)
  rw [writeLength, Memory.read_write h2, Memory.read_write h1, Memory.read_write h0, Memory.read_write h]

theorem setBit_getLsbD (y : Byte) {k : Nat} (hk : k < 8) (b : Bool) (i : Nat) (hi : i < 8) :
    (setBit y k b).getLsbD i = if i = k then b else y.getLsbD i := by
  have h1 : (1#8 <<< k).getLsbD i = decide (i = k) := by
    rw [BitVec.getLsbD_shiftLeft, BitVec.getLsbD_one]
    by_cases e : i = k
    · simp [e, hk]
    · by_cases h : i < k
      · simp [hi, h, e]
      · have : i - k ≠ 0 := by omega
        simp [hi, h, e, this]
  unfold setBit
  by_cases e : i = k
  · subst e
    cases b <;> simp only [Bool.false_eq_true, if_false, if_true, BitVec.getLsbD_and, BitVec.getLsbD_not, BitVec.getLsbD_or, h1, hi] <;> simp
  · cases b <;> simp only [Bool.false_eq_true, if_false, if_true, BitVec.getLsbD_and, BitVec.getLsbD_not, BitVec.getLsbD_or, h1, hi, e] <;> simp

theorem emitBit_wf {size p q : Nat} {b : Bool} {m : Memory Byte} (h : Memory.wf size m = true) (hq : p + q / 8 < size) :
    Memory.wf size (emitBit p q b m) = true := by
  unfold emitBit
  split_ifs
  · exact Memory.wf_write (Memory.wf_write h hq _) hq _
  · exact Memory.wf_write h hq _

/-- An emit writes one byte: its first emit clears it, and each emit sets one bit. -/
theorem emitBit_read {size p q : Nat} {b : Bool} {m : Memory Byte} (h : Memory.wf size m = true) (hq : p + q / 8 < size)
    (k : Nat) : Memory.read (emitBit p q b m) k =
      if k = p + q / 8 then setBit (if q % 8 = 0 then 0 else Memory.read m k) (7 - q % 8) b else Memory.read m k := by
  unfold emitBit
  by_cases e : q % 8 = 0
  · simp only [e, if_true, Memory.read_write (Memory.wf_write h hq 0), Memory.read_write h]
    by_cases hk : k = p + q / 8 <;> simp [hk]
  · simp only [e, if_false, Memory.read_write h]
    by_cases hk : k = p + q / 8 <;> simp [hk]

theorem emitAll_wf {size p : Nat} : ∀ {bs : List Bool} {q : Nat} {m : Memory Byte}, Memory.wf size m = true →
    p + (q + bs.length + 7) / 8 ≤ size → Memory.wf size (emitAll p q bs m) = true
  | [], _, _, h, _ => h
  | b :: bs, q, m, h, hs => by
    simp only [List.length_cons] at hs
    exact emitAll_wf (bs := bs) (emitBit_wf h (by omega)) (by omega)

/-- The emits touch no byte outside the payload. -/
theorem emitAll_other {size p : Nat} : ∀ {bs : List Bool} {q : Nat} {m : Memory Byte}, Memory.wf size m = true →
    p + (q + bs.length + 7) / 8 ≤ size → ∀ k, k < p + q / 8 ∨ p + (q + bs.length + 7) / 8 ≤ k →
    Memory.read (emitAll p q bs m) k = Memory.read m k
  | [], _, _, _, _, _, _ => rfl
  | b :: bs, q, m, h, hs, k, hk => by
    simp only [List.length_cons] at hs hk
    have hq : p + q / 8 < size := by omega
    rw [emitAll, emitAll_other (bs := bs) (emitBit_wf h hq) (by omega) k (by omega), emitBit_read h hq, if_neg (by omega)]

/-- After the emits the bit at position r of the payload is the emitted one; positions before the first emit keep their
bits, and the padding of the last byte is 0. -/
theorem emitAll_bit {size p : Nat} : ∀ {bs : List Bool} {q : Nat} {m : Memory Byte}, Memory.wf size m = true →
    p + (q + bs.length + 7) / 8 ≤ size →
    (∀ r, q ≤ r → r < 8 * ((q + 7) / 8) → (Memory.read m (p + r / 8)).getLsbD (7 - r % 8) = false) →
    ∀ r, r < 8 * ((q + bs.length + 7) / 8) → (Memory.read (emitAll p q bs m) (p + r / 8)).getLsbD (7 - r % 8) =
      if r < q then (Memory.read m (p + r / 8)).getLsbD (7 - r % 8) else (bs[r - q]?).getD false
  | [], q, m, h, hs, hz, r, hr => by
    simp only [List.length_nil, Nat.add_zero] at hr
    by_cases hrq : r < q
    · simp [emitAll, hrq]
    · simp [emitAll, hrq, hz r (by omega) hr]
  | b :: bs, q, m, h, hs, hz, r, hr => by
    simp only [List.length_cons] at hs hr
    have hq : p + q / 8 < size := by omega
    have key : ∀ r, r / 8 = q / 8 → (Memory.read (emitBit p q b m) (p + r / 8)).getLsbD (7 - r % 8) =
        if r = q then b else if q % 8 = 0 then false else (Memory.read m (p + r / 8)).getLsbD (7 - r % 8) := by
      intro r e
      rw [emitBit_read h hq, if_pos (by rw [e]), setBit_getLsbD _ (by omega) _ _ (by omega)]
      by_cases e2 : r = q
      · simp [e2]
      · have : 7 - r % 8 ≠ 7 - q % 8 := by omega
        rw [if_neg this, if_neg e2]
        by_cases e3 : q % 8 = 0
        · rw [if_pos e3, if_pos e3]; simp
        · rw [if_neg e3, if_neg e3]
    have frame : ∀ r, r / 8 ≠ q / 8 → Memory.read (emitBit p q b m) (p + r / 8) = Memory.read m (p + r / 8) := by
      intro r e
      rw [emitBit_read h hq, if_neg (by omega)]
    rw [emitAll, emitAll_bit (bs := bs) (emitBit_wf h hq) (by omega) ?_ r (by omega)]
    · by_cases h1 : r < q
      · have h2 : r < q + 1 := by omega
        simp only [h1, h2, if_true]
        by_cases e : r / 8 = q / 8
        · rw [key r e, if_neg (by omega), if_neg (by omega)]
        · rw [frame r e]
      · by_cases h2 : r = q
        · subst h2
          simp only [Nat.lt_succ_self, if_true, lt_irrefl, if_false, Nat.sub_self, List.getElem?_cons_zero, Option.getD_some]
          rw [key r rfl, if_pos rfl]
        · have h3 : ¬ r < q + 1 := by omega
          have h4 : r - q = (r - (q + 1)) + 1 := by omega
          simp only [h1, h3, if_false]
          rw [h4, List.getElem?_cons_succ]
    · intro r h1 h2
      have e : r / 8 = q / 8 := by omega
      rw [key r e, if_neg (by omega)]
      by_cases e2 : q % 8 = 0
      · simp [e2]
      · simp only [e2, if_false]
        exact hz r (by omega) (by omega)

/-- The code of a symbol has CLEN bits. -/
theorem codeBits_length (s : State) (x : Sym) : (codeBits s x).length = (s.clenAt x).toNat := by simp [codeBits]

/-- The bit string has T bits. -/
theorem bitString_length (s : State) : (bitString s).length = totalBits s := by
  simp only [bitString, totalBits, List.length_flatMap, codeBits_length]

end Sys2Proof.Machine
end

