-- ==== Sys2Proof/Laws/PerInstr.lean ====
section
/-! SUPPORT. What the encoding of each command is, field by field (30_encoding.md R63, R65): the family Fields. -/

namespace Sys2Proof.Laws.Fields

/-- The word of a command holds its opcode in OPC and its operand in ARG, the opcode map takes the opcode back to the
mnemonic, and mnemonic and operand give the command back. -/
def Statement (i : Instr) : Prop :=
  opcField (Sys2Proof.encode i) = opcode i.mnemonic ∧ argField (Sys2Proof.encode i) = i.operand ∧
    mnemonicOf (opcode i.mnemonic) = some i.mnemonic ∧ i.mnemonic.toInstr i.operand = i

theorem opc_of_append (o : BitVec 8) (a : Arg) : opcField (o ++ a) = o := by
  apply BitVec.eq_of_getLsbD_eq
  intro k hk
  simp only [opcField, BitVec.getLsbD_extractLsb', BitVec.getLsbD_append]
  simp [hk]

theorem arg_of_append (o : BitVec 8) (a : Arg) : argField (o ++ a) = a := by
  apply BitVec.eq_of_getLsbD_eq
  intro k hk
  simp only [argField, BitVec.getLsbD_extractLsb', BitVec.getLsbD_append]
  simp [hk]

theorem of_append (i : Instr) (hm : mnemonicOf (opcode i.mnemonic) = some i.mnemonic)
    (hi : i.mnemonic.toInstr i.operand = i) : Statement i :=
  ⟨opc_of_append _ _, arg_of_append _ _, hm, hi⟩

theorem nop : Statement .nop := of_append _ rfl rfl
theorem clear : Statement .clear := of_append _ rfl rfl
theorem push (arg : Arg) : Statement (.push arg) := of_append _ rfl rfl
theorem build : Statement .build := of_append _ rfl rfl
theorem codes : Statement .codes := of_append _ rfl rfl
theorem pack : Statement .pack := of_append _ rfl rfl
theorem encode : Statement .encode := of_append _ rfl rfl
theorem rdCount (arg : Arg) : Statement (.rdCount arg) := of_append _ rfl rfl
theorem rdUniq (arg : Arg) : Statement (.rdUniq arg) := of_append _ rfl rfl
theorem rdInput (arg : Arg) : Statement (.rdInput arg) := of_append _ rfl rfl
theorem rdNode (arg : Arg) : Statement (.rdNode arg) := of_append _ rfl rfl
theorem rdCode (arg : Arg) : Statement (.rdCode arg) := of_append _ rfl rfl
theorem rdBlob (arg : Arg) : Statement (.rdBlob arg) := of_append _ rfl rfl

end Sys2Proof.Laws.Fields
end

