-- ==== Sys2Proof/Tests/Slice0.lean ====
section
/-! SUPPORT. The model's own tests: ill-formed lines, decoding of words written out from the spec, single commands on the
states of spec/95_test_vectors.md, and for each obligation with hypotheses a state that meets them. -/

namespace Sys2Proof.Machine.Tests

open Sys2Proof Sys2Proof.Machine

set_option Elab.async false

/-! ### Well-formedness (R71) -/

theorem test_wf_lines : (AsmLine.mk .nop none).wellFormed = true ∧ (AsmLine.mk .push (some (.number 0xFFFFFF))).wellFormed = true ∧
    (AsmLine.mk .rdCode (some (.character 'a'))).assemble = some (.rdCode 0x61) := by decide

/-- A `none`-kind command with an operand. -/
theorem test_illformed_operand : (AsmLine.mk .build (some (.number 0))).wellFormed = false ∧
    (AsmLine.mk .build (some (.number 0))).assemble = none := by decide

/-- A `sym` and an `idx` command without an operand. -/
theorem test_illformed_missing : (AsmLine.mk .push none).wellFormed = false ∧ (AsmLine.mk .rdBlob none).wellFormed = false := by
  decide

/-- An operand above 0xFFFFFF. -/
theorem test_illformed_large : (AsmLine.mk .push (some (.number 0x1000000))).wellFormed = false := by decide

/-! ### Decode: OPC and ARG written out from R63 and R65 -/

theorem test_decode_nop : decode 0b00000000000000000000000000000000#32 = .ok .nop := by rfl
theorem test_decode_clear : decode 0b00000001000000000000000000000000#32 = .ok .clear := by rfl
theorem test_decode_push : decode 0b00000010000000000000000001100001#32 = .ok (.push 97) := by rfl
theorem test_decode_push_top : decode 0b00000010111111111111111111111111#32 = .ok (.push 16777215) := by rfl
theorem test_decode_build : decode 0b00000011000000000000000000000000#32 = .ok .build := by rfl
theorem test_decode_codes : decode 0b00000100000000000000000000000000#32 = .ok .codes := by rfl
theorem test_decode_pack : decode 0b00000101000000000000000000000000#32 = .ok .pack := by rfl
theorem test_decode_encode : decode 0b00000110000000000000000000000000#32 = .ok .encode := by rfl
theorem test_decode_rdCount : decode 0b00010000000000000000000001100001#32 = .ok (.rdCount 97) := by rfl
theorem test_decode_rdUniq : decode 0b00010001000000000000000000000001#32 = .ok (.rdUniq 1) := by rfl
theorem test_decode_rdInput : decode 0b00010010000000000000000000000011#32 = .ok (.rdInput 3) := by rfl
theorem test_decode_rdNode : decode 0b00010011000000000000000000000010#32 = .ok (.rdNode 2) := by rfl
theorem test_decode_rdCode : decode 0b00010100000000000000000001100001#32 = .ok (.rdCode 97) := by rfl
theorem test_decode_rdBlob : decode 0b00010101000000000000000000001011#32 = .ok (.rdBlob 11) := by rfl
theorem test_decode_reserved : decode 0b00000111000000000000000000000000#32 = .error .reservedOpcode ∧
    decode 0b00010110000000000000000000000000#32 = .error .reservedOpcode := ⟨rfl, rfl⟩
theorem test_decode_nonzero_arg : decode 0b00000011000000000000000000000001#32 = .error .nonzeroArg := by rfl
theorem test_decode_table_word : decodeTableWord 32 0x1500000B = some (.rdBlob 11) ∧ decodeTableWord 32 0x07000000 = none := by
  decide

/-! ### States of spec/95_test_vectors.md -/

/-- What `f` sees of the next state of `r`. -/
def seen {α : Type} (r : Result) (f : State → α) : Option α :=
  match r with
  | .next t => some (f t)
  | .fault _ => none
  | .refused _ => none

/-- A node, written as the test vectors write it. -/
def nd (w : Word) (sym par lft rgt : Byte) : Node := { w := w, sym := sym, par := par, lft := lft, rgt := rgt }

/-- The first `k` bytes of the blob. -/
def blobBytes (k : Nat) (s : State) : List Byte := (List.range k).map s.blobAt

/-- D1.2: "aaab" has been pushed. -/
def aaab : State :=
  { State.reset with
    inlen := 4, nuniq := 2
    inbuf := [(0, 0x61), (1, 0x61), (2, 0x61), (3, 0x62)]
    uniq := [(0, 0x61), (1, 0x62)]
    count := [(0x61, 3), (0x62, 1)] }

/-- D2.1. -/
def aaabTree : State :=
  { aaab with
    node := [(0, nd 3 0x61 2 0xFF 0xFF), (1, nd 1 0x62 2 0xFF 0xFF), (2, nd 4 0xFF 0xFF 1 0)]
    nnodes := 3, root := 2, phase := .tree }

/-- D3.1. -/
def aaabCoded : State :=
  { aaabTree with clen := [(0x61, 1), (0x62, 1)], cbits := [(0x61, 1)], phase := .coded }

/-- D4.1. -/
def aaabPacked : State :=
  { aaabCoded with
    outbuf := [(0, 0x02), (1, 0x61), (2, 0x01), (3, 0x80), (4, 0x62), (5, 0x01), (10, 0x04), (11, 0xE0)]
    bitlen := 4, bloblen := 12, phase := .packed }

/-- "aabb" has been pushed (D2.3), under either tie-break. -/
def aabb (tb : TieBreak) : State :=
  { State.resetWith { Config.standard with tieBreak := tb } with
    inlen := 4, nuniq := 2
    inbuf := [(0, 0x61), (1, 0x61), (2, 0x62), (3, 0x62)]
    uniq := [(0, 0x61), (1, 0x62)]
    count := [(0x61, 2), (0x62, 2)] }

/-- The input array of a list of symbols. -/
def inputOf (xs : List Sym) : Memory Sym := xs.mapIdx fun j x => (j, x)

/-- "abracadabra" has been pushed. -/
def abra : State :=
  { State.reset with
    inlen := 11, nuniq := 5
    inbuf := inputOf [0x61, 0x62, 0x72, 0x61, 0x63, 0x61, 0x64, 0x61, 0x62, 0x72, 0x61]
    uniq := [(0, 0x61), (1, 0x62), (2, 0x72), (3, 0x63), (4, 0x64)]
    count := [(0x61, 5), (0x62, 2), (0x63, 1), (0x64, 1), (0x72, 2)] }

/-- Nine 'x' have been pushed, with SINGLE_CODE_BIT = 1. -/
def xs9 : State :=
  { State.resetWith { Config.standard with singleCodeBit := 1 } with
    inlen := 9, nuniq := 1
    inbuf := inputOf (List.replicate 9 0x78)
    uniq := [(0, 0x78)]
    count := [(0x78, 9)] }

/-- The one leaf of R88. -/
def xs9Tree : State := { xs9 with node := [(0, nd 9 0x78 0xFF 0xFF 0xFF)], nnodes := 1, root := 0, phase := .tree }

/-- D4.11. -/
def xs9Packed : State :=
  { xs9Tree with
    clen := [(0x78, 1)], cbits := [(0x78, 1)]
    outbuf := [(0, 0x01), (1, 0x78), (2, 0x01), (3, 0x80), (7, 0x09), (8, 0xFF), (9, 0x80)]
    bitlen := 9, bloblen := 10, phase := .packed }

/-- The tree of the empty input (D2.6), and its codes (D3.7). -/
def emptyTree : State := { State.reset with phase := .tree }
def emptyCoded : State := { State.reset with phase := .coded }

/-- fib10 (D2.7): the symbols 0x30 to 0x39 with counts 1, 1, 2, 3, 5, 8, 13, 21, 34, 55. -/
def fib10 : State :=
  { State.reset with
    inlen := 143, nuniq := 10
    inbuf := inputOf (List.replicate 1 0x30 ++ List.replicate 1 0x31 ++ List.replicate 2 0x32 ++ List.replicate 3 0x33 ++
      List.replicate 5 0x34 ++ List.replicate 8 0x35 ++ List.replicate 13 0x36 ++ List.replicate 21 0x37 ++
      List.replicate 34 0x38 ++ List.replicate 55 0x39)
    uniq := [(0, 0x30), (1, 0x31), (2, 0x32), (3, 0x33), (4, 0x34), (5, 0x35), (6, 0x36), (7, 0x37), (8, 0x38), (9, 0x39)]
    count := [(0x30, 1), (0x31, 1), (0x32, 2), (0x33, 3), (0x34, 5), (0x35, 8), (0x36, 13), (0x37, 21), (0x38, 34),
      (0x39, 55)] }

/-- The arena of D2.7. -/
def fib10Tree : State :=
  { fib10 with
    node := [(0, nd 1 0x30 0x0A 0xFF 0xFF), (1, nd 1 0x31 0x0A 0xFF 0xFF), (2, nd 2 0x32 0x0B 0xFF 0xFF),
      (3, nd 3 0x33 0x0C 0xFF 0xFF), (4, nd 5 0x34 0x0D 0xFF 0xFF), (5, nd 8 0x35 0x0E 0xFF 0xFF),
      (6, nd 13 0x36 0x0F 0xFF 0xFF), (7, nd 21 0x37 0x10 0xFF 0xFF), (8, nd 34 0x38 0x11 0xFF 0xFF),
      (9, nd 55 0x39 0x12 0xFF 0xFF), (10, nd 2 0xFF 0x0B 0x00 0x01), (11, nd 4 0xFF 0x0C 0x02 0x0A),
      (12, nd 7 0xFF 0x0D 0x03 0x0B), (13, nd 12 0xFF 0x0E 0x04 0x0C), (14, nd 20 0xFF 0x0F 0x05 0x0D),
      (15, nd 33 0xFF 0x10 0x06 0x0E), (16, nd 54 0xFF 0x11 0x07 0x0F), (17, nd 88 0xFF 0x12 0x08 0x10),
      (18, nd 143 0xFF 0xFF 0x09 0x11)]
    nnodes := 19, root := 0x12, phase := .tree }

/-- D3.9, D6.13. -/
def fib10Failed : State :=
  { fib10Tree with
    clen := [(0x30, 9), (0x31, 9), (0x32, 8), (0x33, 7), (0x34, 6), (0x35, 5), (0x36, 4), (0x37, 3), (0x38, 2), (0x39, 1)]
    cbits := [(0x32, 0xFE), (0x33, 0x7E), (0x34, 0x3E), (0x35, 0x1E), (0x36, 0x0E), (0x37, 0x06), (0x38, 0x02)]
    phase := .failed, lasterr := .codeTooLong, err := .codeTooLong, errinfo := 0x00000930 }

/-- D1.6: CAP = 2, with "ab" pushed. -/
def full2 : State :=
  { State.resetWith { Config.standard with cap := 2 } with
    inlen := 2, nuniq := 2
    inbuf := [(0, 0x61), (1, 0x62)]
    uniq := [(0, 0x61), (1, 0x62)]
    count := [(0x61, 1), (0x62, 1)] }

/-! ### One command each, against spec/95_test_vectors.md -/

/-- D1.9. -/
theorem test_nop : seen (exec .nop { aaabPacked with lasterr := .range, err := .range }) (fun t => (t.lasterr, t.err, t.phase)) =
    some (.none, .range, .packed) := by decide

/-- D6.15, P4: CLEAR in FAILED clears every sticky field. -/
theorem test_clear_failed : seen (exec .clear fib10Failed) (fun t => (statusWord t, t.errinfo, t.root, t.inlen)) =
    some (0, 0, 0xFF, 0) := by decide

/-- D1.10. -/
theorem test_clear_packed : seen (exec .clear aaabPacked) (fun t => (t.bitlen, t.bloblen, t.nnodes, t.countAt 0x61, t.clenAt 0x61)) =
    some (0, 0, 0, 0, 0) := by decide

/-- D1.1: the first occurrence of a symbol. -/
theorem test_push_first : seen (exec (.push 0x61) State.reset)
    (fun t => (t.inlen, t.nuniq, t.countAt 0x61, t.uniqAt 0, t.inputAt 0, statusWord t)) = some (1, 1, 1, 0x61, 0x61, 0) := by decide

/-- D1.6, P5: CAP = 2. -/
theorem test_push_full : seen (exec (.push 0x63) full2) (fun t => (statusWord t, t.errinfo, t.inlen, t.countAt 0x63)) =
    some (0x00030300, 0x02000063, 2, 0) := by decide

/-- D2.1. -/
theorem test_build_aaab : seen (exec .build aaab) (fun t => (t.node, t.nnodes, t.root, t.phase)) =
    some (aaabTree.node, 3, 2, .tree) := by decide

/-- D2.4: equal weights at three extractions, FIFO. -/
theorem test_build_abra : seen (exec .build abra) (fun t => ((List.range 9).map fun i => (t.nodeAt i).par, [t.nodeAt 5, t.nodeAt 6, t.nodeAt 7, t.nodeAt 8])) =
    some ([8, 6, 6, 5, 5, 7, 7, 8, 0xFF],
      [nd 2 0xFF 7 3 4, nd 4 0xFF 7 1 2, nd 6 0xFF 8 5 6, nd 11 0xFF 0xFF 0 7]) := by decide +kernel

/-- D2.3 under ANY: the arena that is not FIFO's, under a choice that picks the second of two. -/
theorem test_build_any : (buildState (fun _ => 1) (aabb .any)).nodeAt 2 = nd 4 0xFF 0xFF 1 0 ∧
    (buildState (fun _ => 0) (aabb .any)).nodeAt 2 = nd 4 0xFF 0xFF 0 1 := by decide

/-- D3.1. -/
theorem test_codes_aaab : seen (exec .codes aaabTree) (fun t => (t.clen, t.cbits, t.phase, t.lasterr)) =
    some (aaabCoded.clen, aaabCoded.cbits, .coded, .none) := by decide +kernel

/-- D3.9: lengths 9, 9, 8, ..., 1, and the error of D6.13. -/
theorem test_codes_fib10 : seen (exec .codes fib10Tree) (fun t => (t.clen, t.cbits, statusWord t, t.errinfo)) =
    some (fib10Failed.clen, fib10Failed.cbits, 0x00050540, 0x00000930) := by decide +kernel

/-- D4.1. -/
theorem test_pack_aaab : seen (exec .pack aaabCoded) (fun t => (blobBytes 12 t, t.bitlen, t.bloblen, statusWord t)) =
    some ([0x02, 0x61, 0x01, 0x80, 0x62, 0x01, 0x00, 0x00, 0x00, 0x00, 0x04, 0xE0], 4, 12, 0x00000030) := by decide +kernel

/-- D4.2: CODE_ALIGN = RIGHT. -/
theorem test_pack_right : seen (exec .pack { aaabCoded with cfg := { Config.standard with codeAlign := .right } }) (blobBytes 12) =
    some [0x02, 0x61, 0x01, 0x01, 0x62, 0x01, 0x00, 0x00, 0x00, 0x00, 0x04, 0xE0] := by decide +kernel

/-- D4.6. -/
theorem test_encode_abra : seen (exec .encode abra) (fun t => (blobBytes 23 t, t.bitlen, t.bloblen)) =
    some ([0x05, 0x61, 0x01, 0x00, 0x62, 0x03, 0xC0, 0x72, 0x03, 0xE0, 0x63, 0x03, 0x80, 0x64, 0x03, 0xA0, 0x00, 0x00, 0x00,
      0x17, 0x6E, 0x8A, 0xDC], 23, 23) := by decide +kernel

/-- D4.13, V3: the empty input. -/
theorem test_encode_empty : seen (exec .encode State.reset) (fun t => (blobBytes 5 t, t.bitlen, t.bloblen, t.root, statusWord t)) =
    some ([0, 0, 0, 0, 0], 0, 5, 0xFF, 0x00000030) := by decide

/-- D5.1, D5.3. -/
theorem test_rdCount : seen (exec (.rdCount 0x61) aaabPacked) (fun t => (t.res0, t.res1)) = some (3, 0) ∧
    seen (exec (.rdCount 0x80) { aaabPacked with res0 := 7 }) (fun t => (t.res0, t.lasterr)) = some (7, .range) := by decide

/-- D5.4, D5.5. -/
theorem test_rdUniq : seen (exec (.rdUniq 1) aaabPacked) (fun t => (t.res0, t.res1)) = some (0x62, 0) ∧
    seen (exec (.rdUniq 2) aaabPacked) (fun t => t.lasterr) = some .range := by decide

/-- D5.6, D5.7. -/
theorem test_rdInput : seen (exec (.rdInput 3) aaabPacked) (fun t => (t.res0, t.res1)) = some (0x62, 0) ∧
    seen (exec (.rdInput 4) aaabPacked) (fun t => t.lasterr) = some .range := by decide

/-- D5.9, D5.18. -/
theorem test_rdNode : seen (exec (.rdNode 2) aaabPacked) (fun t => (t.res0, t.res1)) = some (4, 0xFFFF0100) ∧
    seen (exec (.rdNode 0) State.reset) (fun t => (statusWord t, t.errinfo)) = some (0x00020200, 0x13000000) := by decide

/-- D5.21: a read in FAILED. -/
theorem test_rdNode_failed : seen (exec (.rdNode 0) fib10Failed) (fun t => (t.res0, t.res1)) = some (1, 0x300AFFFF) := by decide

/-- D5.11, and D3.9's RD_CODE 0x32. -/
theorem test_rdCode : seen (exec (.rdCode 0x61) aaabPacked) (fun t => (t.res0, t.res1)) = some (0x00000101, 0) ∧
    seen (exec (.rdCode 0x32) fib10Failed) (fun t => t.res0) = some 0x000008FE := by decide

/-- D5.15, D5.16. -/
theorem test_rdBlob : seen (exec (.rdBlob 11) aaabPacked) (fun t => (t.res0, t.res1)) = some (0xE0, 0) ∧
    seen (exec (.rdBlob 12) aaabPacked) (fun t => (statusWord t, t.errinfo)) = some (0x00040430, 0x1500000C) := by decide

/-- D6.12: an illegal word after the blob. -/
theorem test_illegal : seen (step (aaabPacked.withFetchWord 32 0x00000001)) (fun t => (statusWord t, t.errinfo)) =
    some (0x00010130, 0x00000001) := by decide

/-! ### The host's transactions (P6) -/

/-- P6, steps 2 to 4: ID, CAPR and a reserved offset. -/
theorem test_bus_reads :
    seen (step { State.reset with host := [.read 0x2C .word] }) (fun t => t.rdata) = some 0x48554601 ∧
    seen (step { State.reset with host := [.read 0x30 .word] }) (fun t => t.rdata) = some 0x00010000 ∧
    seen (step { State.reset with host := [.read 0x34 .word], rdata := 9 }) (fun t => t.rdata) = some 0 := by decide

/-- P6, steps 5, 6 and 9: a read-only register, an accepted and a dropped CMD write. -/
theorem test_bus_writes :
    step { State.reset with host := [.write 0x04 .word 0xFFFFFFFF] } = .next State.reset ∧
    seen (step { State.reset with host := [.write 0x00 .word 0x02000061] }) (fun t => (t.busy, t.pending)) =
      some (true, 0x02000061) ∧
    seen (step { State.reset with busy := true, pending := 0x02000061, host := [.write 0x00 .word 0x02000062] })
      (fun t => (t.ovr, t.pending)) = some (true, 0x02000061) :=
  ⟨rfl, by decide, by decide⟩

/-- The end of P6 without its step 14: the run has ended with OVR = 1, so the program is not correct. -/
theorem test_end_of_run : ({ State.reset with inlen := 1, ovr := true } : State).ended = true ∧
    ({ State.reset with inlen := 1, ovr := true } : State).endedCorrectly = false ∧ State.reset.endedCorrectly = true := by decide

/-- P6, step 14: reset discards the pending command. -/
theorem test_bus_reset : step { State.reset with busy := true, ovr := true, pending := 0x02000062, host := [.reset], inlen := 1 } =
    .next State.reset := rfl

/-- P6, steps 6, 10 and 11 as ISSUE writes them (R72): the first event of the script, and the core step. -/
theorem test_issue_script :
    issueScript Config.standard (.push 0x61) 1 =
      [.write 0 .word 0x02000061, .read 4 .word, .coreTurn, .read 4 .word] ∧
    encodeProgram ['a'] = [.clear, .push 0x61, .encode] ∧ readBlobProgram 2 = [.rdBlob 0, .rdBlob 1] ∧
    seen (step { State.reset with busy := true, ovr := true, pending := 0x02000061, host := [.coreTurn] })
      (fun t => (t.inlen, statusWord t)) = some (1, 0x00000002) := by decide

/-! ### States that meet the hypotheses of the obligations -/

theorem seen_eq_some {α : Type} {r : Result} {f : State → α} {a : α} (h : seen r f = some a) : ∃ t, r = .next t ∧ f t = a := by
  cases r with
  | next t => exact ⟨t, rfl, Option.some.inj h⟩
  | fault x => cases h
  | refused x => cases h

theorem counts_aaab : aaab.CountsOk :=
  ⟨by decide +kernel, by decide +kernel, by decide +kernel, by decide +kernel, by decide +kernel, by decide +kernel⟩

theorem arena_aaab : aaabTree.ArenaOk :=
  ⟨by decide +kernel, by decide +kernel, by decide +kernel, by decide +kernel, by decide +kernel, by decide +kernel⟩

theorem counts_fib10 : fib10.CountsOk :=
  ⟨by decide +kernel, by decide +kernel, by decide +kernel, by decide +kernel, by decide +kernel, by decide +kernel⟩

theorem arena_fib10 : fib10Tree.ArenaOk :=
  ⟨by decide +kernel, by decide +kernel, by decide +kernel, by decide +kernel, by decide +kernel, by decide +kernel⟩

/-- Phase COLLECT. -/
theorem inv_aaab : aaab.Inv where
  legal := by decide
  arrays := by decide
  len_le := by decide
  n_le := by decide
  counts := counts_aaab
  errors := fun _ => ⟨rfl, rfl⟩
  phaseOk := ⟨rfl, rfl, ⟨rfl, rfl⟩, rfl, rfl⟩

/-- Phase TREE. -/
theorem inv_aaabTree : aaabTree.Inv where
  legal := by decide
  arrays := by decide
  len_le := by decide
  n_le := by decide
  counts := CountsOk_congr counts_aaab rfl rfl rfl rfl rfl
  errors := fun _ => ⟨rfl, rfl⟩
  phaseOk := ⟨arena_aaab, ⟨rfl, rfl⟩, rfl, rfl⟩

/-- Phase CODED. -/
theorem inv_aaabCoded : aaabCoded.Inv where
  legal := by decide
  arrays := by decide
  len_le := by decide
  n_le := by decide
  counts := CountsOk_congr counts_aaab rfl rfl rfl rfl rfl
  errors := fun _ => ⟨rfl, rfl⟩
  phaseOk := ⟨ArenaOk_congr arena_aaab rfl rfl rfl rfl rfl rfl rfl, (by decide +kernel : codeTable _ = some _), by decide +kernel, rfl, rfl⟩

/-- Phase PACKED. -/
theorem inv_aaabPacked : aaabPacked.Inv where
  legal := by decide
  arrays := by decide
  len_le := by decide
  n_le := by decide
  counts := CountsOk_congr counts_aaab rfl rfl rfl rfl rfl
  errors := fun _ => ⟨rfl, rfl⟩
  phaseOk := ⟨ArenaOk_congr arena_aaab rfl rfl rfl rfl rfl rfl rfl, (by decide +kernel : codeTable _ = some _), by decide +kernel, by decide +kernel, by decide +kernel, by decide +kernel⟩

/-- Phase FAILED. -/
theorem inv_fib10Failed : fib10Failed.Inv where
  legal := by decide
  arrays := by decide +kernel
  len_le := by decide +kernel
  n_le := by decide +kernel
  counts := CountsOk_congr counts_fib10 rfl rfl rfl (by simp only [fib10Failed, fib10Tree]) rfl
  errors := fun h => by cases h
  phaseOk := ⟨ArenaOk_congr arena_fib10 rfl rfl rfl rfl rfl rfl rfl, (by decide +kernel : codeTable _ = some _), by decide +kernel, rfl, rfl⟩

theorem inv_fib10Tree : fib10Tree.Inv where
  legal := by decide
  arrays := by decide +kernel
  len_le := by decide +kernel
  n_le := by decide +kernel
  counts := CountsOk_congr counts_fib10 rfl rfl rfl (by simp only [fib10Tree]) rfl
  errors := fun _ => ⟨rfl, rfl⟩
  phaseOk := ⟨arena_fib10, ⟨rfl, rfl⟩, rfl, rfl⟩

/-- One symbol, PACKED, SINGLE_CODE_BIT = 1. -/
theorem inv_xs9Packed : xs9Packed.Inv where
  legal := by decide
  arrays := by decide
  len_le := by decide +kernel
  n_le := by decide +kernel
  counts := ⟨by decide +kernel, by decide +kernel, by decide +kernel, by decide +kernel, by decide +kernel, by decide +kernel⟩
  errors := fun _ => ⟨rfl, rfl⟩
  phaseOk := ⟨⟨by decide +kernel, by decide +kernel, by decide +kernel, by decide +kernel, by decide +kernel, by decide +kernel⟩,
    (by decide +kernel : codeTable _ = some _), by decide +kernel, by decide +kernel, by decide +kernel, by decide +kernel⟩

/-- The invariant of a state whose arena, codes and blob belong to another state of the same input. -/
theorem inv_fib10 : fib10.Inv where
  legal := by decide
  arrays := by decide +kernel
  len_le := by decide +kernel
  n_le := by decide
  counts := counts_fib10
  errors := fun _ => ⟨rfl, rfl⟩
  phaseOk := ⟨rfl, rfl, ⟨rfl, rfl⟩, rfl, rfl⟩

/-- D4.10: SINGLE_CODE_BIT = 0. -/
def xs9Packed0 : State :=
  { xs9Packed with
    cfg := Config.standard, cbits := []
    outbuf := [(0, 0x01), (1, 0x78), (2, 0x01), (7, 0x09)] }

theorem inv_xs9Packed0 : xs9Packed0.Inv where
  legal := by decide
  arrays := by decide
  len_le := by decide
  n_le := by decide
  counts := CountsOk_congr inv_xs9Packed.counts rfl rfl rfl rfl rfl
  errors := fun _ => ⟨rfl, rfl⟩
  phaseOk := ⟨ArenaOk_congr inv_xs9Packed.phaseOk.1 rfl rfl rfl rfl rfl rfl rfl,
    (by decide +kernel : codeTable _ = some _), by decide +kernel, by decide +kernel, by decide +kernel, by decide +kernel⟩

/-- The empty input in CODED (D3.7). -/
theorem inv_emptyCoded : emptyCoded.Inv where
  legal := by decide
  arrays := by decide
  len_le := by decide
  n_le := by decide
  counts := ⟨by decide +kernel, by decide +kernel, by decide +kernel, by decide +kernel, by decide +kernel, by decide +kernel⟩
  errors := fun _ => ⟨rfl, rfl⟩
  phaseOk := ⟨⟨by decide, by decide, by decide, by decide, by decide, by decide⟩,
    (by decide +kernel : codeTable _ = some _), by decide +kernel, rfl, rfl⟩

/-! #### Encoding and decode -/

theorem witness_EncodeOfDecode : decode 0x14000061#32 = .ok (.rdCode 0x61) ∧ decode 0x06000000#32 = .ok .encode := ⟨rfl, rfl⟩

theorem not_ok_of_error {w : Word} {x : Illegal} (h : decode w = .error x) (i : Instr) : decode w ≠ .ok i := by simp [h]

/-- A reserved opcode and a non-zero ARG; with the host's list empty and with a turn of the core before a coming event. -/
theorem witness_IllegalWordCompletes :
    let s : State := { State.reset with busy := true, pending := 0x07000000#32 }
    let u : State := { State.reset with busy := true, pending := 0x03000001#32, host := [.coreTurn, .reset] }
    (s.pending = 0x07000000#32 ∧ (∀ i, decode 0x07000000#32 ≠ .ok i) ∧ s.busy = true ∧ s.host = []) ∧
    (u.pending = 0x03000001#32 ∧ (∀ i, decode 0x03000001#32 ≠ .ok i) ∧ u.busy = true ∧ u.host = .coreTurn :: [.reset]) :=
  ⟨⟨rfl, not_ok_of_error (x := .reservedOpcode) rfl, rfl, rfl⟩, rfl, not_ok_of_error (x := .nonzeroArg) rfl, rfl, rfl⟩

theorem witness_StepRunsDecodedCommand :
    (decode 0x00000000#32 = .ok .nop ∧ ({ State.reset with busy := true } : State).pending = 0 ∧
      ({ State.reset with busy := true } : State).host = []) ∧
    (decode (BitVec.ofNat 32 0x02000061) = .ok (.push 0x61) ∧ 0x02000061 < 2 ^ 32) ∧
    ({ State.reset with busy := true, host := [.coreTurn] } : State).host = .coreTurn :: [] ∧
    (State.reset.busy = false ∧ State.reset.host = []) :=
  ⟨⟨rfl, rfl, rfl⟩, ⟨rfl, by decide⟩, rfl, rfl, rfl⟩

/-- PACK is not accepted in COLLECT and accepted in CODED, RD_NODE not in COLLECT and accepted in FAILED. -/
theorem witness_PhaseCheck :
    aaab.phase ≠ .coded ∧ (aaabCoded.phase = .coded ∧ ∃ t, exec .pack aaabCoded = .next t) ∧
    ¬ (aaab.phase = .tree ∨ aaab.phase = .coded ∨ aaab.phase = .packed ∨ aaab.phase = .failed) ∧
    ∃ t, exec (.rdNode 0) fib10Failed = .next t :=
  ⟨by decide, ⟨rfl, _, rfl⟩, by decide, _, rfl⟩

/-! #### Errors -/

theorem witness_FailureLeavesData :
    (∃ t, exec (.push 0x63) full2 = .next t ∧ t.lasterr = .full) ∧
    (∃ t, exec .codes fib10Tree = .next t ∧ t.lasterr = .codeTooLong) :=
  ⟨⟨_, rfl, rfl⟩, seen_eq_some (f := fun t => t.lasterr) (by decide +kernel)⟩

/-- A reset and a CLEAR; an error kept, a first error, none, a step of the host, and a first CODE_TOO_LONG. -/
theorem witness_ErrorRecordSticky :
    (∃ t, step { fib10Failed with host := [.reset] } = .next t ∧ t.err = .none) ∧
    (∃ t, step { fib10Failed with busy := true, pending := 0x01000000 } = .next t ∧ t.err = .none) ∧
    (∃ t, step { fib10Failed with busy := true, pending := 0x05000000 } = .next t ∧ t.err ≠ .none ∧ t.lasterr = .sequence) ∧
    (∃ t, step { full2 with busy := true, pending := 0x02000063 } = .next t ∧ t.err = .full ∧ t.err ≠ .codeTooLong) ∧
    (∃ t, step { full2 with busy := true, pending := 0x00000000 } = .next t ∧ t.err = .none) ∧
    (∃ t, step { full2 with host := [.write 0 .word 0x05000000] } = .next t ∧ t.err = full2.err) ∧
    (∃ t, step { fib10Tree with busy := true, pending := 0x04000000 } = .next t ∧ t.err = .codeTooLong) :=
  ⟨⟨_, rfl, rfl⟩, ⟨_, rfl, rfl⟩, ⟨_, rfl, by decide, rfl⟩, ⟨_, rfl, rfl, by decide⟩, ⟨_, rfl, rfl⟩, ⟨_, rfl, rfl⟩,
    seen_eq_some (f := fun t => t.err) (by decide +kernel)⟩

theorem witness_ResultRegisters :
    (∃ t, exec (.rdUniq 2) aaabPacked = .next t ∧ t.lasterr ≠ .none) ∧
    (∃ t, exec .nop aaabPacked = .next t) ∧ Instr.nop.mnemonic ∈ [Mnemonic.nop, .push, .build, .codes, .pack, .encode] ∧
    (∃ t, exec (.rdBlob 11) aaabPacked = .next t ∧ t.lasterr = .none) ∧
    (∃ t, exec .clear aaabPacked = .next t) :=
  ⟨⟨_, rfl, by decide⟩, ⟨_, rfl⟩, by decide, ⟨_, rfl, rfl⟩, ⟨_, rfl⟩⟩

/-! #### The symbol counter -/

theorem witness_PushDropsOutOfRange : full2.phase = .collect ∧ 127 < (128 : Arg).toNat ∧ 127 < (0xFFFFFF : Arg).toNat := by decide

theorem witness_PushFull : full2.phase = .collect ∧ (127 : Arg).toNat ≤ 127 ∧ full2.len = full2.cfg.cap := by decide

/-- The last free place of INBUF: CAP = 5 with "aaab" pushed, a first and a repeated occurrence. -/
theorem witness_PushAccepted :
    let s : State := { aaab with cfg := { Config.standard with cap := 5 } }
    s.cfg.legal = true ∧ s.arraysWf = true ∧ s.phase = .collect ∧ (127 : Arg).toNat ≤ 127 ∧ s.len < s.cfg.cap ∧
      s.len + 1 = s.cfg.cap ∧ (s.countAt ((127 : Arg).setWidth 7) = 0 ∧ s.n < 128) ∧
      s.countAt ((0x61 : Arg).setWidth 7) ≠ 0 ∧ (s.countAt ((0x61 : Arg).setWidth 7)).toNat + 1 < 2 ^ 32 := by decide

theorem witness_CountingInvariant :
    aaab.cfg.legal = true ∧ aaab.arraysWf = true ∧ aaab.len ≤ aaab.cfg.cap ∧ aaab.CountsOk ∧
      ∃ t, step (aaab.withFetchWord 32 0x02000063) = .next t :=
  ⟨by decide, by decide, by decide, counts_aaab, _, rfl⟩

/-! #### The tree builder -/

theorem witness_ExtractionOrder :
    [0, 1, 2] ≠ [] ∧ [0, 1, 2].Pairwise (· < ·) ∧
      (∀ k ∈ [0, 1], weightAt (buildState (fun _ => 0) (aabb .fifo)).node 1 ≤ weightAt (buildState (fun _ => 0) (aabb .fifo)).node k) := by
  decide

theorem witness_BuildCompletes :
    (aaab.arraysWf = true ∧ aaab.phase = .collect ∧ aaab.n ≤ 128 ∧ leafWeight aaab < 2 ^ 32) ∧
    (State.reset.arraysWf = true ∧ State.reset.phase = .collect ∧ State.reset.n = 0 ∧ leafWeight State.reset < 2 ^ 32) := by
  decide

theorem witness_BuildEdgeCases :
    (State.reset.arraysWf = true ∧ State.reset.phase = .collect ∧ State.reset.n = 0) ∧
    (xs9.arraysWf = true ∧ xs9.phase = .collect ∧ xs9.n = 1) := by decide

theorem witness_BuildMakesSoundArena :
    (aabb .any).cfg.legal = true ∧ (aabb .any).arraysWf = true ∧ (aabb .any).len ≤ (aabb .any).cfg.cap ∧
      (aabb .any).n ≤ 128 ∧ (aabb .any).CountsOk :=
  ⟨by decide, by decide, by decide, by decide,
    by decide +kernel, by decide +kernel, by decide +kernel, by decide +kernel, by decide +kernel, by decide +kernel⟩

theorem witness_TreeInvariants : aaabTree.Inv ∧ aaabTree.phase ≠ .collect ∧ 1 ≤ aaabTree.n :=
  ⟨inv_aaabTree, by decide, by decide⟩

/-- Two internal nodes, one after the other; the same input for both statements on the tie-break. -/
theorem witness_ExtractedWeightsNondecreasing :
    abra.arraysWf = true ∧ abra.n ≤ 128 ∧ leafWeight abra < 2 ^ 32 ∧ abra.n ≤ 5 ∧ 5 + 1 < 2 * abra.n - 1 := by decide

theorem witness_FifoExtractsInOrder :
    abra.cfg.tieBreak = .fifo ∧ abra.arraysWf = true ∧ abra.n ≤ 128 ∧ leafWeight abra < 2 ^ 32 ∧ abra.n ≤ 5 ∧
      5 + 1 < 2 * abra.n - 1 := by decide

theorem witness_TieBreakKeepsWeights :
    (aabb .any).arraysWf = true ∧ (aabb .any).n ≤ 128 ∧ leafWeight (aabb .any) < 2 ^ 32 ∧
      (aabb .any).n ≤ 2 ∧ 2 < 2 * (aabb .any).n - 1 := by decide

/-! #### The code table -/

theorem witness_CodesCompletes :
    (aaabTree.phase = .tree ∧ aaabTree.n ≤ 128 ∧ aaabTree.ArenaOk ∧ 2 ≤ aaabTree.n ∧ aaabTree.uniqList.Nodup ∧
      ∃ t, exec .codes aaabTree = .next t ∧ ∀ i < aaabTree.n, (t.clenAt (aaabTree.uniqAt i)).toNat ≤ 8) ∧
    (fib10Tree.phase = .tree ∧ fib10Tree.n ≤ 128 ∧ fib10Tree.ArenaOk ∧
      8 < (fib10Failed.clenAt (fib10Tree.uniqAt 0)).toNat) :=
  ⟨⟨rfl, by decide, arena_aaab, by decide, by decide, _, rfl, by decide +kernel⟩, rfl, by decide, arena_fib10, by decide⟩

theorem witness_CodesEdgeCases :
    (emptyTree.phase = .tree ∧ emptyTree.n = 0) ∧ (xs9Tree.phase = .tree ∧ xs9Tree.n = 1) := by decide

/-- Two symbols; one symbol; an absent symbol; a too-long code. -/
theorem witness_CodesFollowTree :
    (aaabCoded.Inv ∧ aaabCoded.hasCodes = true ∧ 2 ≤ aaabCoded.n ∧ (aaabCoded.clenAt (aaabCoded.uniqAt 1)).toNat ≤ 8 ∧
      0x7F ∉ aaabCoded.uniqList) ∧
    (xs9Packed.Inv ∧ xs9Packed.hasCodes = true ∧ xs9Packed.n = 1) ∧
    (fib10Failed.Inv ∧ fib10Failed.hasCodes = true ∧ 8 < (fib10Failed.clenAt (fib10Failed.uniqAt 0)).toNat) :=
  ⟨⟨inv_aaabCoded, rfl, by decide, by decide, by decide⟩, ⟨inv_xs9Packed, rfl, rfl⟩, inv_fib10Failed, rfl, by decide⟩

theorem witness_CodesArePrefixFree :
    aaabCoded.Inv ∧ aaabCoded.phase = .coded ∧ aaabPacked.Inv ∧ aaabPacked.phase = .packed ∧ 0x61 ∈ aaabCoded.uniqList ∧
      codeBits aaabCoded 0x61 <+: codeBits aaabCoded 0x61 :=
  ⟨inv_aaabCoded, rfl, inv_aaabPacked, rfl, by decide, List.prefix_rfl⟩

theorem witness_CodesAreComplete :
    (emptyCoded.Inv ∧ emptyCoded.hasCodes = true ∧ emptyCoded.n = 0) ∧
    (xs9Packed.Inv ∧ xs9Packed.hasCodes = true ∧ xs9Packed.n = 1) ∧
    (fib10Failed.Inv ∧ fib10Failed.hasCodes = true ∧ 2 ≤ fib10Failed.n) :=
  ⟨⟨inv_emptyCoded, rfl, rfl⟩, ⟨inv_xs9Packed, rfl, rfl⟩, inv_fib10Failed, rfl, by decide⟩

theorem witness_WhenCodesTooLong :
    (aaabTree.Inv ∧ aaabTree.phase = .tree ∧ aaabTree.n ≤ 9) ∧
    (fib10Tree.Inv ∧ fib10Tree.phase = .tree ∧ 10 ≤ fib10Tree.n ∧
      ∃ i < fib10Tree.n, ∀ d ≤ 8, climb fib10Tree.node i d ≠ fib10Tree.root.toNat) :=
  ⟨⟨inv_aaabTree, rfl, by decide⟩, inv_fib10Tree, rfl, by decide, 0, by decide, by decide +kernel⟩

/-! #### The bit-packer -/

theorem witness_PackCompletes :
    (aaabCoded.cfg.legal = true ∧ aaabCoded.arraysWf = true ∧ aaabCoded.phase = .coded ∧ aaabCoded.n ≤ 128 ∧
      aaabCoded.len ≤ aaabCoded.cfg.cap ∧ (∀ i < aaabCoded.n, (aaabCoded.clenAt (aaabCoded.uniqAt i)).toNat ≤ 8) ∧
      ∀ j < aaabCoded.len, (aaabCoded.clenAt (aaabCoded.inputAt j)).toNat ≤ 8) := by decide

/-- For BlobHeader, BlobPayload, BlobIdentities and MachineInvariant. -/
theorem witness_Packed : aaabPacked.Inv ∧ aaabPacked.phase = .packed := ⟨inv_aaabPacked, rfl⟩

/-- Payload bits before and after BITLEN, which is 4. -/
theorem witness_BlobPayload :
    3 < aaabPacked.bitlen.toNat ∧ aaabPacked.bitlen.toNat ≤ 4 ∧ 4 < 8 * ((aaabPacked.bitlen.toNat + 7) / 8) := by decide

theorem witness_EmptyBlob :
    emptyCoded.arraysWf = true ∧ emptyCoded.phase = .coded ∧ emptyCoded.len = 0 ∧ emptyCoded.n = 0 := by decide

theorem witness_SingleSymbolBlob :
    (xs9Packed0.Inv ∧ xs9Packed0.phase = .packed ∧ xs9Packed0.n = 1 ∧ xs9Packed0.cfg.singleCodeBit = 0) ∧
    (xs9Packed.Inv ∧ xs9Packed.phase = .packed ∧ xs9Packed.n = 1 ∧ xs9Packed.cfg.singleCodeBit = 1 ∧ xs9Packed.len % 8 ≠ 0 ∧
      0 < xs9Packed.len / 8) :=
  ⟨⟨inv_xs9Packed0, rfl, rfl, rfl⟩, inv_xs9Packed, rfl, rfl, rfl, by decide, by decide⟩

theorem witness_PayloadParsesUniquely :
    aaabPacked.Inv ∧ aaabPacked.phase = .packed ∧ (∀ x ∈ [0x61, 0x61, 0x61, 0x62], x ∈ aaabPacked.uniqList) ∧
      aaabPacked.inputList = [0x61, 0x61, 0x61, 0x62] :=
  ⟨inv_aaabPacked, rfl, by decide, by decide⟩

/-- Two states of the same input that differ in an array's unspecified entries. -/
theorem witness_BlobIsFunctionOfInput :
    let t : State := { aaab with outbuf := [(0, 0x55)] }
    aaab.Inv ∧ t.Inv ∧ aaab.phase = .collect ∧ t.phase = .collect ∧ aaab.cfg = t.cfg ∧ aaab.cfg.tieBreak = .fifo ∧
      aaab.inputList = t.inputList ∧ ∃ s', exec .encode aaab = .next s' ∧ s'.phase = .packed :=
  ⟨inv_aaab,
    { legal := by decide, arrays := by decide, len_le := by decide, n_le := by decide
      counts := CountsOk_congr counts_aaab rfl rfl rfl rfl rfl, errors := fun _ => ⟨rfl, rfl⟩
      phaseOk := ⟨rfl, rfl, ⟨rfl, rfl⟩, rfl, rfl⟩ },
    rfl, rfl, rfl, rfl, rfl, _, rfl, by decide +kernel⟩

theorem witness_EncodeCompletes :
    (aaab.Inv ∧ aaab.phase = .collect) ∧ (fib10.Inv ∧ fib10.phase = .collect) := ⟨⟨inv_aaab, rfl⟩, inv_fib10, rfl⟩

/-! #### Read-back -/

theorem witness_ReadCounterArrays :
    (127 : Arg).toNat ≤ 127 ∧ ((1 : Arg).toNat < aaab.n ∧ aaab.n ≤ 128) ∧ ((3 : Arg).toNat < aaab.len ∧ aaab.len ≤ aaab.cfg.cap) := by
  decide

theorem witness_ReadTreeCodesBlob :
    (aaabTree.phase ≠ .collect ∧ (2 : Arg).toNat < aaabTree.nnodes.toNat) ∧
    (aaabCoded.phase ≠ .collect ∧ aaabCoded.phase ≠ .tree ∧ (127 : Arg).toNat ≤ 127) ∧
    (aaabPacked.phase = .packed ∧ (11 : Arg).toNat < aaabPacked.bloblen.toNat ∧
      aaabPacked.bloblen.toNat ≤ 389 + aaabPacked.cfg.cap) := by decide

theorem witness_ReadOutsideRange :
    127 < (128 : Arg).toNat ∧ aaab.n ≤ (2 : Arg).toNat ∧ aaab.len ≤ (4 : Arg).toNat ∧
      (aaabTree.phase ≠ .collect ∧ aaabTree.nnodes.toNat ≤ (3 : Arg).toNat) ∧ aaabCoded.phase = .coded ∧
      (aaabPacked.phase = .packed ∧ aaabPacked.bloblen.toNat ≤ (12 : Arg).toNat) := by decide

/-! #### The register window -/

theorem witness_CmdWrite :
    ({ State.reset with host := [.write 0 .word 1] } : State).host = .write State.reset.cfg.base .word 1 :: [] ∧
      State.reset.busy = false ∧ ({ State.reset with busy := true } : State).busy = true := ⟨rfl, rfl, rfl⟩

/-- A dropped write sets OVR; reset and CLEAR clear it. -/
theorem witness_OverrunFlag :
    (∃ t, step { State.reset with busy := true, host := [.write 0 .word 1] } = .next t ∧ t.ovr = true) ∧
    (∃ t, step { State.reset with ovr := true, host := [.reset] } = .next t ∧ t.ovr = false) ∧
    (∃ t, step { State.reset with ovr := true, busy := true, pending := 0x01000000 } = .next t ∧ t.ovr = false) :=
  ⟨⟨_, rfl, rfl⟩, ⟨_, rfl, rfl⟩, _, rfl, rfl⟩

theorem witness_IdleRegisterReads :
    ({ State.reset with host := [.read 0xFC .word] } : State).host = .read (State.reset.cfg.base + 0xFC) .word :: [] ∧
      0xFC < 256 ∧ 0xFC % 4 = 0 ∧ State.reset.busy = false := ⟨rfl, by decide, by decide, rfl⟩

theorem witness_BusyRegisterReads :
    let s : State := { State.reset with busy := true, host := [.read 0x28 .word] }
    s.host = .read (s.cfg.base + 0x28) .word :: [] ∧ 0x28 ≤ 0x28 ∧ 0x28 % 4 = 0 ∧ s.busy = true ∧ 0x04 % 4 = 0 :=
  ⟨rfl, by decide, by decide, rfl, by decide⟩

theorem witness_IdAndCapacityReads :
    ({ State.reset with host := [.read 0x2C .word] } : State).host = .read (State.reset.cfg.base + 0x2C) .word :: [] ∧
      ({ State.reset with host := [.read 0x30 .word] } : State).host = .read (State.reset.cfg.base + 0x30) .word :: [] := ⟨rfl, rfl⟩

/-- The first and the last reserved offset, and a write to STATUS. -/
theorem witness_ReservedAndReadOnly :
    ({ State.reset with host := [.read 0x34 .word] } : State).host = .read (State.reset.cfg.base + 0x34) .word :: [] ∧
      0xFC < 256 ∧ 0xFC % 4 = 0 ∧ 0x34 ≤ 0x34 ∧ 0x34 % 4 = 0 ∧
      ({ State.reset with host := [.write 0x04 .word 1] } : State).host = .write (State.reset.cfg.base + 0x04) .word 1 :: [] :=
  ⟨rfl, by decide, by decide, by decide, by decide, rfl⟩

/-- A byte read of CMD and a misaligned word write. -/
theorem witness_NarrowAndMisaligned :
    ({ State.reset with host := [.read 0 .byte] } : State).host = .read (State.reset.cfg.base + 0) .byte :: [] ∧
      AccessSize.byte ≠ .word ∧ 1 % 4 ≠ 0 ∧
      ({ State.reset with host := [.write 1 .word 1] } : State).host = .write (State.reset.cfg.base + 1) .word 1 :: [] :=
  ⟨rfl, by decide, by decide, rfl⟩

/-! #### Reset and the whole machine -/

theorem witness_ResetEvent : ({ aaabPacked with host := [.reset] } : State).host = .reset :: [] := rfl

/-- Both ends of CAP's legal range. -/
theorem witness_ResetMeetsInvariant :
    ({ Config.standard with cap := 1 } : Config).legal = true ∧ ({ Config.standard with cap := 16776827 } : Config).legal = true := by
  decide

theorem witness_ArraysStayCanonical :
    aaabPacked.arraysWf = true ∧ ∃ t, step (aaabPacked.withFetchWord 32 0x01000000) = .next t := ⟨by decide, _, rfl⟩

theorem witness_ParametersNeverChange : ∃ t, step (aaab.withFetchWord 32 0x03000000) = .next t := ⟨_, rfl⟩

/-- A reset, a CLEAR and a BUILD that change the phase. -/
theorem witness_PhaseMoves :
    (∃ t, step { aaabPacked with host := [.reset] } = .next t ∧ t.phase ≠ aaabPacked.phase) ∧
    (∃ t, step (aaabPacked.withFetchWord 32 0x01000000) = .next t ∧ t.phase ≠ aaabPacked.phase) ∧
    (∃ t, step (aaab.withFetchWord 32 0x03000000) = .next t ∧ t.phase ≠ aaab.phase) :=
  ⟨⟨_, rfl, by decide⟩, ⟨_, rfl, by decide⟩, _, rfl, by decide⟩

/-- A PUSH after BUILD (D1.11), in PACKED and in FAILED. -/
theorem witness_ResultsLiveUntilClear :
    (∃ t, step (aaabTree.withFetchWord 32 0x02000061) = .next t) ∧
    (aaabTree.withFetchWord 32 0x02000061).host.head? ≠ some .reset ∧
    decode (aaabTree.withFetchWord 32 0x02000061).pending = .ok (.push 0x61) ∧ aaabTree.phase ≠ .collect ∧
    (∃ t, step (aaabPacked.withFetchWord 32 0x02000061) = .next t ∧ aaabPacked.phase = .packed) :=
  ⟨⟨_, rfl⟩, by decide, rfl, by decide, _, rfl, rfl⟩

/-- Two states that differ in UNIQ, INBUF, NODE and OUTBUF beyond the valid counts, and in PENDING. -/
theorem witness_UnspecifiedContentsNeverMatter :
    let t : State := { aaab with
      pending := 7
      inbuf := [(0, 0x61), (1, 0x61), (2, 0x61), (3, 0x62), (4, 0x63)]
      uniq := [(0, 0x61), (1, 0x62), (2, 0x63)]
      node := [(0, nd 1 1 1 1 1)]
      outbuf := [(0, 0x55)] }
    aaab.Inv ∧ t.Inv ∧ aaab.Agree t ∧ aaab.pending ≠ t.pending :=
  ⟨inv_aaab,
    { legal := by decide, arrays := by decide, len_le := by decide, n_le := by decide
      counts := ⟨by decide +kernel, by decide +kernel, by decide +kernel, by decide +kernel, by decide +kernel, by decide +kernel⟩
      errors := fun _ => ⟨rfl, rfl⟩
      phaseOk := ⟨rfl, rfl, ⟨rfl, rfl⟩, rfl, rfl⟩ },
    { rest := rfl, uniq := by decide, inbuf := by decide, node := by decide, outbuf := by decide
      pending := fun h => by cases h },
    by decide⟩

end Sys2Proof.Machine.Tests
end

section
/-! SUPPORT. The parameters of R6: each way a step can end leaves them alone. -/

namespace Sys2Proof.Machine

@[simp] theorem resetCore_cfg (s : State) : (resetCore s).cfg = s.cfg := rfl

@[simp] theorem readReg_cfg (r : Reg) (s : State) : (readReg r s).cfg = s.cfg := by
  unfold readReg
  split <;> rfl

@[simp] theorem busRead_cfg (size : AccessSize) (off : BitVec 8) (s : State) : (busRead size off s).cfg = s.cfg := by
  unfold busRead
  split
  · split
    · exact readReg_cfg _ s
    · rfl
  · rfl

@[simp] theorem issueCommand_cfg (w : Word) (s : State) : (issueCommand w s).cfg = s.cfg := by
  unfold issueCommand
  split <;> rfl

@[simp] theorem busWrite_cfg (size : AccessSize) (off : BitVec 8) (v : Word) (s : State) :
    (busWrite size off v s).cfg = s.cfg := by
  unfold busWrite
  split
  · exact issueCommand_cfg v s
  · rfl

/-- No command, and no word that is none, changes a parameter. -/
theorem coreStep_cfg {s t : State} (h : coreStep s = .next t) : t.cfg = s.cfg := by
  rcases coreStep_eq_next h with ⟨_, -, rfl⟩ | ⟨_, u, -, hu, rfl⟩
  · simp
  · obtain ⟨-, -, hcfg, -⟩ := exec_frame hu
    simpa using hcfg

/-- Settles O55, by the cases of a step: the core's turn, a reset, a read and a write. -/
theorem parametersNeverChange : Obligations.ParametersNeverChange := by
  intro s t h
  rcases step_eq_next h with
    ⟨_, -, ⟨-, hcore⟩ | ⟨-, rfl⟩⟩ | ⟨_, -, rfl⟩ |
    ⟨_, _, size, -, ⟨-, rfl⟩ | ⟨off, -, rfl⟩⟩ | ⟨_, _, size, v, -, ⟨-, rfl⟩ | ⟨off, -, rfl⟩⟩
  · rw [coreStep_cfg hcore]
  · rfl
  · exact resetCore_cfg _
  · rfl
  · exact busRead_cfg size off _
  · rfl
  · exact busWrite_cfg size off v _

end Sys2Proof.Machine
end

section
/-! SUPPORT. The forest of the merge loop (R84): what every turn keeps. The links are said of the arena alone
(`LinksUp`), as CODES needs them. -/

namespace Sys2Proof.Machine

/-- What the merge loop keeps: the eligible nodes are different and below `next`, the arena has room for the merges still
to come, and among the nodes below `next` the eligible ones alone have no parent, the parent of any other being younger. -/
structure Forest.Sound (f : Forest) : Prop where
  nodup : f.eligible.Nodup
  below : ∀ j ∈ f.eligible, j < f.next
  room : f.next + f.eligible.length ≤ 256
  wf : Memory.wf maxNodes f.node = true
  eligible_par : ∀ i ∈ f.eligible, (Memory.read f.node i).par = nil
  merged_par : ∀ i < f.next, i ∉ f.eligible →
    i < (Memory.read f.node i).par.toNat ∧ (Memory.read f.node i).par.toNat < f.next

theorem mergeOnce_sound (tb : TieBreak) (choice : Nat → Nat) {f : Forest} (h : f.Sound) (hl : 2 ≤ f.eligible.length) :
    (mergeOnce tb choice f).Sound := by
  obtain ⟨a, b, ha, hb, hab, -, -, e⟩ := mergeOnce_spec tb choice f h.nodup hl
  obtain ⟨hnodup, hbelow⟩ := mergeOnce_nodup tb choice f h.nodup h.below hl
  have hlen := mergeOnce_length tb choice f h.nodup hl
  have hroom := h.room
  have han := h.below a ha
  have hbn := h.below b hb
  have hk : f.next < maxNodes := by simp only [maxNodes_eq]; omega
  have hread := linkNodes_read h.wf (a := a) (b := b) (k := f.next) (by omega) hk (by omega) (by omega) hab
  have hmem : ∀ i, i ∈ (f.eligible.erase a).erase b ↔ (i ≠ b ∧ i ≠ a ∧ i ∈ f.eligible) := fun i => by
    rw [(h.nodup.erase a).mem_erase_iff, h.nodup.mem_erase_iff]
  have hnext : (BitVec.ofNat 8 f.next).toNat = f.next := by
    rw [BitVec.toNat_ofNat, Nat.mod_eq_of_lt (by omega)]
  rw [e] at hnodup hbelow hlen ⊢
  refine ⟨hnodup, hbelow, by simp only at hlen ⊢; omega, linkNodes_wf h.wf (by omega) (by omega) hk, ?_, ?_⟩
  · intro i hi
    simp only [hread]
    rcases List.mem_append.1 hi with hi | hi
    · obtain ⟨hib, hia, hiE⟩ := (hmem i).1 hi
      have := h.below i hiE
      rw [if_neg (by omega), if_neg (by tauto), h.eligible_par i hiE]
    · rw [if_pos (List.mem_singleton.1 hi)]
  · intro i hi hiE
    simp only [List.mem_append, List.mem_singleton, not_or, hmem] at hi hiE ⊢
    simp only [hread, if_neg hiE.2]
    by_cases hiab : i = a ∨ i = b
    · rw [if_pos hiab]
      simp only [hnext]
      omega
    · have := h.merged_par i (by omega) (by tauto)
      rw [if_neg hiab]
      omega

theorem mergeAll_sound (tb : TieBreak) (choice : Nat → Nat) : ∀ (fuel : Nat) {f : Forest}, f.Sound →
    (mergeAll tb choice fuel f).Sound
  | 0, _, h => h
  | fuel + 1, f, h => by
    rw [mergeAll]
    split_ifs with hl
    · exact h
    · exact mergeAll_sound tb choice fuel (mergeOnce_sound tb choice h (by omega))

/-- The forest after step 1 of R84: the leaves, all eligible. -/
def leafForest (s : State) : Forest :=
  { node := seedLeaves s.count s.uniq (List.range s.n) s.node, eligible := List.range s.n, next := s.n, draw := s.draws }

theorem buildForest_eq (choice : Nat → Nat) (s : State) :
    buildForest choice s = mergeAll s.cfg.tieBreak choice s.n (leafForest s) := rfl

theorem leafForest_sound {s : State} (hw : Memory.wf maxNodes s.node = true) (hn : s.n ≤ asize) : (leafForest s).Sound where
  nodup := List.nodup_range
  below := fun _ hj => List.mem_range.1 hj
  room := by simp only [leafForest, List.length_range]; simp only [asize_eq] at hn; omega
  wf := seedLeaves_wf _ _ _ _ (fun i hi => by
    simp only [asize_eq, maxNodes_eq] at hn ⊢
    have := List.mem_range.1 hi
    omega) hw
  eligible_par := fun i hi => by
    simp only [asize_eq] at hn
    simp only [leafForest] at hi ⊢
    rw [seedLeaves_read (by simp only [maxNodes_eq]; omega) _ _ _ hw, if_pos (List.mem_range.1 hi)]
    rfl
  merged_par := fun i hi hiE => absurd (List.mem_range.2 hi) hiE

theorem buildForest_sound (choice : Nat → Nat) {s : State} (hw : Memory.wf maxNodes s.node = true) (hn : s.n ≤ asize) :
    (buildForest choice s).Sound :=
  mergeAll_sound _ _ _ (leafForest_sound hw hn)

/-- R86: the merge loop ends with 2N - 1 nodes. -/
theorem buildForest_next (choice : Nat → Nat) {s : State} (hw : Memory.wf maxNodes s.node = true) (hn : s.n ≤ asize) :
    (buildForest choice s).next = 2 * s.n - 1 := by
  have h := leafForest_sound hw hn
  rw [buildForest_eq]
  by_cases h0 : s.n = 0
  · rw [h0]
    exact h0
  · have hlen : (leafForest s).eligible.length = s.n := List.length_range
    obtain ⟨-, hnext, -⟩ := mergeAll_shape s.cfg.tieBreak choice s.n (leafForest s) h.nodup h.below (by omega) (by omega)
    rw [hnext, hlen]
    simp only [leafForest]
    omega

/-- Every node below `k` has no parent or a younger one below `k`. -/
def LinksUp (node : Memory Node) (k : Nat) : Prop :=
  ∀ i < k, (Memory.read node i).par = nil ∨ (i < (Memory.read node i).par.toNat ∧ (Memory.read node i).par.toNat < k)

theorem Forest.Sound.linksUp {f : Forest} (h : f.Sound) : LinksUp f.node f.next := fun i hi => by
  by_cases hE : i ∈ f.eligible
  · exact .inl (h.eligible_par i hE)
  · exact .inr (h.merged_par i hi hE)

theorem State.ArenaOk.linksUp {s : State} (h : s.ArenaOk) : LinksUp s.node s.nnodes.toNat := fun i hi => by
  obtain ⟨hroot, hother⟩ := h.parent i hi
  by_cases hr : i = s.root.toNat
  · exact .inl (hroot hr)
  · obtain ⟨hlt, hle, -⟩ := hother hr
    exact .inr ⟨hlt, hle⟩

end Sys2Proof.Machine
end

section
/-! SUPPORT. The canonical form of the arrays (R34 to R40; log entry 14): every meaning keeps it. -/

namespace Sys2Proof.Machine

theorem arraysWf_iff {s : State} : s.arraysWf = true ↔
    Memory.wf asize s.count = true ∧ Memory.wf asize s.uniq = true ∧ Memory.wf s.cfg.cap s.inbuf = true ∧
    Memory.wf maxNodes s.node = true ∧ Memory.wf asize s.clen = true ∧ Memory.wf asize s.cbits = true ∧
    Memory.wf (hdrMax + s.cfg.cap) s.outbuf = true := by
  simp only [State.arraysWf, Bool.and_eq_true, and_assoc]

theorem pushInside_iff {x : Sym} {s : State} :
    pushInside x s = true ↔ s.len < s.cfg.cap ∧ (s.countAt x = 0 → s.n < asize) := by
  simp only [pushInside, Bool.and_eq_true, Bool.or_eq_true, decide_eq_true_eq, ne_eq, ← imp_iff_not_or]

theorem pushState_arraysWf {x : Sym} {s : State} (h : s.arraysWf = true) (hi : pushInside x s = true) :
    (pushState x s).arraysWf = true := by
  obtain ⟨hcount, huniq, hinbuf, hnode, hclen, hcbits, houtbuf⟩ := arraysWf_iff.1 h
  obtain ⟨hlen, hn⟩ := pushInside_iff.1 hi
  refine arraysWf_iff.2 ⟨Memory.wf_write hcount x.isLt _, ?_, Memory.wf_write hinbuf hlen x, hnode, hclen, hcbits, houtbuf⟩
  simp only [pushState]
  split_ifs with hc
  · exact Memory.wf_write huniq (hn hc) x
  · exact huniq

theorem buildState_arraysWf (choice : Nat → Nat) {s : State} (h : s.arraysWf = true) (hn : s.n ≤ asize) :
    (buildState choice s).arraysWf = true := by
  obtain ⟨hcount, huniq, hinbuf, hnode, hclen, hcbits, houtbuf⟩ := arraysWf_iff.1 h
  exact arraysWf_iff.2 ⟨hcount, huniq, hinbuf, (buildForest_sound choice hnode hn).wf, hclen, hcbits, houtbuf⟩

theorem codeTable_wf {s : State} {clen cbits : Memory Byte} (h : codeTable s = some (clen, cbits)) :
    Memory.wf asize clen = true ∧ Memory.wf asize cbits = true := by
  unfold codeTable at h
  split_ifs at h with h1
  · obtain ⟨rfl, rfl⟩ := Prod.mk.inj (Option.some.inj h)
    exact ⟨Memory.wf_write rfl (s.uniqAt 0).isLt _, Memory.wf_write rfl (s.uniqAt 0).isLt _⟩
  · exact deriveCodes_wf h rfl rfl

theorem codes_arraysWf {s u : State} {clen cbits : Memory Byte} (h : s.arraysWf = true)
    (hc : codeTable s = some (clen, cbits)) (hu : u = { s with clen := clen, cbits := cbits }) : u.arraysWf = true := by
  subst hu
  obtain ⟨hcount, huniq, hinbuf, hnode, -, -, houtbuf⟩ := arraysWf_iff.1 h
  obtain ⟨hclen, hcbits⟩ := codeTable_wf hc
  exact arraysWf_iff.2 ⟨hcount, huniq, hinbuf, hnode, hclen, hcbits, houtbuf⟩

theorem packInside_iff {s : State} : packInside s = true ↔
    s.n ≤ asize ∧ s.len ≤ s.cfg.cap ∧ codesFit s = true ∧ blobLength s ≤ hdrMax + s.cfg.cap := by
  simp only [packInside, Bool.and_eq_true, decide_eq_true_eq, and_assoc]

/-- OUTBUF before the payload of PACK is emitted: the count byte, the records and the length field (R99). -/
def packHeader (s : State) : Memory Byte :=
  writeLength (1 + 3 * s.n) (BitVec.ofNat 32 (totalBits s))
    (writeRecords s.cfg.codeAlign s.uniq s.clen s.cbits (List.range s.n) (Memory.write s.outbuf 0 s.nuniq))

theorem packBlob_eq (s : State) : packBlob s = emitAll (payloadStart s) 0 (bitString s) (packHeader s) := rfl

/-- The records of at most 128 symbols stand inside OUTBUF (R40, R57). -/
theorem records_inside {s : State} (hn : s.n ≤ asize) : ∀ i ∈ List.range s.n, 3 + 3 * i < hdrMax + s.cfg.cap := by
  intro i hi
  have := List.mem_range.1 hi
  simp only [asize_eq, hdrMax_eq] at hn ⊢
  omega

theorem packHeader_wf {s : State} (hw : Memory.wf (hdrMax + s.cfg.cap) s.outbuf = true) (hn : s.n ≤ asize) :
    Memory.wf (hdrMax + s.cfg.cap) (packHeader s) = true :=
  writeLength_wf (writeRecords_wf (records_inside hn) (Memory.wf_write hw (by simp only [hdrMax_eq]; omega) _))
    (by simp only [asize_eq, hdrMax_eq] at hn ⊢; omega) _

/-- The payload ends where the blob does (R55, R99). -/
theorem payload_end (s : State) : payloadStart s + (0 + (bitString s).length + 7) / 8 = blobLength s := by
  rw [bitString_length, Nat.zero_add, blobLength]

theorem packState_arraysWf {s : State} (h : s.arraysWf = true) (hi : packInside s = true) :
    (packState s).arraysWf = true := by
  obtain ⟨hcount, huniq, hinbuf, hnode, hclen, hcbits, houtbuf⟩ := arraysWf_iff.1 h
  obtain ⟨hn, -, -, hblob⟩ := packInside_iff.1 hi
  have hpacked : Memory.wf (hdrMax + s.cfg.cap) (packBlob s) = true :=
    packBlob_eq s ▸ emitAll_wf (packHeader_wf houtbuf hn) (payload_end s ▸ hblob)
  exact arraysWf_iff.2 ⟨hcount, huniq, hinbuf, hnode, hclen, hcbits, hpacked⟩

/-- Every command keeps the canonical form. -/
theorem exec_arraysWf {i : Instr} {s t : State} (h : s.arraysWf = true) (hx : exec i s = .next t) : t.arraysWf = true := by
  cases exec_did hx with
  | failed | nop | dropped | answered => exact h
  | cleared =>
    obtain ⟨-, huniq, hinbuf, hnode, -, -, houtbuf⟩ := arraysWf_iff.1 h
    exact arraysWf_iff.2 ⟨rfl, huniq, hinbuf, hnode, rfl, rfl, houtbuf⟩
  | pushed arg x _ _ _ hi _ => exact pushState_arraysWf h hi
  | built _ hn _ => exact buildState_arraysWf _ h hn
  | coded u _ _ _ _ hc hu _ => exact (codes_arraysWf h hc hu : u.arraysWf = true)
  | tooLong u _ _ _ _ _ hc hu _ => exact (codes_arraysWf h hc hu : u.arraysWf = true)
  | packed _ hi _ => exact packState_arraysWf h hi
  | encoded u _ _ _ hn _ hc hu _ hi _ =>
    have hw : u.arraysWf = true := codes_arraysWf (buildState_arraysWf _ h hn) hc hu
    exact packState_arraysWf (s := ok { u with phase := .coded }) hw hi
  | encodeTooLong u _ _ _ _ hn _ hc hu _ =>
    exact (codes_arraysWf (buildState_arraysWf _ h hn) hc hu : u.arraysWf = true)

theorem resetCore_arraysWf (s : State) : (resetCore s).arraysWf = true := rfl

end Sys2Proof.Machine
end

section
/-! SUPPORT. What a step of the machine is (20_memory.md R51), said once for the statements over every step: a core step, a
reset, a CMD write latched or dropped, or an event that leaves the core alone. -/

namespace Sys2Proof.Machine

/-- A read changes nothing but its answer and the count of free draws (R48). -/
theorem busRead_frame (size : AccessSize) (off : BitVec 8) (s : State) :
    ∃ v d, busRead size off s = { s with rdata := v, draws := d } := by
  unfold busRead
  split
  · split
    · unfold readReg
      split
      · exact ⟨_, _, rfl⟩
      · exact ⟨_, s.draws, rfl⟩
    · exact ⟨0, s.draws, rfl⟩
  · exact ⟨0, s.draws, rfl⟩

/-- A write that is no word access to CMD is ignored (R46, R49). -/
theorem busWrite_other {size : AccessSize} {off : BitVec 8} (h : ¬ (size = .word ∧ off = 0)) (v : Word) (s : State) :
    busWrite size off v s = s := by
  unfold busWrite isRegAccess
  exact if_neg (by simp only [Bool.and_eq_true, beq_iff_eq]; tauto)

theorem busWrite_cmd (v : Word) (s : State) : busWrite .word 0 v s = issueCommand v s := rfl

theorem windowOffset_inside (c : Config) {off : Nat} (h : off < 256) :
    windowOffset c (c.base + off) = some (BitVec.ofNat 8 off) := by
  unfold windowOffset
  rw [if_pos (by omega), Nat.add_sub_cancel_left]

/-- The CMD register is the window's first address alone (R14). -/
theorem windowOffset_eq_zero {c : Config} {addr : Nat} : windowOffset c addr = some 0 ↔ addr = c.base := by
  constructor
  · intro h
    unfold windowOffset at h
    split_ifs at h with hin
    have hmod : (addr - c.base) % 256 = 0 := congrArg BitVec.toNat (Option.some.inj h)
    omega
  · rintro rfl
    exact windowOffset_inside c (off := 0) (by omega)

/-- What a step does, one constructor per way. -/
inductive Moved (s : State) : State → Prop where
  | core (t : State) (hm : s.coreMoves = true) (hc : coreStep { s with host := s.host.tail } = .next t) : Moved s t
  | reset (hr : s.host.head? = some .reset) : Moved s (resetCore { s with host := s.host.tail })
  /-- The host left an idle core its turn, read, or wrote elsewhere than to CMD. -/
  | idle (v : Word) (d : Nat) (hm : s.coreMoves = false) (hr : s.host.head? ≠ some .reset) (hw : s.cmdWrite = false) :
      Moved s { s with host := s.host.tail, rdata := v, draws := d }
  | latched (w : Word) (hw : s.cmdWrite = true) (hb : s.busy = false) :
      Moved s { s with host := s.host.tail, pending := w, busy := true }
  | dropped (hw : s.cmdWrite = true) (hb : s.busy = true) : Moved s { s with host := s.host.tail, ovr := true }

theorem step_moved {s t : State} (h : step s = .next t) : Moved s t := by
  rcases step_eq_next h with
    ⟨es, hh, hcore⟩ | ⟨es, hh, rfl⟩ | ⟨es, addr, size, hh, hread⟩ | ⟨es, addr, size, v, hh, hwrite⟩
  · have hes : es = s.host.tail := by rcases hh with ⟨hh, rfl⟩ | hh <;> simp [hh]
    have hmoves : s.coreMoves = s.busy := by rcases hh with ⟨hh, -⟩ | hh <;> simp [State.coreMoves, hh]
    subst hes
    rcases hcore with ⟨hb, hc⟩ | ⟨hb, rfl⟩
    · exact .core t (by rw [hmoves, hb]) hc
    · have hidle : s.host.head? ≠ some .reset ∧ s.cmdWrite = false := by
        rcases hh with ⟨hh, -⟩ | hh <;> rw [State.cmdWrite, hh] <;> simp
      exact .idle s.rdata s.draws (by rw [hmoves, hb]) hidle.1 hidle.2
  · have hes : es = s.host.tail := by simp [hh]
    exact hes ▸ .reset (by simp [hh])
  · have hes : es = s.host.tail := by simp [hh]
    have idle : ∀ v d, Moved s { s with host := s.host.tail, rdata := v, draws := d } := fun v d =>
      .idle v d (by simp [State.coreMoves, hh]) (by simp [hh]) (by simp [State.cmdWrite, hh])
    subst hes
    rcases hread with ⟨-, rfl⟩ | ⟨off, -, rfl⟩
    · exact idle s.rdata s.draws
    · obtain ⟨v, d, e⟩ := busRead_frame size off { s with host := s.host.tail }
      exact e ▸ idle v d
  · have hes : es = s.host.tail := by simp [hh]
    have hcmd : s.cmdWrite = true ↔ addr = s.cfg.base ∧ size = .word := by simp [State.cmdWrite, hh]
    have idle : s.cmdWrite = false → Moved s { s with host := s.host.tail } := fun hw =>
      .idle s.rdata s.draws (by simp [State.coreMoves, hh]) (by simp [hh]) hw
    subst hes
    rcases hwrite with ⟨hout, rfl⟩ | ⟨off, hoff, rfl⟩
    · refine idle (eq_false_of_ne_true fun hw => ?_)
      rw [windowOffset_eq_zero.2 (hcmd.1 hw).1] at hout
      cases hout
    · by_cases hreg : size = .word ∧ off = 0
      · obtain ⟨rfl, rfl⟩ := hreg
        have hw := hcmd.2 ⟨windowOffset_eq_zero.1 hoff, rfl⟩
        rw [busWrite_cmd, issueCommand]
        split_ifs with hb
        · exact .dropped hw hb
        · exact .latched v hw (eq_false_of_ne_true hb)
      · rw [busWrite_other hreg]
        refine idle (eq_false_of_ne_true fun hw => hreg ?_)
        obtain ⟨haddr, hsize⟩ := hcmd.1 hw
        rw [windowOffset_eq_zero.2 haddr] at hoff
        exact ⟨hsize, (Option.some.inj hoff).symm⟩

theorem coreMoves_of_cmdWrite {s : State} (h : s.cmdWrite = true) : s.coreMoves = false ∧ s.host.head? ≠ some .reset := by
  unfold State.cmdWrite at h
  split at h
  · rename_i hh
    simp [State.coreMoves, hh]
  all_goals cases h

/-- Settles O54, by the cases of a step; a core step keeps the form by `exec_arraysWf`. -/
theorem arraysStayCanonical : Obligations.ArraysStayCanonical := by
  intro s t h hstep
  cases step_moved hstep with
  | core t _ hc =>
    rcases coreStep_eq_next hc with ⟨_, -, rfl⟩ | ⟨i, u, -, hx, rfl⟩
    · exact h
    · exact (exec_arraysWf (s := { s with host := s.host.tail }) h hx : u.arraysWf = true)
  | reset => exact resetCore_arraysWf _
  | idle | latched | dropped => exact h

end Sys2Proof.Machine
end

section
/-! SUPPORT. The counting invariants of R44: what PUSH does to each of the lists and sums they speak of. -/

namespace Sys2Proof.Machine

theorem uniqList_congr {s t : State} (hn : t.n = s.n) (h : ∀ i < s.n, t.uniqAt i = s.uniqAt i) : t.uniqList = s.uniqList := by
  rw [State.uniqList, hn]
  exact List.map_congr_left fun i hi => h i (List.mem_range.1 hi)

theorem inputList_congr {s t : State} (hl : t.len = s.len) (h : ∀ j < s.len, t.inputAt j = s.inputAt j) :
    t.inputList = s.inputList := by
  rw [State.inputList, hl]
  exact List.map_congr_left fun j hj => h j (List.mem_range.1 hj)

/-- COUNT after an accepted symbol. -/
theorem pushState_count_read {s : State} (h : Memory.wf asize s.count = true) (x : Sym) (k : Nat) :
    Memory.read (pushState x s).count k = if k = x.toNat then s.countAt x + 1 else Memory.read s.count k :=
  Memory.read_write h _ _ _

theorem pushState_countAt {s : State} (h : Memory.wf asize s.count = true) (x y : Sym) :
    (pushState x s).countAt y = if y = x then s.countAt x + 1 else s.countAt y := by
  simp only [State.countAt, pushState_count_read h, BitVec.toNat_inj]

theorem pushState_len {s : State} (hl : s.len + 1 < 2 ^ 32) (x : Sym) : (pushState x s).len = s.len + 1 := by
  simp only [State.len] at hl ⊢
  simp [pushState]
  omega

/-- An accepted symbol is appended to the input. -/
theorem pushState_inputList {s : State} (h : Memory.wf s.cfg.cap s.inbuf = true) (hl : s.len + 1 < 2 ^ 32) (x : Sym) :
    (pushState x s).inputList = s.inputList ++ [x] := by
  have hread : ∀ j, (pushState x s).inputAt j = if j = s.len then x else s.inputAt j := Memory.read_write h _ _
  have hold : (List.range s.len).map (pushState x s).inputAt = s.inputList :=
    List.map_congr_left fun j hj => by rw [hread, if_neg (List.mem_range.1 hj).ne]
  rw [State.inputList, pushState_len hl, List.range_succ, List.map_append, hold, List.map_singleton, hread, if_pos rfl]

/-- The first occurrence of a symbol appends it to UNIQ. -/
theorem pushState_uniqList_first {s : State} (h : Memory.wf asize s.uniq = true) (hn : s.n < asize) {x : Sym}
    (hx : s.countAt x = 0) : (pushState x s).n = s.n + 1 ∧ (pushState x s).uniqList = s.uniqList ++ [x] := by
  have hlen : (pushState x s).n = s.n + 1 := by
    simp only [State.n, asize_eq] at hn ⊢
    simp [pushState, hx]
    omega
  have hread : ∀ i, (pushState x s).uniqAt i = if i = s.n then x else s.uniqAt i := fun i => by
    simp only [State.uniqAt, pushState, hx, if_true, Memory.read_write h]
  have hold : (List.range s.n).map (pushState x s).uniqAt = s.uniqList :=
    List.map_congr_left fun i hi => by rw [hread, if_neg (List.mem_range.1 hi).ne]
  rw [State.uniqList, hlen, List.range_succ, List.map_append, hold, List.map_singleton, hread, if_pos rfl]
  exact ⟨rfl, rfl⟩

/-- A repeated symbol leaves UNIQ alone. -/
theorem pushState_uniqList_again {s : State} {x : Sym} (hx : s.countAt x ≠ 0) :
    (pushState x s).n = s.n ∧ (pushState x s).uniqList = s.uniqList := by
  have hn : (pushState x s).n = s.n := by simp only [State.n, pushState, if_neg hx]
  exact ⟨hn, uniqList_congr hn fun i _ => by simp only [State.uniqAt, pushState, if_neg hx]⟩

/-- The sum of R44 (a), as a sum over a finite set. -/
theorem sum_counts (s : State) : ((List.range asize).map fun k => (Memory.read s.count k).toNat).sum =
    ∑ k ∈ Finset.range asize, (Memory.read s.count k).toNat := rfl

/-- The symbols with a positive count, as indexes of COUNT (R44 (b)). -/
def usedSymbols (s : State) : Finset Nat := (Finset.range asize).filter fun k => Memory.read s.count k ≠ 0

theorem usedSymbols_card (s : State) :
    ((List.range asize).filter fun k => decide (Memory.read s.count k ≠ 0)).length = (usedSymbols s).card := rfl

section
variable {s : State} {x : Sym} (hw : Memory.wf asize s.count = true) (hc : (s.countAt x).toNat + 1 < 2 ^ 32)
include hw hc

theorem pushState_sum_counts : ∑ k ∈ Finset.range asize, (Memory.read (pushState x s).count k).toNat =
    (∑ k ∈ Finset.range asize, (Memory.read s.count k).toNat) + 1 := by
  have hone : ∀ k, (Memory.read (pushState x s).count k).toNat =
      (Memory.read s.count k).toNat + if k = x.toNat then 1 else 0 := fun k => by
    rw [pushState_count_read hw]
    split_ifs with hk
    · rw [hk]
      simp [State.countAt] at hc ⊢
      omega
    · rfl
  simp only [hone, Finset.sum_add_distrib, Finset.sum_ite_eq', Finset.mem_range.2 x.isLt, if_true]

theorem pushState_usedSymbols : usedSymbols (pushState x s) = insert x.toNat (usedSymbols s) := by
  have hpos : s.countAt x + 1 ≠ 0 := fun h => by
    have := congrArg BitVec.toNat h
    simp at this hc
    omega
  ext k
  simp only [usedSymbols, Finset.mem_filter, Finset.mem_insert, Finset.mem_range, pushState_count_read hw]
  by_cases hk : k = x.toNat
  · simp only [hk, if_true, true_or, iff_true]
    exact ⟨x.isLt, hpos⟩
  · simp only [hk, if_false, false_or]

end

theorem mem_usedSymbols {s : State} {x : Sym} : x.toNat ∈ usedSymbols s ↔ s.countAt x ≠ 0 := by
  rw [usedSymbols, Finset.mem_filter, Finset.mem_range, and_iff_right x.isLt, State.countAt]

namespace State.CountsOk

/-- Nothing counted and nothing stored. -/
theorem of_empty {s : State} (hc : s.count = []) (hn : s.nuniq = 0) (hl : s.inlen = 0) : s.CountsOk := by
  have hu : s.uniqList = [] := by rw [State.uniqList, State.n, hn]; rfl
  have hi : s.inputList = [] := by rw [State.inputList, State.len, hl]; rfl
  refine ⟨by simp [hc, State.len, hl], by simp [hc, State.n, hn], ?_, ?_, ?_, ?_⟩ <;>
    simp [hu, hi, State.countAt, hc]

variable {s : State} (h : s.CountsOk)
include h

/-- A symbol is counted iff it stands in the input (R44 (d)). -/
theorem countAt_ne_zero_iff {x : Sym} : s.countAt x ≠ 0 ↔ x ∈ s.inputList := by
  rw [← List.count_pos_iff, ← h.count_eq x, Nat.pos_iff_ne_zero, ne_eq, ne_eq, BitVec.toNat_eq]
  rfl

theorem mem_inputList {x : Sym} (hx : x ∈ s.uniqList) : x ∈ s.inputList :=
  h.countAt_ne_zero_iff.1 (h.positive x hx)

theorem n_eq_card : s.n = (usedSymbols s).card := h.nuniq_eq

/-- With a symbol not yet counted UNIQ has room for it. -/
theorem n_lt {x : Sym} (hx : s.countAt x = 0) : s.n < asize := by
  have hnot : x.toNat ∉ usedSymbols s := fun hm => mem_usedSymbols.1 hm hx
  have hsub : insert x.toNat (usedSymbols s) ⊆ Finset.range asize :=
    Finset.insert_subset (Finset.mem_range.2 x.isLt) (Finset.filter_subset _ _)
  have hcard := Finset.card_le_card hsub
  rw [Finset.card_insert_of_notMem hnot, Finset.card_range, ← h.n_eq_card] at hcard
  omega

/-- PUSH keeps R44. -/
theorem push (hw : s.arraysWf = true) {x : Sym} (hl : s.len + 1 < 2 ^ 32) (hc : (s.countAt x).toNat + 1 < 2 ^ 32) :
    (pushState x s).CountsOk := by
  obtain ⟨hcount, huniq, hinbuf, -⟩ := arraysWf_iff.1 hw
  have hused := pushState_usedSymbols hcount hc
  have hinput := pushState_inputList hinbuf hl x
  have hcountAt := pushState_countAt hcount x
  have hcount_eq : ∀ y, ((pushState x s).countAt y).toNat = (pushState x s).inputList.count y := fun y => by
    rw [hcountAt, hinput, List.count_append, List.count_singleton, ← h.count_eq y]
    split_ifs with hy hy' hy'
    · rw [hy, BitVec.toNat_add]
      exact Nat.mod_eq_of_lt hc
    · simp [hy] at hy'
    · simp at hy'
      exact absurd hy'.symm hy
    · rfl
  have hsum : ((List.range asize).map fun k => (Memory.read (pushState x s).count k).toNat).sum = (pushState x s).len := by
    rw [sum_counts, pushState_sum_counts hcount hc, ← sum_counts, h.sum_eq, pushState_len hl]
  have hindex : ∀ y ∈ s.uniqList, (s.inputList ++ [x]).idxOf y = s.inputList.idxOf y := fun y hy =>
    List.idxOf_append_of_mem (h.mem_inputList hy)
  have hordered : s.uniqList.Pairwise fun y z => (s.inputList ++ [x]).idxOf y < (s.inputList ++ [x]).idxOf z :=
    h.ordered.imp_of_mem fun hy hz hyz => by rwa [hindex _ hy, hindex _ hz]
  have hpositive : ∀ y, s.countAt y ≠ 0 ∨ y = x → (pushState x s).countAt y ≠ 0 := fun y hy => by
    rw [← mem_usedSymbols, hused, Finset.mem_insert, mem_usedSymbols, BitVec.toNat_inj]
    exact hy.symm
  by_cases hx : s.countAt x = 0
  · obtain ⟨hn, hlist⟩ := pushState_uniqList_first huniq (h.n_lt hx) hx
    have hnot : x ∉ s.uniqList := fun hm => h.positive x hm hx
    have hnew : x ∉ s.inputList := fun hm => h.countAt_ne_zero_iff.2 hm hx
    refine ⟨hsum, ?_, ?_, ?_, ?_, hcount_eq⟩
    · rw [hn, usedSymbols_card, hused, Finset.card_insert_of_notMem fun hm => mem_usedSymbols.1 hm hx, h.n_eq_card]
    · rw [hlist]
      exact List.nodup_append.2 ⟨h.distinct, List.nodup_singleton x, fun y hy z hz e =>
        hnot (List.mem_singleton.1 hz ▸ e ▸ hy)⟩
    · intro y hy
      rw [hlist, List.mem_append, List.mem_singleton] at hy
      exact hpositive y (hy.imp_left (h.positive y))
    · rw [hlist, hinput, List.pairwise_append]
      refine ⟨hordered, List.pairwise_singleton _ x, fun y hy z hz => ?_⟩
      rw [List.mem_singleton.1 hz, hindex y hy, List.idxOf_append_of_notMem hnew]
      exact Nat.lt_add_right _ (List.idxOf_lt_length_of_mem (h.mem_inputList hy))
  · obtain ⟨hn, hlist⟩ := pushState_uniqList_again (s := s) hx
    refine ⟨hsum, ?_, ?_, ?_, ?_, hcount_eq⟩
    · rw [hn, usedSymbols_card, hused, Finset.insert_eq_of_mem (mem_usedSymbols.2 hx), h.n_eq_card]
    · rw [hlist]
      exact h.distinct
    · rw [hlist]
      exact fun y hy => hpositive y (.inl (h.positive y hy))
    · rw [hlist, hinput]
      exact hordered

end State.CountsOk

theorem len_lt_of_legal {s : State} (hc : s.cfg.legal = true) (hl : s.len ≤ s.cfg.cap) : s.len < 2 ^ 24 + 2 ^ 16 := by
  simp only [Config.legal, Bool.and_eq_true, decide_eq_true_eq] at hc
  omega

/-- Every command keeps R44: PUSH by `State.CountsOk.push`, CLEAR empties the counter, the others leave it alone. -/
theorem exec_countsOk {i : Instr} {s t : State} (hc : s.cfg.legal = true) (hw : s.arraysWf = true)
    (hl : s.len ≤ s.cfg.cap) (h : s.CountsOk) (hx : exec i s = .next t) : t.CountsOk := by
  have hlen := len_lt_of_legal hc hl
  cases exec_did hx with
  | cleared => exact .of_empty rfl rfl rfl
  | pushed arg x _ _ _ _ hcount => exact CountsOk_congr (h.push hw (by omega) hcount) rfl rfl rfl rfl rfl
  | coded u _ _ _ _ _ hu _ => subst hu; exact CountsOk_congr h rfl rfl rfl rfl rfl
  | tooLong u _ _ _ _ _ _ hu _ => subst hu; exact CountsOk_congr h rfl rfl rfl rfl rfl
  | encoded u _ _ _ _ _ _ hu _ _ _ => subst hu; exact CountsOk_congr h rfl rfl rfl rfl rfl
  | encodeTooLong u _ _ _ _ _ _ _ hu _ => subst hu; exact CountsOk_congr h rfl rfl rfl rfl rfl
  | _ => exact CountsOk_congr h rfl rfl rfl rfl rfl

/-- Settles O14, by the cases of a step; a core step keeps R44 by `exec_countsOk`. -/
theorem countingInvariant : Obligations.CountingInvariant := by
  refine ⟨fun c => .of_empty rfl rfl rfl, fun s t hc hw hl h hstep => ?_⟩
  cases step_moved hstep with
  | core t _ hcore =>
    have hhost : ({ s with host := s.host.tail } : State).CountsOk := CountsOk_congr h rfl rfl rfl rfl rfl
    rcases coreStep_eq_next hcore with ⟨_, -, rfl⟩ | ⟨i, u, -, hx, rfl⟩
    · exact CountsOk_congr h rfl rfl rfl rfl rfl
    · have hu : u.CountsOk := exec_countsOk (s := { s with host := s.host.tail }) hc hw hl hhost hx
      exact CountsOk_congr hu rfl rfl rfl rfl rfl
  | reset => exact .of_empty rfl rfl rfl
  | idle | latched | dropped => exact CountsOk_congr h rfl rfl rfl rfl rfl

end Sys2Proof.Machine
end

section
/-! SUPPORT. When a command cannot stop: the bounds that R44 and R38 give the sums and walks of BUILD, CODES and PACK. -/

namespace Sys2Proof.Machine

theorem inputList_length (s : State) : s.inputList.length = s.len := by
  rw [State.inputList, List.length_map, List.length_range]

namespace State.CountsOk

variable {s : State} (h : s.CountsOk)
include h

/-- The unique symbols are the used ones (R44 (b), (c)). -/
theorem uniqList_eq_used : (s.uniqList.map BitVec.toNat).toFinset = usedSymbols s := by
  have hnodup : (s.uniqList.map BitVec.toNat).Nodup := h.distinct.map fun _ _ => BitVec.eq_of_toNat_eq
  refine Finset.eq_of_subset_of_card_le (fun k hk => ?_) ?_
  · obtain ⟨x, hx, rfl⟩ := List.mem_map.1 (List.mem_toFinset.1 hk)
    exact mem_usedSymbols.2 (h.positive x hx)
  · rw [List.toFinset_card_of_nodup hnodup, List.length_map, State.uniqList, List.length_map, List.length_range, h.n_eq_card]

theorem mem_uniqList_iff {x : Sym} : x ∈ s.uniqList ↔ s.countAt x ≠ 0 := by
  rw [← mem_usedSymbols, ← h.uniqList_eq_used, List.mem_toFinset, List.mem_map]
  exact ⟨fun hx => ⟨x, hx, rfl⟩, fun ⟨y, hy, e⟩ => BitVec.eq_of_toNat_eq e ▸ hy⟩

/-- Every input symbol is a unique symbol. -/
theorem mem_uniqList {x : Sym} (hx : x ∈ s.inputList) : x ∈ s.uniqList :=
  h.mem_uniqList_iff.2 (h.countAt_ne_zero_iff.2 hx)

/-- The leaves weigh no more than the input is long (R85). -/
theorem leafWeight_le : leafWeight s ≤ s.len := by
  have hnodup : (s.uniqList.map BitVec.toNat).Nodup := h.distinct.map fun _ _ => BitVec.eq_of_toNat_eq
  have hsum : leafWeight s = ∑ k ∈ usedSymbols s, (Memory.read s.count k).toNat := by
    rw [← h.uniqList_eq_used, List.sum_toFinset _ hnodup, List.map_map]
    rfl
  rw [hsum, ← h.sum_eq, sum_counts]
  exact Finset.sum_le_sum_of_subset (Finset.filter_subset _ _)

theorem countAt_le (x : Sym) : (s.countAt x).toNat ≤ s.len := by
  rw [h.count_eq, ← inputList_length]
  exact List.count_le_length

end State.CountsOk

theorem firstTooLong_eq_none {s : State} : firstTooLong s = none ↔ ∀ x ∈ s.uniqList, (s.clenAt x).toNat ≤ 8 := by
  simp only [firstTooLong, List.find?_eq_none, decide_eq_true_eq, maxCodeLen_eq, not_lt, gt_iff_lt]

/-- Codes of at most 8 bits: the payload is no longer than the input (R55, R99). -/
theorem totalBits_le {s : State} (h : ∀ x ∈ s.inputList, (s.clenAt x).toNat ≤ 8) : totalBits s ≤ 8 * s.len := by
  have hsum := List.sum_le_card_nsmul (s.inputList.map fun x => (s.clenAt x).toNat) 8 fun y hy => by
    obtain ⟨x, hx, rfl⟩ := List.mem_map.1 hy
    exact h x hx
  rw [List.length_map, inputList_length, smul_eq_mul] at hsum
  rw [totalBits]
  omega

/-- With no code too long PACK finds every entry it needs, and no sum of it wraps. -/
theorem pack_fits {s : State} (hc : s.cfg.legal = true) (hl : s.len ≤ s.cfg.cap) (hn : s.n ≤ asize) (h : s.CountsOk)
    (hf : firstTooLong s = none) : packInside s = true ∧ totalBits s < 2 ^ 32 := by
  have huniq := firstTooLong_eq_none.1 hf
  have hinput : ∀ x ∈ s.inputList, (s.clenAt x).toNat ≤ 8 := fun x hx => huniq x (h.mem_uniqList hx)
  have htotal := totalBits_le hinput
  have hlen := len_lt_of_legal hc hl
  have hfit : codesFit s = true := List.all_eq_true.2 fun x hx =>
    decide_eq_true ((List.mem_append.1 hx).elim (huniq x) (hinput x))
  refine ⟨packInside_iff.2 ⟨hn, hl, hfit, ?_⟩, by omega⟩
  simp only [asize_eq, hdrMax_eq, blobLength, payloadStart] at hn ⊢
  omega

/-- A walk over links that lead up ends before it has passed every node. -/
theorem walk_isSome {node : Memory Node} {k : Nat} (h : LinksUp node k) : ∀ (fuel j d : Nat) (v : Byte), j < k →
    k ≤ j + fuel → (walk node fuel j d v).isSome = true
  | 0, j, _, _, hj, hk => by omega
  | fuel + 1, j, d, v, hj, hk => by
    rw [walk]
    by_cases hp : (Memory.read node j).par = nil
    · simp only [hp, if_true, Option.isSome_some]
    · obtain ⟨hlt, hle⟩ := (h j hj).resolve_left hp
      simp only [hp, if_false]
      exact walk_isSome h fuel _ _ _ hle (by omega)

/-- CODES derives a table from every arena whose links lead up and that holds the leaves. -/
theorem codeTable_isSome {s : State} (h : LinksUp s.node s.nnodes.toNat) (hn : s.n ≤ s.nnodes.toNat) :
    (codeTable s).isSome = true := by
  unfold codeTable
  split_ifs
  · rfl
  · refine deriveCodes_isSome _ _ fun i hi => walk_isSome h _ _ _ _ (by have := List.mem_range.1 hi; omega) ?_
    have := s.nnodes.isLt
    simp only [maxNodes_eq]
    omega

/-- What keeps every command from stopping: a part of `State.Inv` that no field of the host's enters. -/
structure State.Runnable (s : State) : Prop where
  legal : s.cfg.legal = true
  arrays : s.arraysWf = true
  len_le : s.len ≤ s.cfg.cap
  n_le : s.n ≤ asize
  counts : s.CountsOk
  tree : s.phase = .tree → LinksUp s.node s.nnodes.toNat ∧ s.n ≤ s.nnodes.toNat
  coded : s.phase = .coded → firstTooLong s = none
  packed : s.phase = .packed → s.bloblen.toNat ≤ hdrMax + s.cfg.cap

theorem State.Inv.runnable {s : State} (h : s.Inv) : s.Runnable where
  legal := h.legal
  arrays := h.arrays
  len_le := h.len_le
  n_le := h.n_le
  counts := h.counts
  tree := fun hp => by
    have hphase := h.phaseOk
    simp only [State.PhaseOk, hp] at hphase
    obtain ⟨harena, -⟩ := hphase
    exact ⟨harena.linksUp, by rw [harena.nnodes_eq]; omega⟩
  coded := fun hp => by
    have hphase := h.phaseOk
    simp only [State.PhaseOk, hp] at hphase
    obtain ⟨-, -, hlong, -⟩ := hphase
    exact hlong
  packed := fun hp => by
    have hphase := h.phaseOk
    simp only [State.PhaseOk, hp] at hphase
    obtain ⟨-, -, hlong, -, hblob, -⟩ := hphase
    obtain ⟨hinside, -⟩ := pack_fits h.legal h.len_le h.n_le h.counts hlong
    obtain ⟨-, -, -, hle⟩ := packInside_iff.1 hinside
    rw [hblob]
    exact hle

theorem State.Runnable.withHost {s : State} (h : s.Runnable) (es : List HostEvent) :
    ({ s with host := es } : State).Runnable :=
  ⟨h.legal, h.arrays, h.len_le, h.n_le, CountsOk_congr h.counts rfl rfl rfl rfl rfl, h.tree, h.coded, h.packed⟩

end Sys2Proof.Machine
end

section
/-! SUPPORT. What the operations on arrays write does not depend on the entries they do not read: each operation of BUILD,
CODES and PACK, from two arrays that agree where the spec gives them contents. -/

namespace Sys2Proof.Machine

/-- Two arrays agree below `k`. -/
def AgreeBelow {α : Type} [Inhabited α] (k : Nat) (m m' : Memory α) : Prop := ∀ i < k, Memory.read m i = Memory.read m' i

theorem AgreeBelow.write {α : Type} [Inhabited α] [DecidableEq α] {size k : Nat} {m m' : Memory α}
    (h : AgreeBelow k m m') (hm : Memory.wf size m = true) (hm' : Memory.wf size m' = true) (v : α) :
    AgreeBelow (k + 1) (Memory.write m k v) (Memory.write m' k v) := fun i hi => by
  rw [Memory.read_write hm, Memory.read_write hm']
  split_ifs with hk
  · rfl
  · exact h i (by omega)

/-! ### The builder -/

theorem weightAt_congr {node node' : Memory Node} {j : Nat} (h : Memory.read node j = Memory.read node' j) :
    weightAt node j = weightAt node' j := by
  rw [weightAt, weightAt, h]

theorem minWeight_congr {node node' : Memory Node} : ∀ {E : List Nat}, (∀ j ∈ E, weightAt node j = weightAt node' j) →
    minWeight node E = minWeight node' E
  | [], _ => rfl
  | [i], h => h i (by simp)
  | i :: k :: E, h => by
    simp only [minWeight]
    rw [h i (by simp), minWeight_congr fun j hj => h j (List.mem_cons_of_mem _ hj)]

/-- An extraction looks at the weights of the eligible nodes alone. -/
theorem argmin_congr (tb : TieBreak) {node node' : Memory Node} (c : Nat) {E : List Nat}
    (h : ∀ j ∈ E, weightAt node j = weightAt node' j) : argmin tb node c E = argmin tb node' c E := by
  have hlight : lightest node E = lightest node' E := List.filter_congr fun j hj => by rw [h j hj, minWeight_congr h]
  simp only [argmin, hlight]

/-- Two forests that differ at most in the arena from `next` on. -/
structure Forest.Agree (f g : Forest) : Prop where
  eligible : g.eligible = f.eligible
  next : g.next = f.next
  draw : g.draw = f.draw
  node : AgreeBelow f.next f.node g.node

theorem mergeOnce_agree (tb : TieBreak) (choice : Nat → Nat) {f g : Forest} (hf : f.Sound) (hg : g.Sound) (h : f.Agree g)
    (hl : 2 ≤ f.eligible.length) : (mergeOnce tb choice f).Agree (mergeOnce tb choice g) := by
  obtain ⟨a, b, ha, hb, hab, ea, eb, e⟩ := mergeOnce_spec tb choice f hf.nodup hl
  have hweight : ∀ j ∈ f.eligible, weightAt f.node j = weightAt g.node j := fun j hj =>
    weightAt_congr (h.node j (hf.below j hj))
  have ea' : argmin tb g.node (choice g.draw) g.eligible = a := by
    rw [ea, h.draw, h.eligible, argmin_congr tb _ hweight]
  have eb' : argmin tb g.node (choice (g.draw + 1)) (g.eligible.erase a) = b := by
    rw [eb, h.draw, h.eligible, argmin_congr tb _ fun j hj => hweight j (List.mem_of_mem_erase hj)]
  have e' : mergeOnce tb choice g = { node := linkNodes g.node a b g.next
                                      eligible := (g.eligible.erase a).erase b ++ [g.next]
                                      next := g.next + 1, draw := g.draw + 2 } := by
    simp only [mergeOnce, ea', eb']
  have hroom := hf.room
  have han := hf.below a ha
  have hbn := hf.below b hb
  rw [e, e']
  refine ⟨by simp only [h.eligible, h.next], by simp only [h.next], by simp only [h.draw], fun i hi => ?_⟩
  simp only at hi ⊢
  rw [h.next, linkNodes_read hf.wf (by simp only [maxNodes_eq]; omega) (by simp only [maxNodes_eq]; omega) (by omega)
    (by omega) hab, linkNodes_read hg.wf (by simp only [maxNodes_eq]; omega) (by simp only [maxNodes_eq]; omega) (by omega)
    (by omega) hab, h.node a han, h.node b hbn]
  by_cases hik : i = f.next
  · rw [if_pos hik, if_pos hik]
  · rw [if_neg hik, if_neg hik, h.node i (by omega)]

theorem mergeAll_agree (tb : TieBreak) (choice : Nat → Nat) : ∀ (fuel : Nat) {f g : Forest}, f.Sound → g.Sound →
    f.Agree g → (mergeAll tb choice fuel f).Agree (mergeAll tb choice fuel g)
  | 0, _, _, _, _, h => h
  | fuel + 1, f, g, hf, hg, h => by
    rw [mergeAll, mergeAll, h.eligible]
    split_ifs with hl
    · exact h
    · exact mergeAll_agree tb choice fuel (mergeOnce_sound tb choice hf (by omega))
        (mergeOnce_sound tb choice hg (by rw [h.eligible]; omega)) (mergeOnce_agree tb choice hf hg h (by omega))

/-! ### The code-length calculator -/

/-- A walk over links that lead up stays where the arenas agree. -/
theorem walk_congr {node node' : Memory Node} {k : Nat} (hl : LinksUp node k) (h : AgreeBelow k node node') :
    ∀ (fuel j d : Nat) (v : Byte), j < k → walk node fuel j d v = walk node' fuel j d v
  | 0, _, _, _, _ => rfl
  | fuel + 1, j, d, v, hj => by
    rw [walk, walk, ← h j hj]
    by_cases hp : (Memory.read node j).par = nil
    · simp only [hp, if_true]
    · obtain ⟨-, hle⟩ := (hl j hj).resolve_left hp
      simp only [hp, if_false, ← h _ hle, walk_congr hl h fuel _ _ _ hle]

theorem deriveCodes_congr {node node' : Memory Node} {uniq uniq' : Memory Sym} : ∀ (is : List Nat) (clen cbits : Memory Byte),
    (∀ i ∈ is, walk node maxNodes i 0 0 = walk node' maxNodes i 0 0) →
    (∀ i ∈ is, Memory.read uniq i = Memory.read uniq' i) →
    deriveCodes node uniq is clen cbits = deriveCodes node' uniq' is clen cbits
  | [], _, _, _, _ => rfl
  | i :: is, clen, cbits, hw, hu => by
    rw [deriveCodes, deriveCodes, hw i List.mem_cons_self, hu i List.mem_cons_self]
    cases walk node' maxNodes i 0 0 with
    | none => rfl
    | some p =>
      exact deriveCodes_congr is (Memory.write clen (Memory.read uniq' i).toNat (BitVec.ofNat 8 p.1))
        (Memory.write cbits (Memory.read uniq' i).toNat (if p.1 ≤ maxCodeLen then p.2 else 0))
        (fun j hj => hw j (List.mem_cons_of_mem _ hj)) (fun j hj => hu j (List.mem_cons_of_mem _ hj))

/-! ### The bit-packer -/

/-- The records of the first `n` unique symbols are written whole (R57). -/
theorem writeRecords_congr {size n : Nat} {align : CodeAlign} {uniq uniq' : Memory Sym} {clen cbits m m' : Memory Byte}
    (hm : Memory.wf size m = true) (hm' : Memory.wf size m' = true) (hs : ∀ i ∈ List.range n, 3 + 3 * i < size)
    (hu : AgreeBelow n uniq uniq') (h : AgreeBelow 1 m m') :
    AgreeBelow (1 + 3 * n) (writeRecords align uniq clen cbits (List.range n) m)
      (writeRecords align uniq' clen cbits (List.range n) m') := fun k hk => by
  by_cases h0 : k = 0
  · subst h0
    rw [writeRecords_other hs hm 0 (fun i _ => by omega), writeRecords_other hs hm' 0 (fun i _ => by omega), h 0 (by omega)]
  · obtain ⟨i, hi, hki⟩ : ∃ i < n, k = 1 + 3 * i ∨ k = 2 + 3 * i ∨ k = 3 + 3 * i :=
      ⟨(k - 1) / 3, by omega, by omega⟩
    obtain ⟨hsym, hlen, hbits⟩ := writeRecords_record (align := align) (uniq := uniq) (clen := clen) (cbits := cbits)
      hs hm List.nodup_range i (List.mem_range.2 hi)
    obtain ⟨hsym', hlen', hbits'⟩ := writeRecords_record (align := align) (uniq := uniq') (clen := clen) (cbits := cbits)
      hs hm' List.nodup_range i (List.mem_range.2 hi)
    rw [← hu i hi] at hsym' hlen' hbits'
    rcases hki with rfl | rfl | rfl
    · rw [hsym, hsym']
    · rw [hlen, hlen']
    · rw [hbits, hbits']

theorem writeLength_congr {size o : Nat} {m m' : Memory Byte} (hm : Memory.wf size m = true) (hm' : Memory.wf size m' = true)
    (ho : o + 3 < size) (t : Word) (h : AgreeBelow o m m') :
    AgreeBelow (o + 4) (writeLength o t m) (writeLength o t m') := fun k hk => by
  rw [writeLength_read hm ho, writeLength_read hm' ho]
  split_ifs with h3 h2 h1 h0
  · rfl
  · rfl
  · rfl
  · rfl
  · exact h k (by omega)

/-- Emitting from position 0 on writes every byte of the payload whole (R99). -/
theorem emitAll_congr {size p : Nat} {bs : List Bool} {m m' : Memory Byte} (hm : Memory.wf size m = true)
    (hm' : Memory.wf size m' = true) (hs : p + (0 + bs.length + 7) / 8 ≤ size) (h : AgreeBelow p m m') :
    AgreeBelow (p + (0 + bs.length + 7) / 8) (emitAll p 0 bs m) (emitAll p 0 bs m') := fun k hk => by
  by_cases hp : k < p
  · rw [emitAll_other hm hs k (by omega), emitAll_other hm' hs k (by omega), h k hp]
  · refine BitVec.eq_of_getLsbD_eq fun b hb => ?_
    have hbyte : p + (8 * (k - p) + (7 - b)) / 8 = k := by omega
    have hbit : 7 - (8 * (k - p) + (7 - b)) % 8 = b := by omega
    have h1 := emitAll_bit hm hs (fun r _ hr => by omega) (8 * (k - p) + (7 - b)) (by omega)
    have h2 := emitAll_bit hm' hs (fun r _ hr => by omega) (8 * (k - p) + (7 - b)) (by omega)
    rw [if_neg (Nat.not_lt_zero _), hbyte, hbit] at h1 h2
    rw [h1, h2]

end Sys2Proof.Machine
end

section
/-! SUPPORT. Two states that agree but for unspecified contents (R33, R43) stay so: one lemma per update of the state, and
one per command. -/

namespace Sys2Proof.Machine

theorem State.Agree.exists_eq {s t : State} (h : s.Agree t) :
    ∃ u b n o p, t = { s with uniq := u, inbuf := b, node := n, outbuf := o, pending := p } :=
  ⟨_, _, _, _, _, h.rest⟩

/-- Both meanings answer a next state, and these agree. -/
def SameNext (r r' : Result) : Prop := ∃ s' t', r = .next s' ∧ r' = .next t' ∧ s'.Agree t'

theorem SameNext.next {s t : State} (h : s.Agree t) : SameNext (.next s) (.next t) := ⟨s, t, rfl, rfl, h⟩

theorem SameNext.andThen {r r' : Result} {f : State → Result} (h : SameNext r r')
    (hf : ∀ s' t', r = .next s' → r' = .next t' → s'.Agree t' → SameNext (f s') (f t')) :
    SameNext (andThen r f) (andThen r' f) := by
  obtain ⟨s', t', rfl, rfl, hst⟩ := h
  exact hf s' t' rfl rfl hst

/-! ### What agreeing states have in common, and the updates that keep them so -/

section
variable {s t : State} (h : s.Agree t)
include h

theorem State.Agree.n_eq : t.n = s.n := (congrArg State.n h.rest).trans rfl
theorem State.Agree.len_eq : t.len = s.len := (congrArg State.len h.rest).trans rfl
theorem State.Agree.cfg_eq : t.cfg = s.cfg := (congrArg State.cfg h.rest).trans rfl
theorem State.Agree.busy_eq : t.busy = s.busy := (congrArg State.busy h.rest).trans rfl
theorem State.Agree.host_eq : t.host = s.host := (congrArg State.host h.rest).trans rfl
theorem State.Agree.draws_eq : t.draws = s.draws := (congrArg State.draws h.rest).trans rfl
theorem State.Agree.nnodes_eq : t.nnodes = s.nnodes := (congrArg State.nnodes h.rest).trans rfl
theorem State.Agree.nuniq_eq : t.nuniq = s.nuniq := (congrArg State.nuniq h.rest).trans rfl
theorem State.Agree.clen_eq : t.clen = s.clen := (congrArg State.clen h.rest).trans rfl
theorem State.Agree.cbits_eq : t.cbits = s.cbits := (congrArg State.cbits h.rest).trans rfl
theorem State.Agree.bloblen_eq : t.bloblen = s.bloblen := (congrArg State.bloblen h.rest).trans rfl
theorem State.Agree.phase_eq : t.phase = s.phase := (congrArg State.phase h.rest).trans rfl
theorem State.Agree.countAt_eq (x : Sym) : t.countAt x = s.countAt x := (congrArg (State.countAt · x) h.rest).trans rfl
theorem State.Agree.clenAt_eq (x : Sym) : t.clenAt x = s.clenAt x := (congrArg (State.clenAt · x) h.rest).trans rfl
theorem State.Agree.cbitsAt_eq (x : Sym) : t.cbitsAt x = s.cbitsAt x := (congrArg (State.cbitsAt · x) h.rest).trans rfl

theorem State.Agree.uniqList_eq : t.uniqList = s.uniqList :=
  uniqList_congr h.n_eq fun i hi => (h.uniq i hi).symm

theorem State.Agree.inputList_eq : t.inputList = s.inputList :=
  inputList_congr h.len_eq fun j hj => (h.inbuf j hj).symm

theorem ok_agree : (ok s).Agree (ok t) := by
  obtain ⟨u, b, n, o, p, rfl⟩ := h.exists_eq
  exact ⟨rfl, h.uniq, h.inbuf, h.node, h.outbuf, h.pending⟩

theorem fail_agree (code : ErrCode) (info : Word) : (fail code info s).Agree (fail code info t) := by
  obtain ⟨u, b, n, o, p, rfl⟩ := h.exists_eq
  exact ⟨rfl, h.uniq, h.inbuf, h.node, h.outbuf, h.pending⟩

theorem answer_agree (r0 r1 : Word) : (answer r0 r1 s).Agree (answer r0 r1 t) := by
  obtain ⟨u, b, n, o, p, rfl⟩ := h.exists_eq
  exact ⟨rfl, h.uniq, h.inbuf, h.node, h.outbuf, h.pending⟩

theorem complete_agree : (complete s).Agree (complete t) := by
  obtain ⟨u, b, n, o, p, rfl⟩ := h.exists_eq
  exact ⟨rfl, h.uniq, h.inbuf, h.node, h.outbuf, fun hb => Bool.noConfusion hb⟩

theorem withPhase_agree (ph : Phase) : ({ s with phase := ph } : State).Agree { t with phase := ph } := by
  obtain ⟨u, b, n, o, p, rfl⟩ := h.exists_eq
  exact ⟨rfl, h.uniq, h.inbuf, h.node, h.outbuf, h.pending⟩

theorem withCodes_agree (clen cbits : Memory Byte) :
    ({ s with clen := clen, cbits := cbits } : State).Agree { t with clen := clen, cbits := cbits } := by
  obtain ⟨u, b, n, o, p, rfl⟩ := h.exists_eq
  exact ⟨rfl, h.uniq, h.inbuf, h.node, h.outbuf, h.pending⟩

theorem withHost_agree (es : List HostEvent) : ({ s with host := es } : State).Agree { t with host := es } := by
  obtain ⟨u, b, n, o, p, rfl⟩ := h.exists_eq
  exact ⟨rfl, h.uniq, h.inbuf, h.node, h.outbuf, h.pending⟩

/-- CLEAR leaves no valid entry. -/
theorem clearState_agree : (clearState s).Agree (clearState t) := by
  obtain ⟨u, b, n, o, p, rfl⟩ := h.exists_eq
  exact ⟨rfl, fun _ hi => absurd hi (Nat.not_lt_zero _), fun _ hi => absurd hi (Nat.not_lt_zero _),
    fun _ hi => absurd hi (Nat.not_lt_zero _), fun _ hi => absurd hi (Nat.not_lt_zero _), h.pending⟩

theorem whenAccepted_agree (i : Instr) {body body' : Result} (hb : accepts i s.phase = true → SameNext body body') :
    SameNext (whenAccepted i s body) (whenAccepted i t body') := by
  have hphase := h.phase_eq
  cases ha : accepts i s.phase with
  | true => rw [whenAccepted_of_accepts ha, whenAccepted_of_accepts (hphase ▸ ha)]; exact hb ha
  | false => rw [whenAccepted_of_refuses ha, whenAccepted_of_refuses (hphase ▸ ha)]; exact .next (fail_agree h _ _)

end

/-! ### The symbol counter -/

theorem pushState_agree {s t : State} (hs : s.Runnable) (ht : t.arraysWf = true) (h : s.Agree t) (x : Sym) :
    (pushState x s).Agree (pushState x t) := by
  obtain ⟨u, b, n, o, p, rfl⟩ := h.exists_eq
  obtain ⟨-, huniq, hinbuf, -⟩ := arraysWf_iff.1 hs.arrays
  obtain ⟨-, huniq', hinbuf', -⟩ := arraysWf_iff.1 ht
  have hlen := len_lt_of_legal hs.legal hs.len_le
  have hinput : AgreeBelow (s.len + 1) (Memory.write s.inbuf s.len x) (Memory.write b s.len x) :=
    AgreeBelow.write h.inbuf hinbuf hinbuf' x
  have hlen' : (pushState x s).len = s.len + 1 := pushState_len (by omega) x
  by_cases hx : s.countAt x = 0
  · have hx' : ({ s with uniq := u, inbuf := b, node := n, outbuf := o, pending := p } : State).countAt x = 0 := hx
    obtain ⟨hn, -⟩ := pushState_uniqList_first huniq (hs.counts.n_lt hx) hx
    have hunique : AgreeBelow (s.n + 1) (Memory.write s.uniq s.n x) (Memory.write u s.n x) :=
      AgreeBelow.write h.uniq huniq huniq' x
    refine ⟨by simp only [pushState, hx, hx', if_true], fun i hi => ?_, fun j hj => hinput j (hlen' ▸ hj), h.node,
      h.outbuf, h.pending⟩
    simp only [State.uniqAt, pushState, hx, hx', if_true]
    exact hunique i (hn ▸ hi)
  · have hx' : ({ s with uniq := u, inbuf := b, node := n, outbuf := o, pending := p } : State).countAt x ≠ 0 := hx
    obtain ⟨hn, -⟩ := pushState_uniqList_again hx
    refine ⟨by simp only [pushState, hx, hx', if_false]; rfl, fun i hi => ?_, fun j hj => hinput j (hlen' ▸ hj), h.node,
      h.outbuf, h.pending⟩
    simp only [State.uniqAt, pushState, hx, hx', if_false]
    exact h.uniq i (hn ▸ hi)

theorem execPush_agree {s t : State} (hs : s.Runnable) (ht : t.arraysWf = true) (h : s.Agree t) (arg : Arg) :
    SameNext (execPush arg s) (execPush arg t) := by
  refine whenAccepted_agree h _ fun _ => ?_
  cases hx : symOperand arg with
  | none => exact .next (ok_agree h)
  | some x =>
    have hcount := h.countAt_eq x
    have hn := h.n_eq
    have hlen := h.len_eq
    have hcfg := h.cfg_eq
    by_cases hfull : s.len = s.cfg.cap
    · simp only [hlen, hcfg, hfull, if_true]
      exact .next (fail_agree h _ _)
    · have hle := hs.len_le
      have hbound := len_lt_of_legal hs.legal hle
      have hle' := hs.counts.countAt_le x
      have hin : pushInside x s = true := pushInside_iff.2 ⟨by omega, hs.counts.n_lt⟩
      have hin' : pushInside x t = true := pushInside_iff.2 (by
        rw [hlen, hcfg, hcount, hn]
        exact pushInside_iff.1 hin)
      have hsum : ¬ (s.countAt x).toNat + 1 ≥ 2 ^ 32 := by omega
      simp only [hlen, hcfg, hfull, hin, hin', hcount, hsum, if_false, Bool.not_true, Bool.false_eq_true]
      exact .next (ok_agree (pushState_agree hs ht h x))

/-! ### The tree builder -/

theorem leafForest_agree {s t : State} (hs : Memory.wf maxNodes s.node = true) (ht : Memory.wf maxNodes t.node = true)
    (hn : s.n ≤ asize) (h : s.Agree t) : (leafForest s).Agree (leafForest t) := by
  obtain ⟨u, b, n, o, p, rfl⟩ := h.exists_eq
  refine ⟨rfl, rfl, rfl, fun i hi => ?_⟩
  have hle : s.n ≤ maxNodes := by simp only [asize_eq, maxNodes_eq] at hn ⊢; omega
  have hi' : i < s.n := hi
  have huniq : Memory.read s.uniq i = Memory.read u i := h.uniq i hi
  have hleaf := seedLeaves_read hle s.count s.uniq s.node hs i
  have hleaf' := seedLeaves_read hle s.count u n ht i
  rw [if_pos hi'] at hleaf hleaf'
  exact hleaf.trans (by rw [leafNode, huniq]; exact hleaf'.symm)

theorem buildForest_agree (choice : Nat → Nat) {s t : State} (hs : Memory.wf maxNodes s.node = true)
    (ht : Memory.wf maxNodes t.node = true) (hn : s.n ≤ asize) (h : s.Agree t) :
    (buildForest choice s).Agree (buildForest choice t) := by
  have hn' := h.n_eq
  have hcfg := h.cfg_eq
  rw [buildForest_eq, buildForest_eq, hn', hcfg]
  exact mergeAll_agree _ _ _ (leafForest_sound hs hn) (leafForest_sound ht (hn' ▸ hn)) (leafForest_agree hs ht hn h)

theorem buildState_nnodes (choice : Nat → Nat) {s : State} (hw : Memory.wf maxNodes s.node = true) (hn : s.n ≤ asize) :
    (buildState choice s).nnodes.toNat = (buildForest choice s).next := by
  have hnext := buildForest_next choice hw hn
  simp only [asize_eq] at hn
  exact (BitVec.toNat_ofNat _ _).trans (Nat.mod_eq_of_lt (by omega))

theorem buildState_linksUp (choice : Nat → Nat) {s : State} (hw : Memory.wf maxNodes s.node = true) (hn : s.n ≤ asize) :
    LinksUp (buildState choice s).node (buildState choice s).nnodes.toNat ∧ s.n ≤ (buildState choice s).nnodes.toNat := by
  rw [buildState_nnodes choice hw hn]
  refine ⟨(buildForest_sound choice hw hn).linksUp, ?_⟩
  rw [buildForest_next choice hw hn]
  omega

theorem buildState_agree (choice : Nat → Nat) {s t : State} (hs : s.arraysWf = true) (ht : t.arraysWf = true)
    (hn : s.n ≤ asize) (h : s.Agree t) : (buildState choice s).Agree (buildState choice t) := by
  obtain ⟨-, -, -, hnode, -⟩ := arraysWf_iff.1 hs
  obtain ⟨-, -, -, hnode', -⟩ := arraysWf_iff.1 ht
  obtain ⟨heligible, hnext, -, hread⟩ := buildForest_agree choice hnode hnode' hn h
  have hnnodes := buildState_nnodes choice hnode hn
  obtain ⟨u, b, n, o, p, rfl⟩ := h.exists_eq
  refine ⟨?_, h.uniq, h.inbuf, fun i hi => hread i (hnnodes ▸ hi), h.outbuf, h.pending⟩
  simp only [buildState, heligible, hnext]
  rfl

theorem leafWeight_agree {s t : State} (h : s.Agree t) : leafWeight t = leafWeight s := by
  have hlist := h.uniqList_eq
  obtain ⟨u, b, n, o, p, rfl⟩ := h.exists_eq
  rw [leafWeight, hlist]
  rfl

theorem buildBody_agree {s t : State} (hs : s.Runnable) (ht : t.arraysWf = true) (h : s.Agree t) :
    SameNext (buildBody s) (buildBody t) := by
  have hn := h.n_eq
  have hweight := hs.counts.leafWeight_le
  have hlen := len_lt_of_legal hs.legal hs.len_le
  have hleaf := leafWeight_agree h
  rw [buildBody_of hs.n_le (by omega), buildBody_of (hn ▸ hs.n_le) (by omega)]
  exact .next (buildState_agree _ hs.arrays ht hs.n_le h)

/-! ### The code-length calculator -/

theorem codeTable_agree {s t : State} (hl : LinksUp s.node s.nnodes.toNat) (hn : s.n ≤ s.nnodes.toNat) (h : s.Agree t) :
    codeTable t = codeTable s := by
  rw [codeTable, codeTable, h.n_eq, h.cfg_eq]
  by_cases h1 : s.n = 1
  · rw [if_pos h1, if_pos h1, h.uniq 0 (by omega)]
  · rw [if_neg h1, if_neg h1]
    exact (deriveCodes_congr _ [] []
      (fun i hi => walk_congr hl h.node _ i 0 0 (by have := List.mem_range.1 hi; omega))
      fun i hi => h.uniq i (List.mem_range.1 hi)).symm

theorem firstTooLong_agree {s t : State} (h : s.Agree t) : firstTooLong t = firstTooLong s := by
  have hlist := h.uniqList_eq
  obtain ⟨u, b, n, o, p, rfl⟩ := h.exists_eq
  rw [firstTooLong, hlist]
  rfl

theorem checkLengths_agree {s t : State} (h : s.Agree t) : (checkLengths s).Agree (checkLengths t) := by
  have hclen := h.clenAt_eq
  unfold checkLengths
  rw [firstTooLong_agree h]
  cases firstTooLong s with
  | none => exact ok_agree (withPhase_agree h _)
  | some x => simp only [hclen]; exact fail_agree (withPhase_agree h _) _ _

theorem codesBody_agree {s t : State} (hn : s.n ≤ asize) (hl : LinksUp s.node s.nnodes.toNat) (hk : s.n ≤ s.nnodes.toNat)
    (h : s.Agree t) : SameNext (codesBody s) (codesBody t) := by
  have hn' := h.n_eq
  obtain ⟨⟨clen, cbits⟩, hc⟩ := Option.isSome_iff_exists.1 (codeTable_isSome hl hk)
  rw [codesBody_of hn hc, codesBody_of (hn' ▸ hn) ((codeTable_agree hl hk h).trans hc)]
  exact .next (checkLengths_agree (withCodes_agree h clen cbits))

/-! ### The bit-packer -/

theorem bitString_agree {s t : State} (h : s.Agree t) : bitString t = bitString s := by
  have hlist := h.inputList_eq
  obtain ⟨u, b, n, o, p, rfl⟩ := h.exists_eq
  rw [bitString, hlist]
  rfl

theorem totalBits_agree {s t : State} (h : s.Agree t) : totalBits t = totalBits s := by
  rw [← bitString_length, bitString_agree h, bitString_length]

theorem blobLength_agree {s t : State} (h : s.Agree t) : blobLength t = blobLength s := by
  have hn := h.n_eq
  rw [blobLength, payloadStart, totalBits_agree h, hn, blobLength, payloadStart]

theorem packInside_agree {s t : State} (h : s.Agree t) : packInside t = packInside s := by
  have hblob := blobLength_agree h
  have huniq := h.uniqList_eq
  have hinput := h.inputList_eq
  obtain ⟨u, b, n, o, p, rfl⟩ := h.exists_eq
  rw [packInside, hblob, codesFit, huniq, hinput]
  rfl

/-- Every byte of the blob is written whole, whatever OUTBUF held (R43, R99). -/
theorem packBlob_agree {s t : State} (hs : s.arraysWf = true) (ht : t.arraysWf = true) (hi : packInside s = true)
    (h : s.Agree t) : AgreeBelow (blobLength s) (packBlob s) (packBlob t) := by
  obtain ⟨-, -, -, -, -, -, houtbuf⟩ := arraysWf_iff.1 hs
  obtain ⟨-, -, -, -, -, -, houtbuf'⟩ := arraysWf_iff.1 ht
  rw [h.cfg_eq] at houtbuf'
  obtain ⟨hn, -, -, hfits⟩ := packInside_iff.1 hi
  have hpos : 0 < hdrMax + s.cfg.cap := by simp only [hdrMax_eq]; omega
  have hend : 1 + 3 * s.n + 3 < hdrMax + s.cfg.cap := by simp only [asize_eq, hdrMax_eq] at hn ⊢; omega
  have hcount : AgreeBelow 1 (Memory.write s.outbuf 0 s.nuniq) (Memory.write t.outbuf 0 s.nuniq) :=
    AgreeBelow.write (fun i hi => absurd hi (Nat.not_lt_zero i)) houtbuf houtbuf' _
  have hcount_wf := Memory.wf_write houtbuf hpos s.nuniq
  have hcount_wf' := Memory.wf_write houtbuf' hpos s.nuniq
  have hrecords := writeRecords_congr (align := s.cfg.codeAlign) (clen := s.clen) (cbits := s.cbits)
    hcount_wf hcount_wf' (records_inside hn) h.uniq hcount
  have hlength := writeLength_congr (writeRecords_wf (records_inside hn) hcount_wf)
    (writeRecords_wf (records_inside hn) hcount_wf') hend (BitVec.ofNat 32 (totalBits s)) hrecords
  have hheader : AgreeBelow (payloadStart s) (packHeader s) (packHeader t) := by
    simp only [packHeader, totalBits_agree h, h.n_eq, h.nuniq_eq, h.cfg_eq, h.clen_eq, h.cbits_eq]
    exact fun k hk => hlength k (by simp only [payloadStart] at hk; omega)
  have hheader_wf' : Memory.wf (hdrMax + s.cfg.cap) (packHeader t) = true :=
    h.cfg_eq ▸ packHeader_wf (h.cfg_eq.symm ▸ houtbuf') (h.n_eq ▸ hn)
  have hstart : payloadStart t = payloadStart s := by rw [payloadStart, h.n_eq, payloadStart]
  rw [packBlob_eq, packBlob_eq, bitString_agree h, hstart, ← payload_end s]
  exact emitAll_congr (packHeader_wf houtbuf hn) hheader_wf' (payload_end s ▸ hfits) hheader

theorem packState_agree {s t : State} (hs : s.arraysWf = true) (ht : t.arraysWf = true) (hi : packInside s = true)
    (h : s.Agree t) : (packState s).Agree (packState t) := by
  have hblob := packBlob_agree hs ht hi h
  have hlength := blobLength_agree h
  have hbits := totalBits_agree h
  have hbloblen : (packState s).bloblen.toNat ≤ blobLength s := by
    simp only [packState, BitVec.toNat_ofNat]
    exact Nat.mod_le _ _
  obtain ⟨u, b, n, o, p, rfl⟩ := h.exists_eq
  refine ⟨by simp only [packState, hlength, hbits], h.uniq, h.inbuf, h.node, fun i hi => hblob i (by omega), h.pending⟩

theorem packBody_agree {s t : State} (hs : s.arraysWf = true) (ht : t.arraysWf = true) (hi : packInside s = true)
    (htotal : totalBits s < 2 ^ 32) (h : s.Agree t) : SameNext (packBody s) (packBody t) := by
  rw [packBody_of hi htotal, packBody_of ((packInside_agree h).trans hi) (totalBits_agree h ▸ htotal)]
  exact .next (ok_agree (packState_agree hs ht hi h))

theorem checkLengths_arraysWf (s : State) : (checkLengths s).arraysWf = s.arraysWf := by
  rcases checkLengths_cases s with ⟨-, e⟩ | ⟨x, -, e⟩ <;> rw [e] <;> rfl

/-- ENCODE, command by command (R102). -/
theorem encodeBody_agree {s t : State} (hs : s.Runnable) (ht : t.arraysWf = true) (h : s.Agree t) :
    SameNext (encodeBody s) (encodeBody t) := by
  obtain ⟨-, -, -, hnode, -⟩ := arraysWf_iff.1 hs.arrays
  refine (buildBody_agree hs ht h).andThen fun u u' hu hu' huu => ?_
  obtain ⟨-, -, rfl⟩ := buildBody_eq_next hu
  obtain ⟨hn', -, rfl⟩ := buildBody_eq_next hu'
  obtain ⟨hlinks, hk⟩ := buildState_linksUp Config.tieChoice hnode hs.n_le
  refine (codesBody_agree (s := buildState Config.tieChoice s) hs.n_le hlinks hk huu).andThen fun v v' hv hv' hvv => ?_
  obtain ⟨-, clen, cbits, hc, rfl⟩ := codesBody_eq_next hv
  obtain ⟨-, clen', cbits', hc', rfl⟩ := codesBody_eq_next hv'
  have hw := codes_arraysWf (buildState_arraysWf Config.tieChoice hs.arrays hs.n_le) hc rfl
  have hw' := codes_arraysWf (buildState_arraysWf Config.tieChoice ht hn') hc' rfl
  rw [← checkLengths_arraysWf] at hw hw'
  rw [hvv.phase_eq]
  rcases checkLengths_cases { buildState Config.tieChoice s with clen := clen, cbits := cbits } with
    ⟨hf, e⟩ | ⟨x, -, e⟩
  · rw [e] at hw hvv ⊢
    obtain ⟨hi, htotal⟩ := pack_fits (s := ok { buildState Config.tieChoice s with
      clen := clen, cbits := cbits, phase := .coded }) hs.legal hs.len_le hs.n_le
      (CountsOk_congr hs.counts rfl rfl rfl rfl rfl) hf
    exact packBody_agree hw hw' hi htotal hvv
  · rw [e] at hvv ⊢
    exact .next hvv

/-! ### Every command -/

/-- From runnable states that agree no command stops, and the next states agree. -/
theorem exec_agree (i : Instr) {s t : State} (hs : s.Runnable) (ht : t.arraysWf = true) (h : s.Agree t) :
    SameNext (exec i s) (exec i t) := by
  have range : ∀ j : Instr, SameNext (.next (fail .range (encode j) s)) (.next (fail .range (encode j) t)) := fun j =>
    .next (fail_agree h _ _)
  cases i with
  | nop => exact whenAccepted_agree h .nop fun _ => .next (ok_agree h)
  | clear => exact whenAccepted_agree h .clear fun _ => .next (ok_agree (clearState_agree h))
  | push arg => exact execPush_agree hs ht h arg
  | build => exact whenAccepted_agree h .build fun _ => (buildBody_agree hs ht h).andThen fun _ _ _ _ hu => .next (ok_agree hu)
  | codes =>
    refine whenAccepted_agree h .codes fun ha => ?_
    obtain ⟨hlinks, hk⟩ := hs.tree (by simpa [accepts] using ha)
    exact codesBody_agree hs.n_le hlinks hk h
  | pack =>
    refine whenAccepted_agree h .pack fun ha => ?_
    obtain ⟨hi, htotal⟩ := pack_fits hs.legal hs.len_le hs.n_le hs.counts (hs.coded (by simpa [accepts] using ha))
    exact packBody_agree hs.arrays ht hi htotal h
  | encode => exact whenAccepted_agree h .encode fun _ => encodeBody_agree hs ht h
  | rdCount arg =>
    refine whenAccepted_agree h (.rdCount arg) fun _ => ?_
    cases symOperand arg with
    | none => exact range _
    | some x => simp only [h.countAt_eq]; exact .next (answer_agree h _ _)
  | rdUniq arg =>
    refine whenAccepted_agree h (.rdUniq arg) fun _ => ?_
    rw [h.n_eq]
    cases hx : idxOperand arg s.n with
    | none => exact range _
    | some i =>
      obtain ⟨-, hi⟩ := idxOperand_eq_some hx
      have hin := hs.n_le
      simp only [show ¬ i ≥ asize by omega, if_false, ← h.uniq i hi]
      exact .next (answer_agree h _ _)
  | rdInput arg =>
    refine whenAccepted_agree h (.rdInput arg) fun _ => ?_
    rw [h.len_eq]
    cases hx : idxOperand arg s.len with
    | none => exact range _
    | some i =>
      obtain ⟨-, hi⟩ := idxOperand_eq_some hx
      have hin := hs.len_le
      simp only [h.cfg_eq, show ¬ i ≥ s.cfg.cap by omega, if_false, ← h.inbuf i hi]
      exact .next (answer_agree h _ _)
  | rdNode arg =>
    refine whenAccepted_agree h (.rdNode arg) fun _ => ?_
    rw [h.nnodes_eq]
    cases hx : idxOperand arg s.nnodes.toNat with
    | none => exact range _
    | some i =>
      obtain ⟨-, hi⟩ := idxOperand_eq_some hx
      simp only [← h.node i hi]
      exact .next (answer_agree h _ _)
  | rdCode arg =>
    refine whenAccepted_agree h (.rdCode arg) fun _ => ?_
    cases symOperand arg with
    | none => exact range _
    | some x => simp only [h.clenAt_eq, h.cbitsAt_eq]; exact .next (answer_agree h _ _)
  | rdBlob arg =>
    refine whenAccepted_agree h (.rdBlob arg) fun ha => ?_
    rw [h.bloblen_eq]
    cases hx : idxOperand arg s.bloblen.toNat with
    | none => exact range _
    | some i =>
      obtain ⟨-, hi⟩ := idxOperand_eq_some hx
      have hin := hs.packed (by simpa [accepts] using ha)
      simp only [h.cfg_eq, show ¬ i ≥ hdrMax + s.cfg.cap by omega, if_false, ← h.outbuf i hi]
      exact .next (answer_agree h _ _)

/-! ### Every step -/

theorem coreStep_agree {s t : State} (hs : s.Runnable) (ht : t.arraysWf = true) (h : s.Agree t) (hb : s.busy = true) :
    SameNext (coreStep s) (coreStep t) := by
  rw [coreStep, coreStep, ← h.pending hb]
  cases decode s.pending with
  | error _ => exact .next (complete_agree (fail_agree h _ _))
  | ok i => exact (exec_agree i hs ht h).andThen fun _ _ _ _ hu => .next (complete_agree hu)

section
variable {s t : State} (h : s.Agree t)
include h

theorem withAnswer_agree (v : Word) : ({ s with rdata := v } : State).Agree { t with rdata := v } := by
  obtain ⟨u, b, n, o, p, rfl⟩ := h.exists_eq
  exact ⟨rfl, h.uniq, h.inbuf, h.node, h.outbuf, h.pending⟩

theorem withDraw_agree (v : Word) (d : Nat) :
    ({ s with rdata := v, draws := d } : State).Agree { t with rdata := v, draws := d } := by
  obtain ⟨u, b, n, o, p, rfl⟩ := h.exists_eq
  exact ⟨rfl, h.uniq, h.inbuf, h.node, h.outbuf, h.pending⟩

theorem readReg_agree (r : Reg) : (readReg r s).Agree (readReg r t) := by
  have hvalue : regValue t r = regValue s r := by rw [h.rest]; cases r <;> rfl
  have hdraw : ∀ d, busyValue t d r = busyValue s d r := fun d => by rw [h.rest]; cases r <;> rfl
  by_cases hb : (s.busy && !readsTrueWhileBusy r) = true
  · have hs : readReg r s = { s with rdata := busyValue s (Config.freeWord s.draws) r, draws := s.draws + 1 } := if_pos hb
    have ht : readReg r t = { t with rdata := busyValue s (Config.freeWord s.draws) r, draws := s.draws + 1 } := by
      rw [readReg, if_pos (h.busy_eq ▸ hb), hdraw, h.draws_eq]
    rw [hs, ht]
    exact withDraw_agree h _ _
  · have hs : readReg r s = { s with rdata := regValue s r } := if_neg hb
    have ht : readReg r t = { t with rdata := regValue s r } := by rw [readReg, if_neg (h.busy_eq ▸ hb), hvalue]
    rw [hs, ht]
    exact withAnswer_agree h _

/-- A read answers the same from both: it reads registers and the count of draws alone. -/
theorem busRead_agree (size : AccessSize) (off : BitVec 8) : (busRead size off s).Agree (busRead size off t) := by
  unfold busRead
  split
  · split
    · exact readReg_agree h _
    · exact withAnswer_agree h 0
  · exact withAnswer_agree h 0

theorem busWrite_agree (size : AccessSize) (off : BitVec 8) (v : Word) :
    (busWrite size off v s).Agree (busWrite size off v t) := by
  by_cases hreg : size = .word ∧ off = 0
  · obtain ⟨rfl, rfl⟩ := hreg
    rw [busWrite_cmd, busWrite_cmd]
    obtain ⟨u, b, n, o, p, rfl⟩ := h.exists_eq
    unfold issueCommand
    cases hb : s.busy with
    | true => exact ⟨rfl, h.uniq, h.inbuf, h.node, h.outbuf, fun _ => h.pending hb⟩
    | false => exact ⟨rfl, h.uniq, h.inbuf, h.node, h.outbuf, fun _ => rfl⟩
  · rw [busWrite_other hreg, busWrite_other hreg]
    exact h

/-- After reset no entry is valid, and what the two states differ in is gone. -/
theorem resetCore_agree : (resetCore s).Agree (resetCore t) := by
  obtain ⟨u, b, n, o, p, rfl⟩ := h.exists_eq
  exact ⟨rfl, fun _ _ => rfl, fun _ _ => rfl, fun _ _ => rfl, fun _ _ => rfl, fun _ => rfl⟩

end

theorem coreTurn_agree {s t : State} (hs : s.Runnable) (ht : t.arraysWf = true) (h : s.Agree t) :
    SameNext (coreTurn s) (coreTurn t) := by
  have hbusy := h.busy_eq
  unfold coreTurn
  cases hb : s.busy with
  | true => simp only [hbusy, hb, if_true]; exact coreStep_agree hs ht h hb
  | false => simp only [hbusy, hb, Bool.false_eq_true, if_false]; exact .next h

theorem hostEvent_agree (e : HostEvent) {s t : State} (hs : s.Runnable) (ht : t.arraysWf = true) (h : s.Agree t) :
    SameNext (hostEvent e s) (hostEvent e t) := by
  cases e with
  | read addr size =>
    simp only [hostEvent, h.cfg_eq]
    cases windowOffset s.cfg addr with
    | none => exact .next h
    | some off => exact .next (busRead_agree h size off)
  | write addr size v =>
    simp only [hostEvent, h.cfg_eq]
    cases windowOffset s.cfg addr with
    | none => exact .next h
    | some off => exact .next (busWrite_agree h size off v)
  | reset => exact .next (resetCore_agree h)
  | coreTurn => exact coreTurn_agree hs ht h

/-- Settles O58: a step is a host event or the core's turn, and each keeps the agreement. -/
theorem unspecifiedContentsNeverMatter : Obligations.UnspecifiedContentsNeverMatter := by
  intro s t hs ht h
  change SameNext (step s) (step t)
  rw [step, step, h.host_eq]
  cases s.host with
  | nil => exact coreTurn_agree hs.runnable ht.arrays h
  | cons e es => exact hostEvent_agree e (hs.runnable.withHost es) ht.arrays (withHost_agree h es)

end Sys2Proof.Machine
end

section
/-! SUPPORT. The word of a command (R63, R65): what decodes is the encoding of what it decodes to. -/

namespace Sys2Proof.Machine

theorem opcField_append_argField (w : Word) : opcField w ++ argField w = w := by
  refine BitVec.eq_of_getLsbD_eq fun k hk => ?_
  simp only [BitVec.getLsbD_append, opcField, argField, BitVec.getLsbD_extractLsb', Nat.zero_add]
  by_cases h : k < 24
  · simp only [h, if_true, decide_true, Bool.true_and]
  · have h8 : k - 24 < 8 := by omega
    have hk' : 24 + (k - 24) = k := by omega
    simp only [h, h8, hk', if_false, decide_true, decide_false, Bool.true_and]

/-- The opcode map is one-to-one (R65). -/
theorem opcode_of_mnemonicOf {opc : BitVec 8} {m : Mnemonic} (h : mnemonicOf opc = some m) : opcode m = opc := by
  unfold mnemonicOf at h
  split at h <;> cases h <;> exact BitVec.eq_of_toNat_eq (Eq.symm ‹_›)

theorem mnemonic_toInstr (m : Mnemonic) (a : Arg) : (m.toInstr a).mnemonic = m := by
  cases m <;> rfl

theorem operand_toInstr (m : Mnemonic) (a : Arg) : (m.toInstr a).operand = if m.kind = .none then 0 else a := by
  cases m <;> rfl

theorem encode_of_decode {w : Word} {i : Instr} (h : decode w = .ok i) : encode i = w := by
  unfold decode at h
  split at h
  · cases h
  · rename_i m hm
    split_ifs at h with hz
    cases h
    have harg : (if m.kind = .none then 0 else argField w) = argField w := by
      split_ifs with hk
      · exact (not_not.1 fun hne => hz ⟨hk, hne⟩).symm
      · rfl
    rw [encode, mnemonic_toInstr, operand_toInstr, harg, opcode_of_mnemonicOf hm, opcField_append_argField]

end Sys2Proof.Machine
end

section
/-! SUPPORT. The error record (R20, R21, R29), the result registers (R22), OVR (R18) and the phase (R19): what a core step
writes of each. -/

namespace Sys2Proof.Machine

/-- The error record of `t` after a core step of the command word `w` from `s` (R117, R118): a success leaves ERR and
ERRINFO, a failure writes them together if no error is recorded yet. -/
inductive ErrorRecord (w : Word) (s t : State) : Prop where
  | succeeded (hlast : t.lasterr = .none) (herr : t.err = s.err) (hinfo : t.errinfo = s.errinfo)
  | failed (info : Word) (hlast : t.lasterr ≠ .none) (herr : t.err = if s.err = .none then t.lasterr else s.err)
      (hinfo : t.errinfo = if s.err = .none then info else s.errinfo)
      (hword : t.lasterr ≠ .codeTooLong → info = w)
      (hlong : t.lasterr = .codeTooLong → ∃ x : Sym, 8 < (t.clenAt x).toNat ∧ info = 0#16 ++ t.clenAt x ++ x.setWidth 8)

theorem clenAt_of_firstTooLong {s : State} {x : Sym} (h : firstTooLong s = some x) : 8 < (s.clenAt x).toNat := by
  simpa using List.find?_some h

theorem exec_errorRecord {i : Instr} {s t : State} (hi : i ≠ .clear) (h : exec i s = .next t) :
    ErrorRecord (encode i) s t := by
  cases exec_did h with
  | failed i c hc hl => exact .failed (encode i) hc rfl rfl (fun _ => rfl) fun e => absurd e hl
  | cleared => exact absurd rfl hi
  | tooLong u _ _ x _ _ _ hu hf =>
    subst hu
    exact .failed _ (fun e => by cases e) rfl rfl (fun e => absurd rfl e) fun _ => ⟨x, clenAt_of_firstTooLong hf, rfl⟩
  | encodeTooLong u _ _ x _ _ _ _ hu hf =>
    subst hu
    exact .failed _ (fun e => by cases e) rfl rfl (fun e => absurd rfl e) fun _ => ⟨x, clenAt_of_firstTooLong hf, rfl⟩
  | coded u _ _ _ _ _ hu _ => subst hu; exact .succeeded rfl rfl rfl
  | encoded u _ _ _ _ _ _ hu _ _ _ => subst hu; exact .succeeded rfl rfl rfl
  | nop | dropped | pushed | built | packed | answered => exact .succeeded rfl rfl rfl

theorem coreStep_errorRecord {s t : State} (hi : decode s.pending ≠ .ok .clear) (h : coreStep s = .next t) :
    ErrorRecord s.pending s t := by
  rcases coreStep_eq_next h with ⟨_, -, rfl⟩ | ⟨i, u, hd, hx, rfl⟩
  · exact .failed s.pending (fun e => by cases e) rfl rfl (fun _ => rfl) fun e => by cases e
  · rw [← encode_of_decode hd]
    cases exec_errorRecord (fun e => hi (e ▸ hd)) hx with
    | succeeded hlast herr hinfo => exact .succeeded hlast herr hinfo
    | failed info hlast herr hinfo hword hlong => exact .failed info hlast herr hinfo hword hlong

/-- The state a CLEAR leaves. -/
theorem coreStep_clear {s t : State} (hd : decode s.pending = .ok .clear) (h : coreStep s = .next t) :
    t = complete (ok (clearState s)) := by
  rcases coreStep_eq_next h with ⟨_, he, -⟩ | ⟨i, u, hi, hx, rfl⟩
  · rw [hd] at he
    cases he
  · rw [hd] at hi
    cases hi
    rw [execClear_eq_next hx]

theorem head_of_coreMoves {s : State} (h : s.coreMoves = true) : s.host.head? ≠ some .reset := by
  intro hr
  obtain ⟨es, hes⟩ := List.head?_eq_some_iff.1 hr
  simp [State.coreMoves, hes] at h

/-- The events that clear the error record: a reset, and the core step of a CLEAR (R21). -/
def State.clearsErrors (s : State) : Prop :=
  s.host.head? = some .reset ∨ (s.coreMoves = true ∧ decode s.pending = .ok .clear)

/-- What a step does with the error record. -/
theorem step_errors {s t : State} (h : step s = .next t) :
    (s.clearsErrors ∧ t.err = .none ∧ t.errinfo = 0) ∨
    (¬ s.clearsErrors ∧ s.coreMoves = true ∧ ErrorRecord s.pending s t) ∨
    (¬ s.clearsErrors ∧ s.coreMoves = false ∧ t.err = s.err ∧ t.errinfo = s.errinfo) := by
  have bus : s.coreMoves = false → s.host.head? ≠ some .reset → ¬ s.clearsErrors := fun hm hr hc =>
    hc.elim hr fun ⟨hm', _⟩ => by simp [hm] at hm'
  cases step_moved h with
  | core t hm hc =>
    by_cases hd : decode s.pending = .ok .clear
    · have ht := coreStep_clear (s := { s with host := s.host.tail }) hd hc
      exact .inl ⟨.inr ⟨hm, hd⟩, by rw [ht]; rfl, by rw [ht]; rfl⟩
    · have hr := coreStep_errorRecord (s := { s with host := s.host.tail }) hd hc
      refine .inr (.inl ⟨fun hc => hc.elim (head_of_coreMoves hm) fun ⟨_, h⟩ => hd h, hm, ?_⟩)
      cases hr with
      | succeeded hlast herr hinfo => exact .succeeded hlast herr hinfo
      | failed info hlast herr hinfo hword hlong => exact .failed info hlast herr hinfo hword hlong
  | reset hr => exact .inl ⟨.inl hr, rfl, rfl⟩
  | idle v d hm hr _ => exact .inr (.inr ⟨bus hm hr, hm, rfl, rfl⟩)
  | latched w hw _ =>
    obtain ⟨hm, hr⟩ := coreMoves_of_cmdWrite hw
    exact .inr (.inr ⟨bus hm hr, hm, rfl, rfl⟩)
  | dropped hw _ =>
    obtain ⟨hm, hr⟩ := coreMoves_of_cmdWrite hw
    exact .inr (.inr ⟨bus hm hr, hm, rfl, rfl⟩)

/-- Settles O8, by what a step does with the error record: it clears it, runs a command, or leaves it alone. -/
theorem errorRecordSticky : Obligations.ErrorRecordSticky := by
  intro s t hstep
  rcases step_errors hstep with ⟨hc, herr, hinfo⟩ | ⟨hc, hm, hrecord⟩ | ⟨hc, hm, herr, hinfo⟩
  · exact ⟨fun _ => ⟨herr, hinfo⟩, fun hn => absurd hc hn⟩
  · refine ⟨fun h => absurd h hc, fun _ => ?_⟩
    cases hrecord with
    | succeeded hlast herr hinfo => simp_all
    | failed info hlast herr hinfo hword hlong =>
      by_cases h0 : s.err = .none
      · rw [if_pos h0] at herr hinfo
        rw [← herr] at hlast hword hlong
        simp_all
      · rw [if_neg h0] at herr hinfo
        simp_all
  · refine ⟨fun h => absurd h hc, fun _ => ?_⟩
    simp_all

/-- Settles O9, by the cases of a command. -/
theorem resultRegisters : Obligations.ResultRegisters := by
  intro i s t h
  have disjoint : ∀ m ∈ [Mnemonic.rdCount, .rdUniq, .rdInput, .rdNode, .rdCode, .rdBlob],
      m ∉ [Mnemonic.nop, .push, .build, .codes, .pack, .encode] := by decide
  have notNode : ∀ m ∈ [Mnemonic.rdCount, .rdUniq, .rdInput, .rdCode, .rdBlob], m ≠ .rdNode := by decide
  refine ⟨fun hkept => ?_, fun hread hlast => ?_, fun hclear => ?_, rfl, rfl⟩
  · cases exec_did h with
    | cleared => rcases hkept with ⟨hne, -⟩ | hm <;> simp [Instr.mnemonic] at *
    | answered i r0 r1 hi _ =>
      rcases hkept with ⟨-, hne⟩ | hm
      · exact absurd rfl hne
      · exact absurd hm (disjoint _ hi)
    | coded u _ _ _ _ _ hu _ => subst hu; exact ⟨rfl, rfl⟩
    | tooLong u _ _ _ _ _ _ hu _ => subst hu; exact ⟨rfl, rfl⟩
    | encoded u _ _ _ _ _ _ hu _ _ _ => subst hu; exact ⟨rfl, rfl⟩
    | encodeTooLong u _ _ _ _ _ _ _ hu _ => subst hu; exact ⟨rfl, rfl⟩
    | failed | nop | dropped | pushed | built | packed => exact ⟨rfl, rfl⟩
  · cases exec_did h with
    | failed i c hc _ => exact absurd hlast hc
    | answered i r0 r1 _ h1 => exact h1 (notNode _ hread)
    | _ => simp [Instr.mnemonic] at hread
  · subst hclear
    rw [execClear_eq_next h]
    exact ⟨rfl, rfl⟩

/-- What a core step does with OVR: nothing, unless it is CLEAR's (R18). -/
theorem coreStep_ovr {s t : State} (h : coreStep s = .next t) :
    t.ovr = s.ovr ∨ (decode s.pending = .ok .clear ∧ t.ovr = false) := by
  by_cases hd : decode s.pending = .ok .clear
  · rw [coreStep_clear hd h]
    exact .inr ⟨hd, rfl⟩
  · rcases coreStep_eq_next h with ⟨_, -, rfl⟩ | ⟨i, u, hi, hx, rfl⟩
    · exact .inl rfl
    · obtain ⟨-, -, -, -, -, hovr⟩ := exec_frame hx
      exact .inl (hovr fun e => hd (e ▸ hi))

/-- Settles O44, by the cases of a step. -/
theorem overrunFlag : Obligations.OverrunFlag := by
  intro s t hstep
  cases step_moved hstep with
  | core t hm hc =>
    have hw : s.cmdWrite ≠ true := fun hw => by simp [(coreMoves_of_cmdWrite hw).1] at hm
    refine ⟨fun h => absurd h hw, ?_⟩
    rcases coreStep_ovr hc with ho | ⟨hd, ho⟩
    · have hkept : t.ovr = s.ovr := ho
      rw [hkept]
      exact ⟨fun h h' => by simp [h] at h', fun h h' => by simp [h] at h'⟩
    · exact ⟨fun _ h => by simp [ho] at h, fun _ _ => .inr ⟨hm, hd⟩⟩
  | reset hr =>
    exact ⟨fun hw => absurd hr (coreMoves_of_cmdWrite hw).2, fun _ h => Bool.noConfusion h,
      fun _ _ => .inl hr⟩
  | idle v d _ _ hw =>
    exact ⟨fun h => by simp [hw] at h, fun h h' => by simp [h] at h', fun h h' => by simp [h] at h'⟩
  | latched w _ hb =>
    exact ⟨fun _ h => by simp [hb] at h, fun h h' => by simp [h] at h', fun h h' => by simp [h] at h'⟩
  | dropped hw hb => exact ⟨fun _ _ => ⟨rfl, rfl, rfl⟩, fun _ _ => ⟨hw, hb⟩,
      fun _ h => Bool.noConfusion h⟩

/-- The commands that change the phase, and what they change it to (R19). -/
theorem exec_phase {i : Instr} {s t : State} (h : exec i s = .next t) (hp : t.phase ≠ s.phase) :
    (i = .clear ∧ t.phase = .collect) ∨
    (i = .build ∧ s.phase = .collect ∧ t.phase = .tree ∧ t.lasterr = .none) ∨
    (i = .codes ∧ s.phase = .tree ∧ t.phase = .coded ∧ t.lasterr = .none) ∨
    (i = .pack ∧ s.phase = .coded ∧ t.phase = .packed ∧ t.lasterr = .none) ∨
    (i = .encode ∧ s.phase = .collect ∧ t.phase = .packed ∧ t.lasterr = .none) ∨
    (i = .codes ∧ s.phase = .tree ∧ t.phase = .failed ∧ t.lasterr = .codeTooLong) ∨
    (i = .encode ∧ s.phase = .collect ∧ t.phase = .failed ∧ t.lasterr = .codeTooLong) := by
  cases exec_did h with
  | cleared => exact .inl ⟨rfl, rfl⟩
  | built hs => exact .inr (.inl ⟨rfl, hs, rfl, rfl⟩)
  | coded _ _ _ hs => exact .inr (.inr (.inl ⟨rfl, hs, rfl, rfl⟩))
  | packed hs => exact .inr (.inr (.inr (.inl ⟨rfl, hs, rfl, rfl⟩)))
  | encoded _ _ _ hs => exact .inr (.inr (.inr (.inr (.inl ⟨rfl, hs, rfl, rfl⟩))))
  | tooLong _ _ _ _ hs => exact .inr (.inr (.inr (.inr (.inr (.inl ⟨rfl, hs, rfl, rfl⟩)))))
  | encodeTooLong _ _ _ _ hs => exact .inr (.inr (.inr (.inr (.inr (.inr ⟨rfl, hs, rfl, rfl⟩)))))
  | failed | nop | dropped | pushed | answered => exact absurd rfl hp

/-- Settles O56, by the cases of a step. -/
theorem phaseMoves : Obligations.PhaseMoves := by
  intro s t hstep hp
  cases step_moved hstep with
  | core t hm hc =>
    rcases coreStep_eq_next hc with ⟨_, -, rfl⟩ | ⟨i, u, hd, hx, rfl⟩
    · exact absurd rfl hp
    · exact .inr ⟨hm, i, hd, exec_phase (s := { s with host := s.host.tail }) (t := u) hx hp⟩
  | reset hr => exact .inl ⟨hr, rfl⟩
  | idle | latched | dropped => exact absurd rfl hp

/-- An index below 255 is not NIL. -/
theorem ne_nil_of_lt {b : Byte} (h : b.toNat < 255) : b ≠ 0xFF#8 := by
  rintro rfl
  exact absurd h (by decide)

/-- The SYM of a leaf is not NOSYM: symbols end at 127 (R7, R37). -/
theorem symByte_ne_nosym (x : Sym) : x.setWidth 8 ≠ 0xFF#8 := by
  refine ne_nil_of_lt ?_
  have := x.isLt
  rw [BitVec.toNat_setWidth]
  omega

theorem State.Inv.arenaOk {s : State} (h : s.Inv) (hp : s.phase ≠ .collect) : s.ArenaOk := by
  have hphase := h.phaseOk
  unfold State.PhaseOk at hphase
  split at hphase
  · contradiction
  all_goals exact hphase.1

/-- Settles O19: the clauses of R38 are those of `State.ArenaOk`, every link of a node other than NIL being an index below
255. -/
theorem treeInvariants : Obligations.TreeInvariants := by
  intro s h hp
  have harena := h.arenaOk hp
  have hle : s.nnodes.toNat ≤ 255 := Nat.le_of_lt_succ s.nnodes.isLt
  refine ⟨fun i hi => ?_, fun p hpn hn => ?_, harena.root_weight⟩
  · have hpar : (s.nodeAt i).par = 0xFF#8 ↔ i = s.root.toNat := by
      obtain ⟨hroot, hother⟩ := harena.parent i hi
      refine ⟨fun hnil => not_not.1 fun hne => ?_, hroot⟩
      obtain ⟨-, hlt, -⟩ := hother hne
      exact ne_nil_of_lt (by omega) hnil
    by_cases hleaf : i < s.n
    · obtain ⟨-, hsym, hlft, hrgt⟩ := harena.leaf i hleaf
      exact ⟨iff_of_true hleaf (hsym ▸ symByte_ne_nosym _), iff_of_true hleaf hlft, iff_of_true hleaf hrgt, hpar⟩
    · obtain ⟨hsym, -, hlft, hrgt, -⟩ := harena.internal i hi (by omega)
      exact ⟨iff_of_false hleaf (not_not.2 hsym), iff_of_false hleaf (ne_nil_of_lt (by omega)),
        iff_of_false hleaf (ne_nil_of_lt (by omega)), hpar⟩
  · obtain ⟨-, -, hlft, hrgt, hpl, hpr, hweight⟩ := harena.internal p hpn hn
    have hmod : (BitVec.ofNat 8 p).toNat = p := by rw [BitVec.toNat_ofNat, Nat.mod_eq_of_lt (by omega)]
    exact ⟨hlft, hrgt, by rw [hpl, hmod], by rw [hpr, hmod], hweight⟩

end Sys2Proof.Machine
end

section
/-! SUPPORT. The register window (R14 to R32): a bus transaction at an offset of the window, and the register it meets. -/

namespace Sys2Proof.Machine

/-- Bit strings side by side, as numbers. -/
theorem toNat_append_eq {m n : Nat} (x : BitVec m) (y : BitVec n) : (x ++ y).toNat = x.toNat * 2 ^ n + y.toNat := by
  rw [BitVec.toNat_append, ← Nat.shiftLeft_add_eq_or_of_lt y.isLt, Nat.shiftLeft_eq]

/-- Settles O42: STATUS is its fields side by side, so its value is their sum, each at its place. -/
theorem statusLayout : Obligations.StatusLayout := by
  intro s
  refine ⟨?_, rfl, rfl⟩
  have hzero : ∀ w, (0#w).toNat = 0 := fun _ => rfl
  simp only [statusWord, toNat_append_eq, BitVec.toNat_ofBool, hzero]
  ring

theorem step_read {s : State} {es : List HostEvent} {off : Nat} {size : AccessSize} (hoff : off < 256)
    (h : s.host = .read (s.cfg.base + off) size :: es) :
    step s = .next (busRead size (BitVec.ofNat 8 off) { s with host := es }) := by
  simp only [step, h, hostEvent, windowOffset_inside s.cfg hoff]

theorem step_write {s : State} {es : List HostEvent} {off : Nat} {size : AccessSize} {v : Word} (hoff : off < 256)
    (h : s.host = .write (s.cfg.base + off) size v :: es) :
    step s = .next (busWrite size (BitVec.ofNat 8 off) v { s with host := es }) := by
  simp only [step, h, hostEvent, windowOffset_inside s.cfg hoff]

/-- The offset of a register (R14). -/
def Reg.offset : Reg → Nat
  | .cmd => 0x00
  | .status => 0x04
  | .res0 => 0x08
  | .res1 => 0x0C
  | .inlen => 0x10
  | .nuniq => 0x14
  | .nnodes => 0x18
  | .root => 0x1C
  | .bitlen => 0x20
  | .bloblen => 0x24
  | .errinfo => 0x28
  | .id => 0x2C
  | .capr => 0x30

theorem regAt_eq_some {off : BitVec 8} {r : Reg} (h : regAt off = some r) : off.toNat = r.offset := by
  unfold regAt at h
  split at h <;> cases h <;> assumption

/-- Every word offset up to CAPR's holds a register. -/
theorem exists_regAt {off : Nat} (h : off ≤ 0x30) (h4 : off % 4 = 0) : ∃ r, regAt (BitVec.ofNat 8 off) = some r := by
  obtain ⟨k, rfl⟩ := Nat.dvd_of_mod_eq_zero h4
  have hk : k ≤ 12 := by omega
  interval_cases k <;> exact ⟨_, rfl⟩

/-- ID and CAPR, which read true while BUSY, are the last registers of the window. -/
theorem offset_of_readsTrue {r : Reg} (h : readsTrueWhileBusy r = true) : 0x2C ≤ r.offset := by
  cases r <;> simp [readsTrueWhileBusy, Reg.offset] at h ⊢

theorem eq_status_of_offset {r : Reg} (h : r.offset = 0x04) : r = .status := by
  cases r <;> simp [Reg.offset] at h ⊢

/-- No register stands beyond CAPR (R32). -/
theorem Reg.offset_lt (r : Reg) : r.offset < 0x34 := by
  cases r <;> decide

theorem toNat_offset {off : Nat} (h : off < 256) : (BitVec.ofNat 8 off).toNat = off := by
  rw [BitVec.toNat_ofNat, Nat.mod_eq_of_lt h]

section
variable {off : BitVec 8} (h4 : off.toNat % 4 = 0) (s : State)
include h4

theorem busRead_reg {r : Reg} (hr : regAt off = some r) : busRead .word off s = readReg r s := by
  simp [busRead, isRegAccess, h4, hr]

theorem busRead_reserved (hr : regAt off = none) : busRead .word off s = { s with rdata := 0 } := by
  simp [busRead, isRegAccess, h4, hr]

end

theorem readReg_idle {s : State} (hb : s.busy = false) (r : Reg) : readReg r s = { s with rdata := regValue s r } := by
  simp [readReg, hb]

theorem readReg_true {r : Reg} (hr : readsTrueWhileBusy r = true) (s : State) :
    readReg r s = { s with rdata := regValue s r } := by
  simp [readReg, hr]

theorem readReg_busy {s : State} (hb : s.busy = true) {r : Reg} (hr : readsTrueWhileBusy r = false) :
    readReg r s = { s with rdata := busyValue s (Config.freeWord s.draws) r, draws := s.draws + 1 } := by
  simp [readReg, hb, hr]

/-- What STATUS shows while BUSY = 1: BUSY and the true OVR (R17). -/
theorem busyValue_status_bits (s : State) (d : Word) :
    (busyValue s d .status).getLsbD 0 = true ∧ (busyValue s d .status).getLsbD 1 = s.ovr := by
  simp only [busyValue, BitVec.getLsbD_append]
  exact ⟨rfl, by cases s.ovr <;> rfl⟩

/-- Settles O43: the write is at offset 0 of the window, so it is a CMD write. -/
theorem cmdWrite : Obligations.CmdWrite := by
  intro s es w h
  have hstep : step s = .next (issueCommand w { s with host := es }) := step_write (off := 0) (by omega) h
  refine ⟨fun hb => ?_, fun hb => ?_⟩ <;> rw [hstep] <;> simp [issueCommand, hb]

/-- Settles O45: the register at the offset answers its value, and an offset beyond CAPR is reserved. -/
theorem idleRegisterReads : Obligations.IdleRegisterReads := by
  intro s es off hoff h4 h hb
  have hnat := toNat_offset hoff
  rw [step_read hoff h]
  cases hr : regAt (BitVec.ofNat 8 off) with
  | some r =>
    have hoffset := regAt_eq_some hr
    rw [hnat] at hoffset
    rw [busRead_reg (by omega) _ hr, readReg_idle (s := { s with host := es }) hb]
    subst hoffset
    cases r <;> rfl
  | none =>
    have hbeyond : ∀ k ≤ 0x30, off ≠ k := fun k hk e => by
      obtain ⟨r, hsome⟩ := exists_regAt (e ▸ hk) h4
      rw [hr] at hsome
      cases hsome
    rw [busRead_reserved (by omega) _ hr]
    simp [hbeyond]

/-- Settles O46: every offset up to ERRINFO's holds a register other than ID and CAPR. -/
theorem busyRegisterReads : Obligations.BusyRegisterReads := by
  intro s es off hoff h4 h hb
  have hlt : off < 256 := by omega
  have hnat := toNat_offset hlt
  obtain ⟨r, hr⟩ := exists_regAt (show off ≤ 0x30 by omega) h4
  have hoffset := regAt_eq_some hr
  have hfree : readsTrueWhileBusy r = false := eq_false_of_ne_true fun ht => by
    have := offset_of_readsTrue ht
    omega
  rw [step_read hlt h, busRead_reg (by omega) _ hr, readReg_busy (s := { s with host := es }) hb hfree]
  refine ⟨_, rfl, fun h04 => ?_⟩
  rw [eq_status_of_offset (show r.offset = 0x04 by omega)]
  exact busyValue_status_bits _ _

/-- Settles O47: ID and CAPR are the two registers that read true while BUSY. -/
theorem idAndCapacityReads : Obligations.IdAndCapacityReads := by
  intro s es
  refine ⟨fun h => ?_, fun h => ?_⟩
  · rw [step_read (by omega) h, busRead_reg rfl _ (r := .id) rfl, readReg_true rfl]
    rfl
  · rw [step_read (by omega) h, busRead_reg rfl _ (r := .capr) rfl, readReg_true rfl]
    rfl

/-- Settles O48: an offset beyond CAPR's holds no register, and only a write at offset 0 is a CMD write. -/
theorem reservedAndReadOnly : Obligations.ReservedAndReadOnly := by
  intro s es off v hoff h4
  have hnat := toNat_offset hoff
  refine ⟨fun hres h => ?_, fun hne h => ?_⟩
  · cases hr : regAt (BitVec.ofNat 8 off) with
    | some r =>
      have := regAt_eq_some hr
      have := r.offset_lt
      omega
    | none => rw [step_read hoff h, busRead_reserved (by omega) _ hr]
  · have hcmd : BitVec.ofNat 8 off ≠ 0 := fun e => hne (by rw [← hnat, e]; rfl)
    rw [step_write hoff h, busWrite_other fun hc => hcmd hc.2]

end Sys2Proof.Machine
end

section
/-! SUPPORT. The state after reset (R43, R131). -/

namespace Sys2Proof.Machine

/-- Settles O50: the values are those of `State.resetWith`, and with BUSY = 0 and no host event left the core waits. -/
theorem resetState : Obligations.ResetState := by
  intro c
  have hreset : (State.resetWith c).AtReset :=
    { status := ⟨rfl, rfl, rfl, rfl, rfl⟩
      results := ⟨rfl, rfl⟩
      registers := ⟨rfl, rfl, rfl, rfl, rfl, rfl, rfl⟩
      tables := fun _ => ⟨rfl, rfl, rfl⟩ }
  exact ⟨hreset, rfl, rfl, rfl⟩

/-- Settles O52: nothing is counted, stored, built or recorded. -/
theorem resetMeetsInvariant : Obligations.ResetMeetsInvariant := fun _ hc =>
  { legal := hc
    arrays := rfl
    len_le := Nat.zero_le _
    n_le := Nat.zero_le _
    counts := .of_empty rfl rfl rfl
    errors := fun _ => ⟨rfl, rfl⟩
    phaseOk := ⟨rfl, rfl, ⟨rfl, rfl⟩, rfl, rfl⟩ }

end Sys2Proof.Machine
end

section
/-! SUPPORT. Accesses to the window that are no register accesses (R46). -/

namespace Sys2Proof.Machine

theorem isRegAccess_iff {size : AccessSize} {off : BitVec 8} :
    isRegAccess size off = true ↔ size = .word ∧ off.toNat % 4 = 0 := by
  simp only [isRegAccess, Bool.and_eq_true, beq_iff_eq]

theorem busRead_other {size : AccessSize} {off : BitVec 8} (h : ¬ (size = .word ∧ off.toNat % 4 = 0)) (s : State) :
    busRead size off s = { s with rdata := 0 } :=
  if_neg (mt isRegAccess_iff.1 h)

/-- Settles O49: the access is no register access, so a read answers 0 and a write is ignored. -/
theorem narrowAndMisaligned : Obligations.NarrowAndMisaligned := by
  intro s es off size v hoff hbad
  have hnat := toNat_offset hoff
  have hother : ¬ (size = .word ∧ (BitVec.ofNat 8 off).toNat % 4 = 0) := by
    rw [hnat]
    tauto
  refine ⟨fun h => ?_, fun h => ?_⟩
  · rw [step_read hoff h, busRead_other hother]
  · rw [step_write hoff h, busWrite_other fun ⟨hword, hcmd⟩ => hother ⟨hword, by rw [hcmd]; rfl⟩]

end Sys2Proof.Machine
end

section
/-! SUPPORT. The bytes of the blob (R56 to R59, R99, R101): what PACK leaves in OUTBUF, part by part, and what the invariant
then says of the blob in PACKED. -/

namespace Sys2Proof.Machine

/-! ### What PACK writes -/

section
variable {size o : Nat} {m : Memory Byte} (h : Memory.wf size m = true) (ho : o + 3 < size) (t : Word)
include h ho

theorem writeLength_before {k : Nat} (hk : k < o) : Memory.read (writeLength o t m) k = Memory.read m k := by
  rw [writeLength_read h ho, if_neg (by omega), if_neg (by omega), if_neg (by omega), if_neg (by omega)]

/-- The four bytes of the length field, side by side, are the word (R58). -/
theorem writeLength_field : Memory.read (writeLength o t m) o ++ Memory.read (writeLength o t m) (o + 1) ++
    Memory.read (writeLength o t m) (o + 2) ++ Memory.read (writeLength o t m) (o + 3) = t := by
  have hbytes : t.extractLsb' 24 8 ++ t.extractLsb' 16 8 ++ t.extractLsb' 8 8 ++ t.extractLsb' 0 8 = t := by
    rw [BitVec.extractLsb'_append_extractLsb'_eq_extractLsb' (show 24 = 16 + 8 from rfl),
      BitVec.extractLsb'_append_extractLsb'_eq_extractLsb' (show 16 = 8 + 8 from rfl),
      BitVec.extractLsb'_append_extractLsb'_eq_extractLsb' (show 8 = 0 + 8 from rfl), BitVec.extractLsb'_eq_self]
  simpa [writeLength_read h ho] using hbytes

end

section
variable {s : State} (hw : Memory.wf (hdrMax + s.cfg.cap) s.outbuf = true) (hn : s.n ≤ asize)
include hw hn

/-- OUTBUF is in canonical form after the count byte, and after the records. -/
theorem packRecords_wf : Memory.wf (hdrMax + s.cfg.cap) (Memory.write s.outbuf 0 s.nuniq) = true ∧
    Memory.wf (hdrMax + s.cfg.cap)
      (writeRecords s.cfg.codeAlign s.uniq s.clen s.cbits (List.range s.n) (Memory.write s.outbuf 0 s.nuniq)) = true :=
  have hcount := Memory.wf_write hw (show 0 < hdrMax + s.cfg.cap by simp only [hdrMax_eq]; omega) s.nuniq
  ⟨hcount, writeRecords_wf (records_inside hn) hcount⟩

omit hw in
/-- The length field stands inside OUTBUF (R40, R58). -/
theorem lengthField_inside : 1 + 3 * s.n + 3 < hdrMax + s.cfg.cap := by
  simp only [asize_eq, hdrMax_eq] at hn ⊢
  omega

/-- The length field leaves the count byte and the records alone. -/
theorem packHeader_before {k : Nat} (hk : k < 1 + 3 * s.n) : Memory.read (packHeader s) k =
    Memory.read (writeRecords s.cfg.codeAlign s.uniq s.clen s.cbits (List.range s.n)
      (Memory.write s.outbuf 0 s.nuniq)) k :=
  writeLength_before (packRecords_wf hw hn).2 (lengthField_inside hn) _ hk

/-- R56. -/
theorem packHeader_count : Memory.read (packHeader s) 0 = s.nuniq := by
  rw [packHeader_before hw hn (by omega),
    writeRecords_other (records_inside hn) (packRecords_wf hw hn).1 0 (fun i _ => by omega), Memory.read_write hw, if_pos rfl]

/-- R57. -/
theorem packHeader_record {i : Nat} (hi : i < s.n) :
    Memory.read (packHeader s) (1 + 3 * i) = (s.uniqAt i).setWidth 8 ∧
    Memory.read (packHeader s) (2 + 3 * i) = s.clenAt (s.uniqAt i) ∧
    Memory.read (packHeader s) (3 + 3 * i) =
      recbits s.cfg.codeAlign (s.clenAt (s.uniqAt i)) (s.cbitsAt (s.uniqAt i)) := by
  rw [packHeader_before hw hn (by omega), packHeader_before hw hn (by omega), packHeader_before hw hn (by omega)]
  exact writeRecords_record (records_inside hn) (packRecords_wf hw hn).1 List.nodup_range i (List.mem_range.2 hi)

/-- R58. -/
theorem packHeader_length :
    Memory.read (packHeader s) (1 + 3 * s.n) ++ Memory.read (packHeader s) (2 + 3 * s.n) ++
      Memory.read (packHeader s) (3 + 3 * s.n) ++ Memory.read (packHeader s) (4 + 3 * s.n) =
    BitVec.ofNat 32 (totalBits s) := by
  rw [show 2 + 3 * s.n = 1 + 3 * s.n + 1 by omega, show 3 + 3 * s.n = 1 + 3 * s.n + 2 by omega,
    show 4 + 3 * s.n = 1 + 3 * s.n + 3 by omega]
  exact writeLength_field (packRecords_wf hw hn).2 (lengthField_inside hn) _

end

section
variable {s : State} (h : s.arraysWf = true) (hi : packInside s = true)
include h hi

theorem packBlob_header {k : Nat} (hk : k < payloadStart s) :
    Memory.read (packBlob s) k = Memory.read (packHeader s) k := by
  obtain ⟨-, -, -, -, -, -, hw⟩ := arraysWf_iff.1 h
  obtain ⟨hn, -, -, hfits⟩ := packInside_iff.1 hi
  rw [packBlob_eq, emitAll_other (packHeader_wf hw hn) (payload_end s ▸ hfits) k (.inl (by omega))]

/-- R59, R101: the payload is the bit string followed by zeros. -/
theorem packBlob_bit {q : Nat} (hq : q < 8 * ((totalBits s + 7) / 8)) :
    (Memory.read (packBlob s) (payloadStart s + q / 8)).getLsbD (7 - q % 8) = ((bitString s)[q]?).getD false := by
  obtain ⟨-, -, -, -, -, -, hw⟩ := arraysWf_iff.1 h
  obtain ⟨hn, -, -, hfits⟩ := packInside_iff.1 hi
  have hbit := emitAll_bit (packHeader_wf hw hn) (payload_end s ▸ hfits) (fun r _ hr => by omega) q
    (by rw [bitString_length, Nat.zero_add]; exact hq)
  rw [packBlob_eq, hbit, if_neg (Nat.not_lt_zero q), Nat.sub_zero]

end

/-- The code of a symbol, bit by bit from the root side (R101). -/
theorem codeBits_eq (s : State) (x : Sym) : codeBits s x =
    (List.range (s.clenAt x).toNat).map fun k => (s.cbitsAt x).getLsbD ((s.clenAt x).toNat - 1 - k) := by
  simp only [codeBits, List.range_eq_range', List.reverse_range', List.map_map, Function.comp_def, Nat.zero_add]

/-! ### The code lengths -/

/-- UNIQ lists no symbol twice (R44). -/
theorem State.CountsOk.uniqAt_inj {s : State} (h : s.CountsOk) {i j : Nat} (hi : i < s.n) (hj : j < s.n)
    (e : s.uniqAt i = s.uniqAt j) : i = j :=
  List.inj_on_of_nodup_map h.distinct (List.mem_range.2 hi) (List.mem_range.2 hj) e

theorem uniqAt_mem {s : State} {i : Nat} (hi : i < s.n) : s.uniqAt i ∈ s.uniqList :=
  List.mem_map_of_mem (List.mem_range.2 hi)

/-- The code of a unique symbol is its leaf's ancestor walk, unless it is the only symbol (R91). -/
theorem State.CodesOk.leaf_walk {s : State} (h : s.CodesOk) (hc : s.CountsOk) (h1 : s.n ≠ 1) {i : Nat} (hi : i < s.n) :
    ∃ d v, walk s.node maxNodes i 0 0 = some (d, v) ∧ s.clenAt (s.uniqAt i) = BitVec.ofNat 8 d ∧
      s.cbitsAt (s.uniqAt i) = if d ≤ maxCodeLen then v else 0 := by
  rw [State.CodesOk, codeTable, if_neg h1] at h
  exact deriveCodes_leaf h rfl rfl List.nodup_range
    (fun a ha b hb => hc.uniqAt_inj (List.mem_range.1 ha) (List.mem_range.1 hb)) i (List.mem_range.2 hi)

/-- The only symbol of an input has the 1-bit code SINGLE_CODE_BIT (R92). -/
theorem State.CodesOk.single {s : State} (h : s.CodesOk) (h1 : s.n = 1) :
    s.clenAt (s.uniqAt 0) = 1 ∧ s.cbitsAt (s.uniqAt 0) = s.cfg.singleCodeBit.setWidth 8 := by
  rw [State.CodesOk, codeTable, if_pos h1] at h
  obtain ⟨hclen, hcbits⟩ := Prod.mk.inj (Option.some.inj h)
  rw [State.clenAt, State.cbitsAt, ← hclen, ← hcbits, Memory.read_write (size := asize) rfl,
    Memory.read_write (size := asize) rfl, if_pos rfl, if_pos rfl]
  exact ⟨rfl, rfl⟩

/-- A leaf of a tree with two or more leaves has a parent (R38). -/
theorem State.ArenaOk.leaf_par_ne_nil {s : State} (h : s.ArenaOk) (hn : s.n ≤ asize) {i : Nat} (hi : i < s.n)
    (h1 : s.n ≠ 1) : (s.nodeAt i).par ≠ nil := by
  have hroot : s.root.toNat = 2 * s.n - 2 := by
    rw [h.root_eq, if_neg (by omega), BitVec.toNat_ofNat, Nat.mod_eq_of_lt (by simp only [asize_eq] at hn; omega)]
  have hnodes := h.nnodes_eq
  obtain ⟨-, hother⟩ := h.parent i (by omega)
  obtain ⟨-, hlt, -⟩ := hother (by omega)
  simp only [asize_eq] at hn
  exact ne_nil_of_lt (by omega)

/-- No unique symbol's code is empty (R92, R93). -/
theorem State.CodesOk.clenAt_pos {s : State} (h : s.CodesOk) (ha : s.ArenaOk) (hc : s.CountsOk) (hn : s.n ≤ asize)
    {i : Nat} (hi : i < s.n) : 1 ≤ (s.clenAt (s.uniqAt i)).toNat := by
  by_cases h1 : s.n = 1
  · obtain rfl : i = 0 := by omega
    rw [(h.single h1).1]
    decide
  · obtain ⟨d, v, hwalk, hclen, -⟩ := h.leaf_walk hc h1 hi
    obtain ⟨k, hk, rfl, hroot, -⟩ := walk_eq_some hwalk
    have hk0 : k ≠ 0 := by
      rintro rfl
      exact ha.leaf_par_ne_nil hn hi h1 hroot
    simp only [maxNodes_eq] at hk
    rw [hclen, BitVec.toNat_ofNat, Nat.mod_eq_of_lt (by omega)]
    omega

/-! ### The blob in PACKED -/

/-- What the invariant says in PACKED of the tree, the codes and the blob (R19), and that PACK finds every entry. -/
structure State.PackedOk (s : State) : Prop where
  arena : s.ArenaOk
  codes : s.CodesOk
  fits : firstTooLong s = none
  inside : packInside s = true
  bitlen_eq : s.bitlen.toNat = totalBits s
  blob : ∀ i < blobLength s, s.blobAt i = Memory.read (packBlob s) i

theorem State.Inv.packedOk {s : State} (h : s.Inv) (hp : s.phase = .packed) : s.PackedOk := by
  have hphase := h.phaseOk
  simp only [State.PhaseOk, hp] at hphase
  obtain ⟨harena, hcodes, hfits, hbitlen, -, hblob⟩ := hphase
  exact ⟨harena, hcodes, hfits, (pack_fits h.legal h.len_le h.n_le h.counts hfits).1, hbitlen, hblob⟩

theorem State.PackedOk.blobAt_header {s : State} (h : s.PackedOk) (hw : s.arraysWf = true) {k : Nat}
    (hk : k < payloadStart s) : s.blobAt k = Memory.read (packHeader s) k := by
  rw [h.blob k (Nat.lt_of_lt_of_le hk (Nat.le_add_right _ _)), packBlob_header hw h.inside hk]

theorem State.PackedOk.blobAt_bit {s : State} (h : s.PackedOk) (hw : s.arraysWf = true) {q : Nat}
    (hq : q < 8 * ((totalBits s + 7) / 8)) :
    (s.blobAt (payloadStart s + q / 8)).getLsbD (7 - q % 8) = ((bitString s)[q]?).getD false := by
  rw [h.blob _ (by rw [blobLength]; omega), packBlob_bit hw h.inside hq]

/-- Settles O30: the header is what PACK wrote, and every code has 1 to 8 bits. -/
theorem blobHeader : Obligations.BlobHeader := by
  intro s h hp
  have hpacked := h.packedOk hp
  obtain ⟨-, -, -, -, -, -, hw⟩ := arraysWf_iff.1 h.arrays
  have hread : ∀ k < 5 + 3 * s.n, s.blobAt k = Memory.read (packHeader s) k := fun _ => hpacked.blobAt_header h.arrays
  refine ⟨?_, fun i hi => ?_, ?_⟩
  · rw [hread 0 (by omega), packHeader_count hw h.n_le]
  · obtain ⟨hsym, hlen, hbits⟩ := packHeader_record hw h.n_le hi
    rw [hread _ (by omega), hread _ (by omega), hread _ (by omega)]
    exact ⟨hsym, hlen, hpacked.codes.clenAt_pos hpacked.arena h.counts h.n_le hi,
      firstTooLong_eq_none.1 hpacked.fits _ (uniqAt_mem hi), hbits⟩
  · rw [hread _ (by omega), hread _ (by omega), hread _ (by omega), hread _ (by omega), packHeader_length hw h.n_le,
      ← hpacked.bitlen_eq, BitVec.ofNat_toNat, BitVec.setWidth_eq]

/-- Settles O31: the payload's bits are those of the bit string, and zeros after them. -/
theorem blobPayload : Obligations.BlobPayload := by
  intro s h hp P bits
  have hpacked := h.packedOk hp
  have hbits : bits = bitString s := by rw [bitString, funext (codeBits_eq s)]
  have hlen : bits.length = s.bitlen.toNat := by rw [hbits, bitString_length, hpacked.bitlen_eq]
  have hbit : ∀ q < 8 * ((s.bitlen.toNat + 7) / 8), (s.blobAt (P + q / 8)).getLsbD (7 - q % 8) = (bits[q]?).getD false :=
    fun q hq => by
      rw [hpacked.bitlen_eq] at hq
      rw [hbits]
      exact hpacked.blobAt_bit h.arrays hq
  refine ⟨hlen, fun q hq => ?_, fun q hle hlt => ?_⟩
  · rw [hbit q (by omega), List.getElem?_eq_getElem (by omega), Option.getD_some]
  · rw [hbit q hlt, List.getElem?_eq_none (by omega), Option.getD_none]

end Sys2Proof.Machine
end

section
/-! SUPPORT. The decoder (R63 to R67, R71): which words decode and to what. -/

namespace Sys2Proof.Machine

theorem mnemonicOf_opcode (m : Mnemonic) : mnemonicOf (opcode m) = some m := by
  cases m <;> rfl

theorem toInstr_mnemonic_operand (i : Instr) : i.mnemonic.toInstr i.operand = i := by
  cases i <;> rfl

/-- A `none`-kind command has no operand, so its ARG is 0 (R63). -/
theorem operand_of_kind_none {i : Instr} (h : i.mnemonic.kind = .none) : i.operand = 0 := by
  have hoperand := operand_toInstr i.mnemonic i.operand
  rwa [toInstr_mnemonic_operand, if_pos h] at hoperand

/-- The two ways a word decodes, and what to (R67). -/
theorem decode_eq_ok_iff {w : Word} {i : Instr} : decode w = .ok i ↔
    ∃ m, mnemonicOf (opcField w) = some m ∧ (m.kind = .none → argField w = 0) ∧ m.toInstr (argField w) = i := by
  unfold decode
  cases mnemonicOf (opcField w) with
  | none => simp
  | some m =>
    simp only [Option.some.injEq, exists_eq_left']
    by_cases hz : m.kind = .none ∧ argField w ≠ 0
    · rw [if_pos hz]
      exact ⟨nofun, fun ⟨hzero, _⟩ => absurd (hzero hz.1) hz.2⟩
    · rw [if_neg hz, Except.ok.injEq, and_iff_right fun hk => not_not.1 fun hne => hz ⟨hk, hne⟩]

/-- Settles O2: the fields of a command's word are its opcode and operand, and these give the command back. -/
theorem decodeOfEncode : Obligations.DecodeOfEncode := by
  intro i
  obtain ⟨hopc, harg, hmap, hback⟩ :=
    Laws.Fields.of_append i (mnemonicOf_opcode i.mnemonic) (toInstr_mnemonic_operand i)
  refine decode_eq_ok_iff.2 ⟨i.mnemonic, hopc ▸ hmap, fun hk => ?_, harg ▸ hback⟩
  rw [harg, operand_of_kind_none hk]

/-- Settles O3. -/
theorem encodeOfDecode : Obligations.EncodeOfDecode := fun _ _ => encode_of_decode

/-- Settles O1, word by word. -/
theorem specWordsDecode : Obligations.SpecWordsDecode := by
  unfold Obligations.SpecWordsDecode
  decide

end Sys2Proof.Machine
end

section
/-! SUPPORT. The core step of R66 as the step of the machine, and what it does with an illegal word (R67, R120). -/

namespace Sys2Proof.Machine

/-- The opcodes of R65, as numbers. -/
theorem mnemonicOf_isSome_iff {opc : BitVec 8} :
    (∃ m, mnemonicOf opc = some m) ↔ opc.toNat ≤ 0x06 ∨ (0x10 ≤ opc.toNat ∧ opc.toNat ≤ 0x15) := by
  constructor
  · rintro ⟨m, hm⟩
    rw [← opcode_of_mnemonicOf hm]
    cases m <;> decide
  · intro h
    unfold mnemonicOf
    generalize opc.toNat = k at h
    rcases h with h | ⟨hlo, hhi⟩
    · interval_cases k <;> exact ⟨_, rfl⟩
    · interval_cases k <;> exact ⟨_, rfl⟩

/-- The opcodes of the `none`-kind commands are 0 to 6 but for PUSH's (R64, R65). -/
theorem kind_none_iff (m : Mnemonic) : m.kind = .none ↔ (opcode m).toNat ≤ 0x06 ∧ (opcode m).toNat ≠ 0x02 := by
  cases m <;> decide

theorem opcField_toNat (w : Word) : (opcField w).toNat = w.toNat / 2 ^ 24 := by
  have := w.isLt
  rw [opcField, BitVec.extractLsb'_toNat, Nat.shiftRight_eq_div_pow, Nat.mod_eq_of_lt (by omega)]

theorem argField_toNat (w : Word) : (argField w).toNat = w.toNat % 2 ^ 24 := by
  rw [argField, BitVec.extractLsb'_toNat, Nat.shiftRight_zero]

/-- R67: which words decode. -/
theorem exists_decode_iff (w : Word) : (∃ i, decode w = .ok i) ↔
    (w.toNat / 2 ^ 24 ≤ 0x06 ∨ (0x10 ≤ w.toNat / 2 ^ 24 ∧ w.toNat / 2 ^ 24 ≤ 0x15)) ∧
      ((w.toNat / 2 ^ 24 ≤ 0x06 ∧ w.toNat / 2 ^ 24 ≠ 0x02) → w.toNat % 2 ^ 24 = 0) := by
  have harg : argField w = 0 ↔ w.toNat % 2 ^ 24 = 0 := by rw [← argField_toNat, ← BitVec.toNat_inj]; rfl
  have hkind : ∀ {m}, mnemonicOf (opcField w) = some m →
      (m.kind = .none ↔ w.toNat / 2 ^ 24 ≤ 0x06 ∧ w.toNat / 2 ^ 24 ≠ 0x02) := fun {m} hm => by
    rw [kind_none_iff, opcode_of_mnemonicOf hm, opcField_toNat]
  rw [← opcField_toNat, ← mnemonicOf_isSome_iff, opcField_toNat]
  constructor
  · rintro ⟨i, hi⟩
    obtain ⟨m, hm, hz, -⟩ := decode_eq_ok_iff.1 hi
    exact ⟨⟨m, hm⟩, fun h => harg.1 (hz ((hkind hm).2 h))⟩
  · rintro ⟨⟨m, hm⟩, hz⟩
    exact ⟨_, decode_eq_ok_iff.2 ⟨m, hm, fun h => harg.2 (hz ((hkind hm).1 h)), rfl⟩⟩

/-- With BUSY = 1 and the next move the core's, the step is the core step (R51, R66). -/
theorem step_eq_coreStep {s : State} {es : List HostEvent} (hb : s.busy = true)
    (hh : s.host = [] ∧ es = [] ∨ s.host = .coreTurn :: es) : step s = coreStep { s with host := es } := by
  have hturn : coreTurn { s with host := es } = coreStep { s with host := es } := if_pos hb
  rw [← hturn]
  rcases hh with ⟨hh, rfl⟩ | hh
  · have hs : ({ s with host := [] } : State) = s := by rw [← hh]
    rw [hs, step, hh]
  · rw [step, hh]
    rfl

theorem coreStep_of_ok {s : State} {i : Instr} (h : decode s.pending = .ok i) :
    coreStep s = andThen (exec i s) fun t => .next (complete t) := by
  rw [coreStep, h]

theorem coreStep_of_illegal {s : State} (h : ∀ i, decode s.pending ≠ .ok i) :
    coreStep s = .next (complete (fail .illegal s.pending s)) := by
  unfold coreStep
  split
  · rfl
  · exact absurd ‹_› (h _)

/-- Settles O4: the words that decode are those of `exists_decode_iff`, and any other ends the core step with
`fail(ILLEGAL, w)`. -/
theorem illegalWordCompletes : Obligations.IllegalWordCompletes := by
  refine fun w => ⟨exists_decode_iff w, ?_⟩
  rintro s rfl hnone t
  refine ⟨coreStep_of_illegal hnone, fun es hb hh => ?_⟩
  rw [step_eq_coreStep hb hh, coreStep_of_illegal (s := { s with host := es }) hnone]
  rfl

/-- Settles O5: the step is the core step, in the given state and right after a command word is placed; with BUSY = 0 the
core waits. -/
theorem stepRunsDecodedCommand : Obligations.StepRunsDecodedCommand := by
  intro s
  refine ⟨fun i es hd hb hh => ?_, fun i w hw hd => ?_, fun hb hh => ?_⟩
  · rw [step_eq_coreStep hb hh, coreStep_of_ok (s := { s with host := es }) hd]
    rfl
  · rw [State.withFetchWord, Nat.mod_eq_of_lt hw,
      step_eq_coreStep (s := placeCommand (BitVec.ofNat 32 w) s) (es := s.host) rfl (.inr rfl),
      coreStep_of_ok (s := { placeCommand (BitVec.ofNat 32 w) s with host := s.host }) hd]
    rfl
  · rw [step, hh]
    exact if_neg (by simp [hb])

end Sys2Proof.Machine
end

section
/-! SUPPORT. The phase check (R68, R121). -/

namespace Sys2Proof.Machine

theorem exec_of_refuses {i : Instr} {s : State} (h : accepts i s.phase = false) :
    exec i s = .next (fail .sequence (encode i) s) := by
  cases i <;> exact whenAccepted_of_refuses h

theorem checkLengths_lasterr_ne_sequence (s : State) : (checkLengths s).lasterr ≠ .sequence := by
  rcases checkLengths_cases s with ⟨-, e⟩ | ⟨x, -, e⟩
  · rw [e]
    nofun
  · rw [e]
    nofun

/-- An accepted command ends with another code than SEQUENCE. -/
theorem exec_lasterr_ne_sequence {i : Instr} {s t : State} (ha : accepts i s.phase = true) (h : exec i s = .next t) :
    t.lasterr ≠ .sequence := by
  cases i with
  | nop => rw [execNop_eq_next h]; nofun
  | clear => rw [execClear_eq_next h]; nofun
  | push arg =>
    rcases execPush_eq_next h with ⟨hp, -⟩ | ⟨-, -, rfl⟩ | ⟨-, -, -, rfl⟩ | ⟨-, x, -, -, -, -, rfl⟩
    · exact absurd (by simpa [accepts] using ha) hp
    · nofun
    · nofun
    · nofun
  | build =>
    rcases execBuild_eq_next h with ⟨hp, -⟩ | ⟨-, -, -, rfl⟩
    · exact absurd (by simpa [accepts] using ha) hp
    · nofun
  | codes =>
    rcases execCodes_eq_next h with ⟨hp, -⟩ | ⟨-, -, _, _, -, rfl⟩
    · exact absurd (by simpa [accepts] using ha) hp
    · exact checkLengths_lasterr_ne_sequence _
  | pack =>
    rcases execPack_eq_next h with ⟨hp, -⟩ | ⟨-, -, -, rfl⟩
    · exact absurd (by simpa [accepts] using ha) hp
    · nofun
  | encode =>
    rcases execEncode_eq_next h with ⟨hp, -⟩ | ⟨-, hbody⟩
    · exact absurd (by simpa [accepts] using ha) hp
    · obtain ⟨u, v, -, hv, ⟨-, rfl⟩ | ⟨-, hpack⟩⟩ := encodeBody_eq_next hbody
      · obtain ⟨-, _, _, -, rfl⟩ := codesBody_eq_next hv
        exact checkLengths_lasterr_ne_sequence _
      · obtain ⟨-, -, rfl⟩ := packBody_eq_next hpack
        nofun
  | rdCount arg => rcases execRdCount_eq_next h with ⟨-, rfl⟩ | ⟨x, -, rfl⟩ <;> nofun
  | rdUniq arg => rcases execRdUniq_eq_next h with ⟨-, rfl⟩ | ⟨x, -, -, rfl⟩ <;> nofun
  | rdInput arg => rcases execRdInput_eq_next h with ⟨-, rfl⟩ | ⟨x, -, -, rfl⟩ <;> nofun
  | rdNode arg =>
    rcases execRdNode_eq_next h with ⟨hp, -⟩ | ⟨-, rfl⟩ | ⟨x, -, rfl⟩
    · simp [accepts, hp] at ha
    · nofun
    · nofun
  | rdCode arg =>
    rcases execRdCode_eq_next h with ⟨hp | hp, -⟩ | ⟨-, rfl⟩ | ⟨x, -, rfl⟩
    · simp [accepts, hp] at ha
    · simp [accepts, hp] at ha
    · nofun
    · nofun
  | rdBlob arg =>
    rcases execRdBlob_eq_next h with ⟨hp, -⟩ | ⟨-, rfl⟩ | ⟨x, -, -, rfl⟩
    · exact absurd (by simpa [accepts] using ha) hp
    · nofun
    · nofun

/-- Settles O6: a command outside its phases is refused, and an accepted one ends with another code. -/
theorem phaseCheck : Obligations.PhaseCheck := by
  intro i s accepted
  have haccepted : accepted ↔ accepts i s.phase = true := by
    cases i <;> simp [accepted, accepts, or_assoc]
  rw [haccepted]
  exact ⟨fun hn => exec_of_refuses (eq_false_of_ne_true hn), fun ha t => exec_lasterr_ne_sequence ha⟩

end Sys2Proof.Machine
end

section
/-! SUPPORT. The tree that BUILD grows (R37, R38, R84 to R86): what every turn of the merge loop keeps of it, and that it
ends as a sound arena. -/

namespace Sys2Proof.Machine

/-- The leaves weigh as much as the input is long (R38 (e), R44). -/
theorem State.CountsOk.leafWeight_eq {s : State} (h : s.CountsOk) : leafWeight s = s.len := by
  have hnodup : (s.uniqList.map BitVec.toNat).Nodup := h.distinct.map fun _ _ => BitVec.eq_of_toNat_eq
  have hunused : ∀ k ∈ Finset.range asize, k ∉ usedSymbols s → (Memory.read s.count k).toNat = 0 := fun k hk hnot => by
    have hzero : Memory.read s.count k = 0 := not_not.1 fun hne => hnot (Finset.mem_filter.2 ⟨hk, hne⟩)
    rw [hzero]
    rfl
  calc leafWeight s
      = ∑ k ∈ usedSymbols s, (Memory.read s.count k).toNat := by
        rw [← h.uniqList_eq_used, List.sum_toFinset _ hnodup, List.map_map]
        rfl
    _ = ∑ k ∈ Finset.range asize, (Memory.read s.count k).toNat := Finset.sum_subset (Finset.filter_subset _ _) hunused
    _ = s.len := by rw [← sum_counts, h.sum_eq]

/-! ### One merge -/

section
variable {f : Forest} (h : f.Sound) {a b : Nat} (ha : a ∈ f.eligible) (hb : b ∈ f.eligible) (hab : a ≠ b)
include h ha hb hab

/-- With two eligible nodes left the arena has room for one more. -/
theorem Forest.Sound.next_lt : f.next < 255 := by
  have hsub : ({a, b} : Finset Nat) ⊆ f.eligible.toFinset := by
    intro i hi
    rcases Finset.mem_insert.1 hi with rfl | hi
    · exact List.mem_toFinset.2 ha
    · exact Finset.mem_singleton.1 hi ▸ List.mem_toFinset.2 hb
  have hcard := (Finset.card_le_card hsub).trans (List.toFinset_card_le f.eligible)
  rw [Finset.card_pair hab] at hcard
  have hroom := h.room
  omega

theorem Forest.Sound.read_link (i : Nat) : Memory.read (linkNodes f.node a b f.next) i =
    if i = f.next then
      { w := (Memory.read f.node a).w + (Memory.read f.node b).w
        sym := nosym, par := nil, lft := BitVec.ofNat 8 a, rgt := BitVec.ofNat 8 b }
    else if i = a ∨ i = b then { Memory.read f.node i with par := BitVec.ofNat 8 f.next }
    else Memory.read f.node i := by
  have hnext := h.next_lt ha hb hab
  have han := h.below a ha
  have hbn := h.below b hb
  exact linkNodes_read h.wf (by simp only [maxNodes_eq]; omega) (by simpa only [maxNodes_eq] using hnext) (by omega)
    (by omega) hab i

/-- A merge changes no old node but in its parent. -/
theorem Forest.Sound.read_link_old {i : Nat} (hi : i < f.next) :
    ∃ q, Memory.read (linkNodes f.node a b f.next) i = { Memory.read f.node i with par := q } := by
  rw [h.read_link ha hb hab, if_neg (by omega)]
  split_ifs
  · exact ⟨_, rfl⟩
  · exact ⟨(Memory.read f.node i).par, rfl⟩

/-- A merge leaves the nodes merged before it alone. -/
theorem Forest.Sound.read_link_merged {i : Nat} (hi : i < f.next) (hE : i ∉ f.eligible) :
    Memory.read (linkNodes f.node a b f.next) i = Memory.read f.node i := by
  have hnot : ¬ (i = a ∨ i = b) := fun e => hE (e.elim (· ▸ ha) (· ▸ hb))
  rw [h.read_link ha hb hab, if_neg (by omega), if_neg hnot]

end

/-! ### The tree so far -/

/-- The node `p` joins two different older nodes, which link back to it (R37, R38 (c), (d)). -/
def JoinsChildren (node : Memory Node) (p : Nat) : Prop :=
  (Memory.read node p).sym = nosym ∧ (Memory.read node p).lft ≠ (Memory.read node p).rgt ∧
  (Memory.read node p).lft.toNat < p ∧ (Memory.read node p).rgt.toNat < p ∧
  (Memory.read node (Memory.read node p).lft.toNat).par = BitVec.ofNat 8 p ∧
  (Memory.read node (Memory.read node p).rgt.toNat).par = BitVec.ofNat 8 p ∧
  (Memory.read node p).w.toNat = (Memory.read node (Memory.read node p).lft.toNat).w.toNat +
    (Memory.read node (Memory.read node p).rgt.toNat).w.toNat

/-- What the merge loop keeps of the tree it grows over the leaves of `s`: the leaves but for their parents, the joined
nodes, that a merged node is its parent's child, that the youngest node is eligible, and the weight of the eligible nodes
together. -/
structure Forest.Grows (s : State) (f : Forest) : Prop where
  sound : f.Sound
  leaves_le : s.n ≤ f.next
  leaf : ∀ i < s.n, ∃ q, Memory.read f.node i = { leafNode s.count s.uniq i with par := q }
  joined : ∀ p < f.next, s.n ≤ p → JoinsChildren f.node p
  child : ∀ i < f.next, i ∉ f.eligible →
    (Memory.read f.node (Memory.read f.node i).par.toNat).lft.toNat = i ∨
      (Memory.read f.node (Memory.read f.node i).par.toNat).rgt.toNat = i
  youngest : 1 ≤ s.n → f.next - 1 ∈ f.eligible
  weight : (f.eligible.map (weightAt f.node)).sum = leafWeight s

theorem leafForest_read {s : State} (hw : Memory.wf maxNodes s.node = true) (hn : s.n ≤ asize) {i : Nat} (hi : i < s.n) :
    Memory.read (leafForest s).node i = leafNode s.count s.uniq i := by
  have hle : s.n ≤ maxNodes := by simp only [asize_eq, maxNodes_eq] at hn ⊢; omega
  exact (seedLeaves_read hle s.count s.uniq s.node hw i).trans (if_pos hi)

theorem leafForest_grows {s : State} (hw : Memory.wf maxNodes s.node = true) (hn : s.n ≤ asize) :
    (leafForest s).Grows s where
  sound := leafForest_sound hw hn
  leaves_le := le_rfl
  leaf := fun i hi => ⟨nil, leafForest_read hw hn hi⟩
  joined := fun p hp hle => absurd hp (not_lt.2 hle)
  child := fun i hi hE => absurd (List.mem_range.2 hi) hE
  youngest := fun h1 => List.mem_range.2 (Nat.sub_lt h1 one_pos)
  weight := by
    have hweight : (List.range s.n).map (weightAt (leafForest s).node) =
        (List.range s.n).map fun i => (s.countAt (s.uniqAt i)).toNat :=
      List.map_congr_left fun i hi => by rw [weightAt, leafForest_read hw hn (List.mem_range.1 hi)]; rfl
    rw [leafWeight, State.uniqList, List.map_map]
    exact congrArg List.sum hweight

/-- A child of a joined node is not eligible: its parent is not NIL. -/
theorem Forest.Sound.notMem_of_par {f : Forest} (h : f.Sound) (hnext : f.next < 255) {c p : Nat} (hp : p < f.next)
    (hpar : (Memory.read f.node c).par = BitVec.ofNat 8 p) : c ∉ f.eligible := fun hc =>
  ne_nil_of_lt (by rw [BitVec.toNat_ofNat, Nat.mod_eq_of_lt (by omega)]; omega) (hpar.symm.trans (h.eligible_par c hc))

section
variable {s : State} {f : Forest} (h : f.Grows s) {a b : Nat} (ha : a ∈ f.eligible) (hb : b ∈ f.eligible) (hab : a ≠ b)
include h ha hb hab

/-- The weights of the two nodes extracted and of the other eligible nodes. -/
theorem Forest.Grows.weight_extract : weightAt f.node a + weightAt f.node b +
    (((f.eligible.erase a).erase b).map (weightAt f.node)).sum = leafWeight s := by
  have hb' : b ∈ f.eligible.erase a := (List.mem_erase_of_ne hab.symm).2 hb
  rw [← h.weight, ← List.sum_map_erase (weightAt f.node) ha, ← List.sum_map_erase (weightAt f.node) hb', add_assoc]

theorem Forest.Grows.weightAt_link_old {i : Nat} (hi : i < f.next) :
    weightAt (linkNodes f.node a b f.next) i = weightAt f.node i := by
  obtain ⟨q, hq⟩ := h.sound.read_link_old ha hb hab hi
  rw [weightAt, hq, weightAt]

/-- The new node's weight is the exact sum (R85). -/
theorem Forest.Grows.weightAt_link_new (hmax : leafWeight s < 2 ^ 32) :
    weightAt (linkNodes f.node a b f.next) f.next = weightAt f.node a + weightAt f.node b := by
  have hextract := h.weight_extract ha hb hab
  rw [weightAt, h.sound.read_link ha hb hab, if_pos rfl, BitVec.toNat_add]
  exact Nat.mod_eq_of_lt (by simp only [weightAt] at hextract; omega)

theorem Forest.Grows.joined_new (hmax : leafWeight s < 2 ^ 32) : JoinsChildren (linkNodes f.node a b f.next) f.next := by
  have hnext := h.sound.next_lt ha hb hab
  have han := h.sound.below a ha
  have hbn := h.sound.below b hb
  have hread := h.sound.read_link ha hb hab
  have hweight := h.weightAt_link_new ha hb hab hmax
  rw [← h.weightAt_link_old ha hb hab han, ← h.weightAt_link_old ha hb hab hbn] at hweight
  have hlft : (Memory.read (linkNodes f.node a b f.next) f.next).lft.toNat = a := by
    rw [hread, if_pos rfl, BitVec.toNat_ofNat, Nat.mod_eq_of_lt (by omega)]
  have hrgt : (Memory.read (linkNodes f.node a b f.next) f.next).rgt.toNat = b := by
    rw [hread, if_pos rfl, BitVec.toNat_ofNat, Nat.mod_eq_of_lt (by omega)]
  have hpar : ∀ i, i = a ∨ i = b → (Memory.read (linkNodes f.node a b f.next) i).par = BitVec.ofNat 8 f.next :=
    fun i hi => by rw [hread, if_neg (by omega), if_pos hi]
  refine ⟨by rw [hread, if_pos rfl], fun e => hab (hlft.symm.trans ((congrArg BitVec.toNat e).trans hrgt)), ?_⟩
  rw [hlft, hrgt]
  exact ⟨han, hbn, hpar a (.inl rfl), hpar b (.inr rfl), hweight⟩

theorem Forest.Grows.joined_old {p : Nat} (hp : p < f.next) (hn : s.n ≤ p) :
    JoinsChildren (linkNodes f.node a b f.next) p := by
  have hnext := h.sound.next_lt ha hb hab
  obtain ⟨hsym, hne, hlft, hrgt, hpl, hpr, hweight⟩ := h.joined p hp hn
  obtain ⟨q, hq⟩ := h.sound.read_link_old ha hb hab hp
  have hl := h.sound.read_link_merged ha hb hab (hlft.trans hp) (h.sound.notMem_of_par hnext hp hpl)
  have hr := h.sound.read_link_merged ha hb hab (hrgt.trans hp) (h.sound.notMem_of_par hnext hp hpr)
  simp only [JoinsChildren, hq, hl, hr]
  exact ⟨hsym, hne, hlft, hrgt, hpl, hpr, hweight⟩

theorem Forest.Grows.child_link {i : Nat} (hi : i < f.next) (hE : i = a ∨ i = b ∨ i ∉ f.eligible) :
    (Memory.read (linkNodes f.node a b f.next)
      (Memory.read (linkNodes f.node a b f.next) i).par.toNat).lft.toNat = i ∨
    (Memory.read (linkNodes f.node a b f.next)
      (Memory.read (linkNodes f.node a b f.next) i).par.toNat).rgt.toNat = i := by
  have hnext := h.sound.next_lt ha hb hab
  by_cases hiE : i ∈ f.eligible
  · have hiab : i = a ∨ i = b := by tauto
    have hpar : (Memory.read (linkNodes f.node a b f.next) i).par.toNat = f.next := by
      rw [h.sound.read_link ha hb hab, if_neg (by omega), if_pos hiab, BitVec.toNat_ofNat, Nat.mod_eq_of_lt (by omega)]
    rw [hpar, h.sound.read_link ha hb hab, if_pos rfl]
    simp only [BitVec.toNat_ofNat]
    omega
  · obtain ⟨-, hlt⟩ := h.sound.merged_par i hi hiE
    obtain ⟨q, hq⟩ := h.sound.read_link_old ha hb hab hlt
    rw [h.sound.read_link_merged ha hb hab hi hiE, hq]
    exact h.child i hi hiE

end

/-- One turn of the loop keeps the tree. -/
theorem mergeOnce_grows (tb : TieBreak) (choice : Nat → Nat) {s : State} {f : Forest} (hmax : leafWeight s < 2 ^ 32)
    (h : f.Grows s) (hl : 2 ≤ f.eligible.length) : (mergeOnce tb choice f).Grows s := by
  obtain ⟨a, b, ha, hb, hab, -, -, e⟩ := mergeOnce_spec tb choice f h.sound.nodup hl
  have hsound := mergeOnce_sound tb choice h.sound hl
  have hle := h.leaves_le
  rw [e] at hsound ⊢
  refine ⟨hsound, by simp only; omega, fun i hi => ?_, fun p hp hn => ?_, fun i hi hE => ?_,
    fun _ => List.mem_append_right _ (List.mem_singleton.2 rfl), ?_⟩
  · obtain ⟨q, hq⟩ := h.sound.read_link_old ha hb hab (hi.trans_le hle)
    obtain ⟨q', hq'⟩ := h.leaf i hi
    exact ⟨q, by rw [hq, hq']⟩
  · by_cases hpnext : p = f.next
    · exact hpnext ▸ h.joined_new ha hb hab hmax
    · exact h.joined_old ha hb hab (by simp only at hp; omega) hn
  · simp only [List.mem_append, List.mem_singleton, not_or, (h.sound.nodup.erase a).mem_erase_iff,
      h.sound.nodup.mem_erase_iff] at hi hE
    exact h.child_link ha hb hab (by omega) (by tauto)
  · have hrest : ((f.eligible.erase a).erase b).map (weightAt (linkNodes f.node a b f.next)) =
        ((f.eligible.erase a).erase b).map (weightAt f.node) :=
      List.map_congr_left fun i hi => h.weightAt_link_old ha hb hab
        (h.sound.below i (List.mem_of_mem_erase (List.mem_of_mem_erase hi)))
    simp only [List.map_append, List.map_singleton, List.sum_append, List.sum_singleton, hrest,
      h.weightAt_link_new ha hb hab hmax]
    rw [add_comm, h.weight_extract ha hb hab]

theorem mergeAll_grows (tb : TieBreak) (choice : Nat → Nat) {s : State} (hmax : leafWeight s < 2 ^ 32) :
    ∀ (fuel : Nat) {f : Forest}, f.Grows s → (mergeAll tb choice fuel f).Grows s
  | 0, _, h => h
  | fuel + 1, f, h => by
    rw [mergeAll]
    split_ifs with hl
    · exact h
    · exact mergeAll_grows tb choice hmax fuel (mergeOnce_grows tb choice hmax h (by omega))

theorem buildForest_grows (choice : Nat → Nat) {s : State} (hw : Memory.wf maxNodes s.node = true) (hn : s.n ≤ asize)
    (hmax : leafWeight s < 2 ^ 32) : (buildForest choice s).Grows s :=
  mergeAll_grows _ _ hmax _ (leafForest_grows hw hn)

/-- The merge loop over one or more leaves ends with the youngest node alone, the root. -/
theorem buildForest_eligible (choice : Nat → Nat) {s : State} (hw : Memory.wf maxNodes s.node = true) (hn : s.n ≤ asize)
    (hmax : leafWeight s < 2 ^ 32) (h1 : 1 ≤ s.n) : (buildForest choice s).eligible = [2 * s.n - 2] := by
  have hleaf := leafForest_sound hw hn
  have hlen : (leafForest s).eligible.length = s.n := List.length_range
  obtain ⟨hone, -⟩ := mergeAll_shape s.cfg.tieBreak choice s.n (leafForest s) hleaf.nodup hleaf.below (by omega) (by omega)
  obtain ⟨r, hr⟩ := List.length_eq_one_iff.1 hone
  have hyoungest := (buildForest_grows choice hw hn hmax).youngest h1
  rw [buildForest_next choice hw hn] at hyoungest
  rw [buildForest_eq, hr] at hyoungest ⊢
  rw [← List.mem_singleton.1 hyoungest]
  rfl

/-- ROOT after BUILD (R86). -/
theorem buildState_root (choice : Nat → Nat) {s : State} (hw : Memory.wf maxNodes s.node = true) (hn : s.n ≤ asize)
    (hmax : leafWeight s < 2 ^ 32) :
    (buildState choice s).root = if s.n = 0 then nil else BitVec.ofNat 8 (2 * s.n - 2) := by
  simp only [buildState]
  split_ifs with h0
  · rfl
  · rw [buildForest_eligible choice hw hn hmax (by omega), List.headD_cons]

theorem buildState_root_toNat (choice : Nat → Nat) {s : State} (hw : Memory.wf maxNodes s.node = true) (hn : s.n ≤ asize)
    (hmax : leafWeight s < 2 ^ 32) (h1 : 1 ≤ s.n) : (buildState choice s).root.toNat = 2 * s.n - 2 := by
  simp only [asize_eq] at hn
  rw [buildState_root choice hw hn hmax, if_neg (by omega), BitVec.toNat_ofNat, Nat.mod_eq_of_lt (by omega)]

/-- BUILD makes a sound arena, whatever the free choices are (R38, R84 to R86). -/
theorem buildState_arenaOk (choice : Nat → Nat) {s : State} (hw : s.arraysWf = true) (hn : s.n ≤ asize) (h : s.CountsOk) :
    (buildState choice s).ArenaOk := by
  obtain ⟨-, -, -, hnode, -⟩ := arraysWf_iff.1 hw
  have hlen := h.leafWeight_eq
  have hmax : leafWeight s < 2 ^ 32 := hlen ▸ s.inlen.isLt
  have hgrows := buildForest_grows choice hnode hn hmax
  have heligible := buildForest_eligible choice hnode hn hmax
  have hroot := buildState_root_toNat choice hnode hn hmax
  have hnnodes := buildState_nnodes choice hnode hn
  have hnext := buildForest_next choice hnode hn
  refine ⟨hnnodes.trans hnext, buildState_root choice hnode hn hmax, fun i hi => ?_, fun p hp hnp => ?_,
    fun i hi => ?_, fun h1 => ?_⟩
  · obtain ⟨q, hq⟩ := hgrows.leaf i hi
    have hread : (buildState choice s).nodeAt i = { leafNode s.count s.uniq i with par := q } := hq
    rw [hread]
    exact ⟨rfl, rfl, rfl, rfl⟩
  · exact hgrows.joined p (hnnodes ▸ hp) hnp
  · rw [hnnodes] at hi ⊢
    have h1 : 1 ≤ s.n := by omega
    have hmem : i ∈ (buildForest choice s).eligible ↔ i = (buildState choice s).root.toNat := by
      rw [heligible h1, hroot h1, List.mem_singleton]
    refine ⟨fun e => hgrows.sound.eligible_par i (hmem.2 e), fun hne => ?_⟩
    have hE := mt hmem.1 hne
    obtain ⟨hlt, hle⟩ := hgrows.sound.merged_par i hi hE
    exact ⟨hlt, hle, hgrows.child i hi hE⟩
  · have hweight := hgrows.weight
    rw [heligible h1, List.map_singleton, List.sum_singleton, hlen] at hweight
    rw [hroot h1]
    exact BitVec.eq_of_toNat_eq hweight

end Sys2Proof.Machine
end

section
/-! SUPPORT. The invariant of the core over every step: what each phase asks of a state, the updates that leave the data
alone, and one lemma per command that changes it. -/

namespace Sys2Proof.Machine

/-! ### What each phase asks -/

section
variable {s : State}

theorem phaseOk_collect (hp : s.phase = .collect) :
    s.PhaseOk ↔ s.nnodes = 0 ∧ s.root = nil ∧ s.NoCodes ∧ s.NoBlob := by
  simp only [State.PhaseOk, hp]

theorem phaseOk_tree (hp : s.phase = .tree) : s.PhaseOk ↔ s.ArenaOk ∧ s.NoCodes ∧ s.NoBlob := by
  simp only [State.PhaseOk, hp]

theorem phaseOk_coded (hp : s.phase = .coded) :
    s.PhaseOk ↔ s.ArenaOk ∧ s.CodesOk ∧ firstTooLong s = none ∧ s.NoBlob := by
  simp only [State.PhaseOk, hp]

theorem phaseOk_packed (hp : s.phase = .packed) :
    s.PhaseOk ↔ s.ArenaOk ∧ s.CodesOk ∧ firstTooLong s = none ∧ s.BlobOk := by
  simp only [State.PhaseOk, hp]

theorem phaseOk_failed (hp : s.phase = .failed) :
    s.PhaseOk ↔ s.ArenaOk ∧ s.CodesOk ∧ firstTooLong s ≠ none ∧ s.NoBlob := by
  simp only [State.PhaseOk, hp]

end

/-! ### The error record -/

theorem ok_errorsOk {s : State} (h : s.ErrorsOk) : (ok s).ErrorsOk := fun he => ⟨(h he).1, rfl⟩

/-- A failure records an error, if none is recorded yet (R118). -/
theorem fail_errorsOk {code : ErrCode} (hc : code ≠ .none) (info : Word) (s : State) : (fail code info s).ErrorsOk := by
  intro he
  rw [fail_err] at he
  split_ifs at he
  · exact absurd he hc
  · contradiction

/-! ### Updates that leave the data alone -/

/-- The states differ at most in the status bits, the results, the error record, PENDING and the model's own fields: the
phase, the counter, the tree, the codes and the blob are the same. -/
def State.SameData (s t : State) : Prop :=
  t = { s with
    busy := t.busy, ovr := t.ovr, lasterr := t.lasterr, err := t.err, res0 := t.res0, res1 := t.res1
    errinfo := t.errinfo, pending := t.pending, host := t.host, rdata := t.rdata, draws := t.draws }

theorem State.Inv.of_sameData {s t : State} (h : s.Inv) (e : s.SameData t) (he : t.ErrorsOk) : t.Inv := by
  have hphase := h.phaseOk
  rw [e]
  refine ⟨h.legal, h.arrays, h.len_le, h.n_le, CountsOk_congr h.counts rfl rfl rfl rfl rfl, he, ?_⟩
  cases hp : s.phase with
  | collect => exact (phaseOk_collect rfl).2 ((phaseOk_collect hp).1 hphase)
  | tree =>
    obtain ⟨harena, hcodes, hblob⟩ := (phaseOk_tree hp).1 hphase
    exact (phaseOk_tree rfl).2 ⟨ArenaOk_congr harena rfl rfl rfl rfl rfl rfl rfl, hcodes, hblob⟩
  | coded =>
    obtain ⟨harena, hcodes, hlong, hblob⟩ := (phaseOk_coded hp).1 hphase
    exact (phaseOk_coded rfl).2 ⟨ArenaOk_congr harena rfl rfl rfl rfl rfl rfl rfl, hcodes, hlong, hblob⟩
  | packed =>
    obtain ⟨harena, hcodes, hlong, hblob⟩ := (phaseOk_packed hp).1 hphase
    exact (phaseOk_packed rfl).2 ⟨ArenaOk_congr harena rfl rfl rfl rfl rfl rfl rfl, hcodes, hlong, hblob⟩
  | failed =>
    obtain ⟨harena, hcodes, hlong, hblob⟩ := (phaseOk_failed hp).1 hphase
    exact (phaseOk_failed rfl).2 ⟨ArenaOk_congr harena rfl rfl rfl rfl rfl rfl rfl, hcodes, hlong, hblob⟩

/-! ### The commands that change the data -/

section
variable {s : State} (h : s.Inv)
include h

theorem clear_inv : (ok (clearState s)).Inv := by
  obtain ⟨-, huniq, hinbuf, hnode, -, -, houtbuf⟩ := arraysWf_iff.1 h.arrays
  exact ⟨h.legal, arraysWf_iff.2 ⟨rfl, huniq, hinbuf, hnode, rfl, rfl, houtbuf⟩, Nat.zero_le _, Nat.zero_le _,
    .of_empty rfl rfl rfl, fun _ => ⟨rfl, rfl⟩, ⟨rfl, rfl, ⟨rfl, rfl⟩, rfl, rfl⟩⟩

theorem push_inv (hp : s.phase = .collect) {x : Sym} (hi : pushInside x s = true)
    (hc : (s.countAt x).toNat + 1 < 2 ^ 32) : (ok (pushState x s)).Inv := by
  obtain ⟨-, huniq, -⟩ := arraysWf_iff.1 h.arrays
  obtain ⟨hlt, -⟩ := pushInside_iff.1 hi
  have hbound := len_lt_of_legal h.legal h.len_le
  have hlen : (pushState x s).len = s.len + 1 := pushState_len (by omega) x
  have hn : (pushState x s).n ≤ asize := by
    by_cases hx : s.countAt x = 0
    · have hroom := h.counts.n_lt hx
      obtain ⟨hn, -⟩ := pushState_uniqList_first huniq hroom hx
      rw [hn]
      exact hroom
    · obtain ⟨hn, -⟩ := pushState_uniqList_again hx
      rw [hn]
      exact h.n_le
  exact ⟨h.legal, (pushState_arraysWf h.arrays hi : (pushState x s).arraysWf = true), hlen.trans_le hlt, hn,
    CountsOk_congr (h.counts.push h.arrays (by omega) hc) rfl rfl rfl rfl rfl, ok_errorsOk h.errors,
    (phaseOk_collect (s := ok (pushState x s)) hp).2 ((phaseOk_collect hp).1 h.phaseOk)⟩

theorem build_inv (choice : Nat → Nat) (hp : s.phase = .collect) : (ok (buildState choice s)).Inv := by
  obtain ⟨-, -, hcodes, hblob⟩ := (phaseOk_collect hp).1 h.phaseOk
  have harena := buildState_arenaOk choice h.arrays h.n_le h.counts
  exact ⟨h.legal, (buildState_arraysWf choice h.arrays h.n_le : (buildState choice s).arraysWf = true), h.len_le, h.n_le,
    CountsOk_congr h.counts rfl rfl rfl rfl rfl, ok_errorsOk h.errors,
    (phaseOk_tree rfl).2 ⟨ArenaOk_congr harena rfl rfl rfl rfl rfl rfl rfl, hcodes, hblob⟩⟩

section
variable {clen cbits : Memory Byte} (hp : s.phase = .tree) (hc : codeTable s = some (clen, cbits))
include hp hc

theorem codes_inv (hf : firstTooLong { s with clen := clen, cbits := cbits } = none) :
    (ok { s with clen := clen, cbits := cbits, phase := .coded }).Inv := by
  obtain ⟨harena, -, hblob⟩ := (phaseOk_tree hp).1 h.phaseOk
  have hw := codes_arraysWf h.arrays hc rfl
  exact ⟨h.legal, hw, h.len_le, h.n_le, CountsOk_congr h.counts rfl rfl rfl rfl rfl,
    ok_errorsOk h.errors, (phaseOk_coded rfl).2 ⟨ArenaOk_congr harena rfl rfl rfl rfl rfl rfl rfl, hc, hf, hblob⟩⟩

theorem codesTooLong_inv (info : Word) (hf : firstTooLong { s with clen := clen, cbits := cbits } ≠ none) :
    (fail .codeTooLong info { s with clen := clen, cbits := cbits, phase := .failed }).Inv := by
  obtain ⟨harena, -, hblob⟩ := (phaseOk_tree hp).1 h.phaseOk
  have hw := codes_arraysWf h.arrays hc rfl
  exact ⟨h.legal, hw, h.len_le, h.n_le, CountsOk_congr h.counts rfl rfl rfl rfl rfl,
    fail_errorsOk (code := .codeTooLong) nofun _ _,
    (phaseOk_failed rfl).2 ⟨ArenaOk_congr harena rfl rfl rfl rfl rfl rfl rfl, hc, hf, hblob⟩⟩

end

/-- The blob is what PACK would write over it again: no byte of it depends on what OUTBUF held. -/
theorem packState_blobOk (hblob : s.NoBlob) (hi : packInside s = true) (ht : totalBits s < 2 ^ 32) :
    (ok (packState s)).BlobOk := by
  obtain ⟨-, -, -, hle⟩ := packInside_iff.1 hi
  have hbound : blobLength s < 2 ^ 32 := by
    have := h.legal
    simp only [Config.legal, Bool.and_eq_true, decide_eq_true_eq, hdrMax_eq] at this hle
    omega
  have hw : ({ s with outbuf := packBlob s } : State).arraysWf = true := packState_arraysWf h.arrays hi
  have hagree : s.Agree { s with outbuf := packBlob s } :=
    { rest := rfl, uniq := fun _ _ => rfl, inbuf := fun _ _ => rfl, node := fun _ _ => rfl
      outbuf := fun i hi => by rw [hblob.2] at hi; exact absurd hi (Nat.not_lt_zero i)
      pending := fun _ => rfl }
  have hsame := packBlob_agree h.arrays hw hi hagree
  exact ⟨(BitVec.toNat_ofNat _ _).trans (Nat.mod_eq_of_lt ht), (BitVec.toNat_ofNat _ _).trans (Nat.mod_eq_of_lt hbound),
    hsame⟩

theorem pack_inv (hp : s.phase = .coded) (hi : packInside s = true) (ht : totalBits s < 2 ^ 32) :
    (ok (packState s)).Inv := by
  obtain ⟨harena, hcodes, hlong, hblob⟩ := (phaseOk_coded hp).1 h.phaseOk
  exact ⟨h.legal, (packState_arraysWf h.arrays hi : (packState s).arraysWf = true), h.len_le, h.n_le,
    CountsOk_congr h.counts rfl rfl rfl rfl rfl, ok_errorsOk h.errors,
    (phaseOk_packed rfl).2 ⟨ArenaOk_congr harena rfl rfl rfl rfl rfl rfl rfl, hcodes, hlong,
      packState_blobOk h hblob hi ht⟩⟩

/-- Every command keeps the invariant; ENCODE does as BUILD, CODES and PACK do, one after another (R102). -/
theorem exec_inv {i : Instr} {t : State} (hx : exec i s = .next t) : t.Inv := by
  cases exec_did hx with
  | failed i c hc _ => exact h.of_sameData rfl (fail_errorsOk hc _ _)
  | nop | dropped | answered => exact h.of_sameData rfl (ok_errorsOk h.errors)
  | cleared => exact clear_inv h
  | pushed arg x hp _ _ hi hc => exact push_inv h hp hi hc
  | built hp _ _ => exact build_inv h _ hp
  | coded u _ _ hp _ hc hu hf =>
    subst hu
    exact codes_inv h hp hc hf
  | tooLong u _ _ x hp _ hc hu hf =>
    subst hu
    exact codesTooLong_inv h hp hc _ (Option.ne_none_iff_exists'.2 ⟨x, hf⟩)
  | packed hp hi ht => exact pack_inv h hp hi ht
  | encoded u _ _ hp _ _ hc hu hf hi ht =>
    subst hu
    exact pack_inv (codes_inv (build_inv h Config.tieChoice hp) rfl hc hf) rfl hi ht
  | encodeTooLong u _ _ x hp _ _ hc hu hf =>
    subst hu
    exact codesTooLong_inv (build_inv h Config.tieChoice hp) rfl hc _ (Option.ne_none_iff_exists'.2 ⟨x, hf⟩)

end

/-- A core step keeps the invariant. -/
theorem coreStep_inv {s t : State} (h : s.Inv) (hc : coreStep s = .next t) : t.Inv := by
  rcases coreStep_eq_next hc with ⟨_, -, rfl⟩ | ⟨i, u, -, hx, rfl⟩
  · exact h.of_sameData rfl (fail_errorsOk (code := .illegal) nofun s.pending s)
  · have hu := exec_inv h hx
    exact hu.of_sameData rfl hu.errors

theorem State.Agree.refl (s : State) : s.Agree s :=
  ⟨rfl, fun _ _ => rfl, fun _ _ => rfl, fun _ _ => rfl, fun _ _ => rfl, fun _ => rfl⟩

/-- Settles O53: no step stops, by `unspecifiedContentsNeverMatter` from a state to itself, and each way a step can end
keeps the invariant. -/
theorem machineInvariant : Obligations.MachineInvariant := by
  intro s h
  obtain ⟨t, _, hstep, -, -⟩ := unspecifiedContentsNeverMatter s s h h (.refl s)
  refine ⟨t, hstep, ?_⟩
  cases step_moved hstep with
  | core t _ hc =>
    have hhost : ({ s with host := s.host.tail } : State).Inv := h.of_sameData rfl h.errors
    exact coreStep_inv hhost hc
  | reset => exact (resetMeetsInvariant s.cfg h.legal).of_sameData rfl fun _ => ⟨rfl, rfl⟩
  | idle | latched | dropped => exact h.of_sameData rfl h.errors

end Sys2Proof.Machine
end

section
/-! SUPPORT. The symbol counter (R76 to R81): when PUSH drops or accepts a symbol, and what an accepted one writes, array by
array. -/

namespace Sys2Proof.Machine

theorem execNop_eq (s : State) : execNop s = .next (ok s) := whenAccepted_of_accepts rfl

theorem execClear_eq (s : State) : execClear s = .next (ok (clearState s)) := whenAccepted_of_accepts rfl

/-- Once the core step clears BUSY, CLEAR has left the values of reset. -/
theorem clearState_atReset (s : State) : (complete (ok (clearState s))).AtReset where
  status := ⟨rfl, rfl, rfl, rfl, rfl⟩
  results := ⟨rfl, rfl⟩
  registers := ⟨rfl, rfl, rfl, rfl, rfl, rfl, rfl⟩
  tables := fun _ => ⟨rfl, rfl, rfl⟩

/-- Settles O10: each completes in every phase, and CLEAR writes what reset gives a value. -/
theorem nopAndClearComplete : Obligations.NopAndClearComplete := fun s =>
  ⟨execNop_eq s, ok (clearState s), execClear_eq s, clearState_atReset s, rfl⟩

theorem push_accepted_in_collect {s : State} (hp : s.phase = .collect) (arg : Arg) :
    accepts (.push arg) s.phase = true := by
  rw [hp]; rfl

theorem execPush_of_outside {s : State} {arg : Arg} (hp : s.phase = .collect) (hx : symMax < arg.toNat) :
    execPush arg s = .next (ok s) := by
  rw [execPush, whenAccepted_of_accepts (push_accepted_in_collect hp arg), symOperand_outside hx]

/-- Settles O11: the range check comes before the check for a full buffer (R79, R80). -/
theorem pushDropsOutOfRange : Obligations.PushDropsOutOfRange := fun _ _ hp hx => execPush_of_outside hp hx

theorem execPush_of_inside {s : State} {arg : Arg} (hp : s.phase = .collect) (hx : arg.toNat ≤ symMax)
    (hi : pushInside (arg.setWidth 7) s = true) (hc : (s.countAt (arg.setWidth 7)).toNat + 1 < 2 ^ 32) :
    execPush arg s = .next (ok (pushState (arg.setWidth 7) s)) := by
  obtain ⟨hlen, -⟩ := pushInside_iff.1 hi
  rw [execPush, whenAccepted_of_accepts (push_accepted_in_collect hp arg), symOperand_inside hx]
  dsimp only
  rw [if_neg hlen.ne, if_neg (by simp [hi]), if_neg (by omega)]

theorem pushState_inputAt {s : State} (h : Memory.wf s.cfg.cap s.inbuf = true) (x : Sym) (j : Nat) :
    (pushState x s).inputAt j = if j = s.len then x else s.inputAt j :=
  Memory.read_write h _ _ _

theorem pushState_uniqAt {s : State} (h : Memory.wf asize s.uniq = true) (x : Sym) (i : Nat) :
    (pushState x s).uniqAt i = if s.countAt x = 0 ∧ i = s.n then x else s.uniqAt i := by
  by_cases hx : s.countAt x = 0
  · simp only [State.uniqAt, pushState, hx, if_true, true_and, Memory.read_write h]
  · simp only [State.uniqAt, pushState, hx, if_false, false_and]

theorem pushState_n {s : State} (h : Memory.wf asize s.uniq = true) {x : Sym} (hn : s.countAt x = 0 → s.n < asize) :
    (pushState x s).n = if s.countAt x = 0 then s.n + 1 else s.n := by
  split_ifs with hx
  · exact (pushState_uniqList_first h (hn hx) hx).1
  · exact (pushState_uniqList_again hx).1

/-- Settles O13: the premises keep PUSH inside its arrays, so it ends in `pushState`, read back array by array. -/
theorem pushAccepted : Obligations.PushAccepted := by
  intro arg s hlegal hw hp hx hlen hn hc
  obtain ⟨hcount, huniq, hinbuf, -⟩ := arraysWf_iff.1 hw
  have hbound := len_lt_of_legal hlegal hlen.le
  have hcountAt : ∀ y, (pushState (arg.setWidth 7) s).countAt y =
      if y = arg.setWidth 7 then s.countAt y + 1 else s.countAt y := fun y => by
    rw [pushState_countAt hcount]
    exact ite_congr rfl (fun hy => by rw [hy]) fun _ => rfl
  exact ⟨ok (pushState (arg.setWidth 7) s), execPush_of_inside hp hx (pushInside_iff.2 ⟨hlen, hn⟩) hc, rfl,
    pushState_len (by omega) (arg.setWidth 7), pushState_n huniq hn, pushState_inputAt hinbuf (arg.setWidth 7),
    pushState_uniqAt huniq (arg.setWidth 7), hcountAt⟩

end Sys2Proof.Machine
end

section
/-! SUPPORT. The results of an encode (R90, R100, R140): what every command but CLEAR leaves alone in each phase. -/

namespace Sys2Proof.Machine

/-- What has been made by the phase of `s` is the same in `t`: from TREE on the input and the arena, from CODED on the code
table, and in PACKED and FAILED, which no PACK leaves, the blob. -/
structure State.ResultsKept (s t : State) : Prop where
  built : s.phase ≠ .collect → t.node = s.node ∧ t.nnodes = s.nnodes ∧ t.root = s.root ∧ t.count = s.count ∧
    t.uniq = s.uniq ∧ t.nuniq = s.nuniq ∧ t.inbuf = s.inbuf ∧ t.inlen = s.inlen
  coded : s.phase = .coded ∨ s.phase = .packed ∨ s.phase = .failed → t.clen = s.clen ∧ t.cbits = s.cbits
  packed : s.phase = .packed ∨ s.phase = .failed → t.outbuf = s.outbuf ∧ t.bitlen = s.bitlen ∧ t.bloblen = s.bloblen

/-- In COLLECT nothing has been made yet. -/
theorem State.ResultsKept.of_collect {s : State} (hp : s.phase = .collect) (t : State) : s.ResultsKept t where
  built := fun h => absurd hp h
  coded := fun h => by simp [hp] at h
  packed := fun h => by simp [hp] at h

theorem State.SameData.resultsKept {s t : State} (h : s.SameData t) : s.ResultsKept t := by
  rw [h]
  exact ⟨fun _ => ⟨rfl, rfl, rfl, rfl, rfl, rfl, rfl, rfl⟩, fun _ => ⟨rfl, rfl⟩, fun _ => ⟨rfl, rfl, rfl⟩⟩

theorem exec_resultsKept {i : Instr} {s t : State} (hi : i ≠ .clear) (h : exec i s = .next t) : s.ResultsKept t := by
  cases exec_did h with
  | cleared => exact absurd rfl hi
  | failed | nop | dropped | answered => exact State.SameData.resultsKept rfl
  | pushed _ _ hp | built hp | encoded _ _ _ hp | encodeTooLong _ _ _ _ hp => exact .of_collect hp _
  | coded u _ _ hp _ _ hu | tooLong u _ _ _ hp _ _ hu =>
    subst hu
    exact ⟨fun _ => ⟨rfl, rfl, rfl, rfl, rfl, rfl, rfl, rfl⟩, fun hc => by simp [hp] at hc, fun hc => by simp [hp] at hc⟩
  | packed hp =>
    exact ⟨fun _ => ⟨rfl, rfl, rfl, rfl, rfl, rfl, rfl, rfl⟩, fun _ => ⟨rfl, rfl⟩, fun hc => by simp [hp] at hc⟩

/-- Settles O57, by the cases of a step: only a core step can write the results, and it keeps them by
`exec_resultsKept`. -/
theorem resultsLiveUntilClear : Obligations.ResultsLiveUntilClear := by
  intro s t hstep hreset hclear
  suffices h : s.ResultsKept t from ⟨h.built, h.coded, h.packed⟩
  cases step_moved hstep with
  | core t hm hc =>
    rcases coreStep_eq_next hc with ⟨_, -, rfl⟩ | ⟨i, u, hd, hx, rfl⟩
    · exact State.SameData.resultsKept rfl
    · obtain ⟨hbuilt, hcoded, hpacked⟩ := exec_resultsKept (fun e => hclear ⟨hm, e ▸ hd⟩) hx
      exact ⟨hbuilt, hcoded, hpacked⟩
  | reset hr => exact absurd hr hreset
  | idle | latched | dropped => exact State.SameData.resultsKept rfl

end Sys2Proof.Machine
end

section
/-! SUPPORT. What BUILD extracts and writes (R83 to R90): the node each extraction takes under either tie-break, and the
registers, leaves and frame of the built arena. -/

namespace Sys2Proof.Machine

theorem mem_lightest {node : Memory Node} {E : List Nat} {j : Nat} :
    j ∈ lightest node E ↔ j ∈ E ∧ weightAt node j = minWeight node E := by
  simp only [lightest, List.mem_filter, beq_iff_eq]

theorem weightAt_argmin_le (tb : TieBreak) (node : Memory Node) (c : Nat) {E : List Nat} {j : Nat} (hj : j ∈ E) :
    weightAt node (argmin tb node c E) ≤ weightAt node j := by
  obtain ⟨-, hmin⟩ := mem_lightest.1 (argmin_mem_lightest tb node c (List.ne_nil_of_mem hj))
  exact hmin.trans_le (minWeight_le node E j hj)

/-- FIFO takes the least index among the nodes of the weight it takes. -/
theorem argmin_fifo_le (node : Memory Node) (c : Nat) {E : List Nat} (hsorted : E.Pairwise (· < ·)) {j : Nat} (hj : j ∈ E)
    (hw : weightAt node j = weightAt node (argmin .fifo node c E)) : argmin .fifo node c E ≤ j := by
  obtain ⟨-, hmin⟩ := mem_lightest.1 (argmin_mem_lightest .fifo node c (List.ne_nil_of_mem hj))
  have hlight : j ∈ lightest node E := mem_lightest.2 ⟨hj, hw.trans hmin⟩
  have hpair : (lightest node E).Pairwise (· < ·) := hsorted.filter _
  simp only [argmin]
  cases hl : lightest node E with
  | nil => simp [hl] at hlight
  | cons a l =>
    rw [hl] at hlight hpair
    rcases List.mem_cons.1 hlight with rfl | hjl
    · exact le_rfl
    · exact (List.rel_of_pairwise_cons hpair hjl).le

/-- Some choice of ANY takes any given one of the lightest nodes: its place among them. -/
theorem exists_argmin_any_eq {node : Memory Node} {E : List Nat} {j : Nat} (hj : j ∈ lightest node E) :
    ∃ c, argmin .any node c E = j := by
  obtain ⟨c, hc, hget⟩ := List.getElem_of_mem hj
  refine ⟨c, ?_⟩
  rw [argmin, Nat.mod_eq_of_lt hc, List.getD_eq_getElem _ _ hc, hget]

/-- Settles O15: an extraction takes one of the lightest nodes, FIFO the first of them and ANY the one at the place of the
choice. -/
theorem extractionOrder : Obligations.ExtractionOrder := by
  intro node E choice hne hsorted
  refine ⟨fun tb => ⟨argmin_mem tb node choice hne, fun j hj => weightAt_argmin_le tb node choice hj⟩,
    fun j hj hw => argmin_fifo_le node choice hsorted hj hw, fun j hj hmin => exists_argmin_any_eq ?_⟩
  obtain ⟨k, hk, hkmin⟩ := minWeight_attained node hne
  exact mem_lightest.2 ⟨hj, le_antisymm ((hmin k hk).trans_eq hkmin) (minWeight_le node E j hj)⟩

/-- Settles O18, by the invariant of the merge loop: `buildState_arenaOk`. -/
theorem buildMakesSoundArena : Obligations.BuildMakesSoundArena :=
  fun choice _ _ hw _ hn hcounts => buildState_arenaOk choice hw hn hcounts

/-- A merge writes no entry beyond the new node. -/
theorem mergeOnce_read_beyond (tb : TieBreak) (choice : Nat → Nat) {f : Forest} (h : f.Sound)
    (hl : 2 ≤ f.eligible.length) {i : Nat} (hi : f.next < i) :
    Memory.read (mergeOnce tb choice f).node i = Memory.read f.node i := by
  obtain ⟨a, b, ha, hb, hab, -, -, e⟩ := mergeOnce_spec tb choice f h.nodup hl
  have han := h.below a ha
  have hbn := h.below b hb
  rw [e, h.read_link ha hb hab, if_neg (by omega), if_neg (by omega)]

/-- The merge loop writes no entry beyond the nodes it makes, one for each eligible node but one. -/
theorem mergeAll_read_beyond (tb : TieBreak) (choice : Nat → Nat) : ∀ (fuel : Nat) {f : Forest}, f.Sound →
    ∀ {i : Nat}, f.next + (f.eligible.length - 1) ≤ i →
    Memory.read (mergeAll tb choice fuel f).node i = Memory.read f.node i
  | 0, _, _, _, _ => rfl
  | fuel + 1, f, h, i, hi => by
    rw [mergeAll]
    split_ifs with hone
    · rfl
    · have hl : 2 ≤ f.eligible.length := by omega
      have hlen := mergeOnce_length tb choice f h.nodup hl
      have hnext : (mergeOnce tb choice f).next = f.next + 1 := rfl
      rw [mergeAll_read_beyond tb choice fuel (mergeOnce_sound tb choice h hl) (by omega),
        mergeOnce_read_beyond tb choice h hl (by omega)]

section
variable (choice : Nat → Nat) {s : State} (hw : Memory.wf maxNodes s.node = true) (hn : s.n ≤ asize)
include hw hn

theorem buildState_nodeAt_beyond {i : Nat} (hi : 2 * s.n - 1 ≤ i) : (buildState choice s).nodeAt i = s.nodeAt i := by
  have hle : s.n ≤ maxNodes := by simp only [asize_eq, maxNodes_eq] at hn ⊢; omega
  have hlen : (leafForest s).eligible.length = s.n := List.length_range
  have hnext : (leafForest s).next = s.n := rfl
  have hmerged := mergeAll_read_beyond s.cfg.tieBreak choice s.n (leafForest_sound hw hn) (i := i) (by omega)
  have hseed := seedLeaves_read hle s.count s.uniq s.node hw i
  rw [if_neg (by omega)] at hseed
  exact hmerged.trans hseed

theorem buildState_leaf (hmax : leafWeight s < 2 ^ 32) {i : Nat} (hi : i < s.n) :
    ∃ q, (buildState choice s).nodeAt i = { leafNode s.count s.uniq i with par := q } :=
  (buildForest_grows choice hw hn hmax).leaf i hi

/-- The root of the built arena has no parent. -/
theorem buildState_root_par (hmax : leafWeight s < 2 ^ 32) (h1 : 1 ≤ s.n) :
    ((buildState choice s).nodeAt (2 * s.n - 2)).par = nil :=
  (buildForest_sound choice hw hn).eligible_par _ (by
    rw [buildForest_eligible choice hw hn hmax h1]
    exact List.mem_singleton_self _)

end

theorem choicesDrawn_eq (s : State) :
    s.draws + choicesDrawn s = if s.cfg.tieBreak = .any then s.draws + 2 * (s.n - 1) else s.draws := by
  unfold choicesDrawn
  cases s.cfg.tieBreak <;> rfl

theorem execBuild_of {s : State} (hp : s.phase = .collect) (hn : s.n ≤ asize) (hmax : leafWeight s < 2 ^ 32) :
    execBuild s = .next (ok (buildState Config.tieChoice s)) := by
  rw [execBuild, whenAccepted_of_accepts (by rw [hp]; rfl), buildBody_of hn hmax, andThen_next]

/-- BUILD writes NODE, NNODES, ROOT, PHASE and LASTERR, and counts the free choices drawn. -/
theorem buildState_frame (choice : Nat → Nat) {s : State} (hw : Memory.wf maxNodes s.node = true) (hn : s.n ≤ asize)
    (hmax : leafWeight s < 2 ^ 32) : ok (buildState choice s) = { s with
      node := (buildState choice s).node
      nnodes := BitVec.ofNat 8 (2 * s.n - 1)
      root := if s.n = 0 then nil else BitVec.ofNat 8 (2 * s.n - 2)
      phase := .tree
      lasterr := .none
      draws := if s.cfg.tieBreak = .any then s.draws + 2 * (s.n - 1) else s.draws } := by
  rw [← choicesDrawn_eq, ← buildState_root choice hw hn hmax, ← buildForest_next choice hw hn]
  rfl

/-- Settles O16: with the sums in their registers BUILD ends in `buildState`, read back field by field. -/
theorem buildCompletes : Obligations.BuildCompletes := by
  intro s harrays hp hn hmax
  obtain ⟨-, -, -, hw, -⟩ := arraysWf_iff.1 harrays
  refine ⟨ok (buildState Config.tieChoice s), execBuild_of hp hn hmax, buildState_frame _ hw hn hmax, fun i hi => ?_,
    fun i hi => buildState_nodeAt_beyond _ hw hn hi⟩
  obtain ⟨q, hq⟩ := buildState_leaf Config.tieChoice hw hn hmax hi
  rw [ok_nodeAt, hq]
  exact ⟨rfl, rfl, rfl, rfl⟩

/-- With at most one unique symbol the only weight is a count, so no sum can wrap. -/
theorem leafWeight_lt_of_n_le_one {s : State} (h1 : s.n ≤ 1) : leafWeight s < 2 ^ 32 := by
  unfold leafWeight State.uniqList
  have hcases : s.n = 0 ∨ s.n = 1 := by omega
  rcases hcases with h | h <;> rw [h]
  · simp
  · simpa using (s.countAt (s.uniqAt 0)).isLt

/-- Settles O17, from `buildCompletes`: no entry of the empty arena is written, and the one leaf of a single symbol is the
root. -/
theorem buildEdgeCases : Obligations.BuildEdgeCases := by
  intro s harrays hp
  obtain ⟨-, -, -, hw, -⟩ := arraysWf_iff.1 harrays
  refine ⟨fun h0 => ?_, fun h1 => ?_⟩
  · have hn : s.n ≤ asize := by simp [h0]
    have hmax := leafWeight_lt_of_n_le_one (s := s) (by omega)
    have hnode : (buildState Config.tieChoice s).node = s.node :=
      Memory.ext_read (buildForest_sound _ hw hn).wf hw fun i =>
        buildState_nodeAt_beyond Config.tieChoice hw hn (i := i) (by omega)
    refine (execBuild_of hp hn hmax).trans ?_
    rw [buildState_frame _ hw hn hmax, hnode]
    simp [h0]
  · have hn : s.n ≤ asize := by simp [h1]
    have hmax := leafWeight_lt_of_n_le_one (s := s) (by omega)
    refine ⟨ok (buildState Config.tieChoice s), execBuild_of hp hn hmax, ?_, fun i => ?_⟩
    · rw [buildState_frame _ hw hn hmax]
      simp [h1]
    · rw [ok_nodeAt]
      split_ifs with hi
      · obtain ⟨q, hq⟩ := buildState_leaf Config.tieChoice hw hn hmax (i := 0) (by omega)
        have hpar := buildState_root_par Config.tieChoice hw hn hmax (by omega)
        rw [h1, hq] at hpar
        rw [hi, hq, show q = nil from hpar]
        rfl
      · exact buildState_nodeAt_beyond Config.tieChoice hw hn (by omega)

end Sys2Proof.Machine
end

section
/-! SUPPORT. The order of extraction (R87, R89): over the whole merge loop no node is extracted after one that should follow
it, and the extracted weights depend on no free choice. -/

namespace Sys2Proof.Machine

/-! ### Which node comes first -/

/-- `i` may be extracted before `j`: by weight, and under FIFO among equal weights by index. -/
def ExtractsBefore (tb : TieBreak) (node : Memory Node) (i j : Nat) : Prop :=
  weightAt node i < weightAt node j ∨ (weightAt node i = weightAt node j ∧ (tb = .fifo → i < j))

theorem ExtractsBefore.weightAt_le {tb : TieBreak} {node : Memory Node} {i j : Nat} (h : ExtractsBefore tb node i j) :
    weightAt node i ≤ weightAt node j :=
  h.elim le_of_lt fun ⟨e, _⟩ => e.le

/-- An extraction takes a node that may be extracted before every other one. -/
theorem argmin_extractsBefore (tb : TieBreak) (node : Memory Node) (c : Nat) {E : List Nat}
    (hsorted : E.Pairwise (· < ·)) {j : Nat} (hj : j ∈ E) (hne : j ≠ argmin tb node c E) :
    ExtractsBefore tb node (argmin tb node c E) j := by
  rcases (weightAt_argmin_le tb node c hj).lt_or_eq with hlt | heq
  · exact .inl hlt
  · refine .inr ⟨heq, ?_⟩
    rintro rfl
    exact lt_of_le_of_ne (argmin_fifo_le node c hsorted hj heq.symm) hne.symm

/-! ### The nodes extracted for an internal node are its children -/

/-- The node extracted first for the internal node `p` (R84). -/
def leftChild (node : Memory Node) (p : Nat) : Nat := (Memory.read node p).lft.toNat

/-- The node extracted second for the internal node `p` (R84). -/
def rightChild (node : Memory Node) (p : Nat) : Nat := (Memory.read node p).rgt.toNat

theorem Forest.Grows.children_lt {s : State} {f : Forest} (h : f.Grows s) {p : Nat} (hp : p < f.next) (hn : s.n ≤ p) :
    leftChild f.node p < f.next ∧ rightChild f.node p < f.next := by
  obtain ⟨-, -, hl, hr, -⟩ := h.joined p hp hn
  exact ⟨hl.trans hp, hr.trans hp⟩

section
variable {s : State} {f : Forest} (h : f.Grows s) {a b : Nat} (ha : a ∈ f.eligible) (hb : b ∈ f.eligible) (hab : a ≠ b)
include h ha hb hab

theorem Forest.Grows.children_link_old {p : Nat} (hp : p < f.next) :
    leftChild (linkNodes f.node a b f.next) p = leftChild f.node p ∧
      rightChild (linkNodes f.node a b f.next) p = rightChild f.node p := by
  obtain ⟨q, hq⟩ := h.sound.read_link_old ha hb hab hp
  simp only [leftChild, rightChild, hq, and_self]

theorem Forest.Grows.children_link_new :
    leftChild (linkNodes f.node a b f.next) f.next = a ∧ rightChild (linkNodes f.node a b f.next) f.next = b := by
  have hnext := h.sound.next_lt ha hb hab
  have han := h.sound.below a ha
  have hbn := h.sound.below b hb
  rw [leftChild, rightChild, h.sound.read_link ha hb hab, if_pos rfl]
  simp only [BitVec.toNat_ofNat]
  omega

theorem Forest.Grows.extractsBefore_link_iff (tb : TieBreak) {i j : Nat} (hi : i < f.next) (hj : j < f.next) :
    ExtractsBefore tb (linkNodes f.node a b f.next) i j ↔ ExtractsBefore tb f.node i j := by
  rw [ExtractsBefore, ExtractsBefore, h.weightAt_link_old ha hb hab hi, h.weightAt_link_old ha hb hab hj]

/-- The new node weighs no less than the two it joins, and its index is greater. -/
theorem Forest.Grows.extractsBefore_link_new (hmax : leafWeight s < 2 ^ 32) (tb : TieBreak) :
    ExtractsBefore tb (linkNodes f.node a b f.next) b f.next := by
  have hbn := h.sound.below b hb
  rw [ExtractsBefore, h.weightAt_link_old ha hb hab hbn, h.weightAt_link_new ha hb hab hmax]
  omega

/-- A merge takes the two extracted weights from those of the eligible nodes and adds their sum. -/
theorem Forest.Grows.map_weightAt_link (hmax : leafWeight s < 2 ^ 32) :
    ((f.eligible.erase a).erase b ++ [f.next]).map (weightAt (linkNodes f.node a b f.next)) =
      ((f.eligible.erase a).erase b).map (weightAt f.node) ++ [weightAt f.node a + weightAt f.node b] := by
  rw [List.map_append, List.map_singleton, h.weightAt_link_new ha hb hab hmax]
  refine congrArg (· ++ _) (List.map_congr_left fun i hi => h.weightAt_link_old ha hb hab ?_)
  exact h.sound.below i (List.mem_of_mem_erase (List.mem_of_mem_erase hi))

end

/-! ### The order over the whole loop -/

/-- What the merge loop keeps of the order of extraction: each internal node's left child came before its right child, that
one before the next node's left child, and the node extracted last before every node still eligible. -/
structure Forest.Ordered (tb : TieBreak) (s : State) (f : Forest) : Prop where
  sorted : f.eligible.Pairwise (· < ·)
  within : ∀ p < f.next, s.n ≤ p → ExtractsBefore tb f.node (leftChild f.node p) (rightChild f.node p)
  across : ∀ p, p + 1 < f.next → s.n ≤ p → ExtractsBefore tb f.node (rightChild f.node p) (leftChild f.node (p + 1))
  waiting : ∀ p, p + 1 = f.next → s.n ≤ p → ∀ j ∈ f.eligible, ExtractsBefore tb f.node (rightChild f.node p) j

theorem mergeOnce_ordered (tb : TieBreak) (choice : Nat → Nat) {s : State} {f : Forest} (hmax : leafWeight s < 2 ^ 32)
    (hg : f.Grows s) (h : f.Ordered tb s) (hl : 2 ≤ f.eligible.length) : (mergeOnce tb choice f).Ordered tb s := by
  obtain ⟨a, b, ha, hb, hab, ea, eb, e⟩ := mergeOnce_spec tb choice f hg.sound.nodup hl
  have hrest : (f.eligible.erase a).Pairwise (· < ·) := h.sorted.sublist List.erase_sublist
  have hbelow : ∀ j ∈ (f.eligible.erase a).erase b, j < f.next := fun j hj =>
    hg.sound.below j (List.mem_of_mem_erase (List.mem_of_mem_erase hj))
  have hkeeps {i j : Nat} (hi : i < f.next) (hj : j < f.next) := hg.extractsBefore_link_iff ha hb hab tb hi hj
  have hold {p : Nat} (hp : p < f.next) := hg.children_link_old ha hb hab hp
  obtain ⟨hleft, hright⟩ := hg.children_link_new ha hb hab
  have han := hg.sound.below a ha
  have hbn := hg.sound.below b hb
  rw [e]
  refine ⟨?_, fun p hp hn => ?_, fun p hp hn => ?_, fun p hp hn j hj => ?_⟩
  · refine List.pairwise_append.2 ⟨hrest.sublist List.erase_sublist, List.pairwise_singleton _ _, fun i hi j hj => ?_⟩
    rw [List.mem_singleton.1 hj]
    exact hbelow i hi
  · by_cases hnew : p = f.next
    · rw [hnew, hleft, hright, hkeeps han hbn, ea]
      exact argmin_extractsBefore tb f.node _ h.sorted hb (ea ▸ hab.symm)
    · have hlt : p < f.next := by simp only at hp; omega
      obtain ⟨hpl, hpr⟩ := hg.children_lt hlt hn
      rw [(hold hlt).1, (hold hlt).2, hkeeps hpl hpr]
      exact h.within p hlt hn
  · have hlt : p < f.next := by simp only at hp; omega
    obtain ⟨-, hpr⟩ := hg.children_lt hlt hn
    by_cases hnew : p + 1 = f.next
    · rw [hnew, hleft, (hold hlt).2, hkeeps hpr han]
      exact h.waiting p hnew hn a ha
    · have hlt' : p + 1 < f.next := by omega
      obtain ⟨hpl', -⟩ := hg.children_lt hlt' (by omega)
      rw [(hold hlt).2, (hold hlt').1, hkeeps hpr hpl']
      exact h.across p hlt' hn
  · obtain rfl : p = f.next := by simpa using hp
    rw [hright]
    rcases List.mem_append.1 hj with hj | hj
    · obtain ⟨hjb, hja⟩ := (hg.sound.nodup.erase a).mem_erase_iff.1 hj
      rw [hkeeps hbn (hbelow j hj), eb]
      exact argmin_extractsBefore tb f.node _ hrest hja (eb ▸ hjb)
    · rw [List.mem_singleton.1 hj]
      exact hg.extractsBefore_link_new ha hb hab hmax tb

theorem mergeAll_ordered (tb : TieBreak) (choice : Nat → Nat) {s : State} (hmax : leafWeight s < 2 ^ 32) :
    ∀ (fuel : Nat) {f : Forest}, f.Grows s → f.Ordered tb s → (mergeAll tb choice fuel f).Ordered tb s
  | 0, _, _, h => h
  | fuel + 1, f, hg, h => by
    rw [mergeAll]
    split_ifs with hone
    · exact h
    · exact mergeAll_ordered tb choice hmax fuel (mergeOnce_grows tb choice hmax hg (by omega))
        (mergeOnce_ordered tb choice hmax hg h (by omega))

theorem leafForest_ordered (tb : TieBreak) (s : State) : (leafForest s).Ordered tb s where
  sorted := List.pairwise_lt_range
  within := fun p (hp : p < s.n) hn => by omega
  across := fun p (hp : p + 1 < s.n) hn => by omega
  waiting := fun p (hp : p + 1 = s.n) hn => by omega

theorem buildForest_ordered (choice : Nat → Nat) {s : State} (hw : Memory.wf maxNodes s.node = true) (hn : s.n ≤ asize)
    (hmax : leafWeight s < 2 ^ 32) : (buildForest choice s).Ordered s.cfg.tieBreak s :=
  mergeAll_ordered _ _ hmax _ (leafForest_grows hw hn) (leafForest_ordered _ s)

/-- Settles O20: a node extracted before another weighs no more, by the order the merge loop keeps. -/
theorem extractedWeightsNondecreasing : Obligations.ExtractedWeightsNondecreasing := by
  intro choice s harrays hn hmax t p hnp hp
  obtain ⟨-, -, -, hw, -⟩ := arraysWf_iff.1 harrays
  have hordered := buildForest_ordered choice hw hn hmax
  rw [← buildForest_next choice hw hn] at hp ⊢
  exact ⟨(hordered.within p hp hnp).weightAt_le, fun hp' => (hordered.across p hp' hnp).weightAt_le⟩

/-- Settles O21: the order the merge loop keeps is under FIFO the one by weight, then by index. -/
theorem fifoExtractsInOrder : Obligations.FifoExtractsInOrder := by
  intro choice s hfifo harrays hn hmax t before p hnp hp
  obtain ⟨-, -, -, hw, -⟩ := arraysWf_iff.1 harrays
  have hordered := buildForest_ordered choice hw hn hmax
  have hbefore : ∀ {i j}, ExtractsBefore s.cfg.tieBreak t.node i j → before i j := fun hij =>
    hij.imp_right fun ⟨heq, hlt⟩ => ⟨heq, hlt hfifo⟩
  rw [← buildForest_next choice hw hn] at hp ⊢
  exact ⟨hbefore (hordered.within p hp hnp), fun hp' => hbefore (hordered.across p hp' hnp)⟩

/-! ### The extracted weights under two choices -/

section
variable (tb : TieBreak) {node node' : Memory Node} (c c' : Nat) {E E' : List Nat} (hne : E ≠ [])
  (h : (E.map (weightAt node)).Perm (E'.map (weightAt node')))
include hne h

/-- Two eligible sets of the same weights lose the same weight to an extraction. -/
theorem weightAt_argmin_of_perm : weightAt node (argmin tb node c E) = weightAt node' (argmin tb node' c' E') := by
  have hne' : E' ≠ [] := fun e => hne (by simpa [e] using h)
  obtain ⟨i, hi, hiw⟩ := List.mem_map.1 (h.mem_iff.1 (List.mem_map_of_mem (argmin_mem tb node c hne)))
  obtain ⟨j, hj, hjw⟩ := List.mem_map.1 (h.mem_iff.2 (List.mem_map_of_mem (argmin_mem tb node' c' hne')))
  exact le_antisymm (hjw ▸ weightAt_argmin_le tb node c hj) (hiw ▸ weightAt_argmin_le tb node' c' hi)

/-- They keep the same weights. -/
theorem erase_argmin_perm : ((E.erase (argmin tb node c E)).map (weightAt node)).Perm
    ((E'.erase (argmin tb node' c' E')).map (weightAt node')) := by
  have hne' : E' ≠ [] := fun e => hne (by simpa [e] using h)
  have hcons := (List.perm_cons_erase (argmin_mem tb node c hne)).map (weightAt node)
  have hcons' := (List.perm_cons_erase (argmin_mem tb node' c' hne')).map (weightAt node')
  rw [List.map_cons] at hcons hcons'
  rw [weightAt_argmin_of_perm tb c c' hne h] at hcons
  exact (hcons.symm.trans (h.trans hcons')).cons_inv

end

/-- Two forests over the leaves of `s` whose eligible nodes have the same weights and whose merges so far extracted the same
weights. -/
structure Forest.SameWeights (s : State) (f g : Forest) : Prop where
  next : g.next = f.next
  eligible : (f.eligible.map (weightAt f.node)).Perm (g.eligible.map (weightAt g.node))
  children : ∀ p < f.next, s.n ≤ p →
    weightAt f.node (leftChild f.node p) = weightAt g.node (leftChild g.node p) ∧
      weightAt f.node (rightChild f.node p) = weightAt g.node (rightChild g.node p)

theorem Forest.SameWeights.length_eq {s : State} {f g : Forest} (h : f.SameWeights s g) :
    f.eligible.length = g.eligible.length := by
  simpa using h.eligible.length_eq

section
variable {s : State} {f : Forest} (h : f.Grows s) {a b : Nat} (ha : a ∈ f.eligible) (hb : b ∈ f.eligible) (hab : a ≠ b)
include h ha hb hab

theorem Forest.Grows.childWeights_link_old {p : Nat} (hp : p < f.next) (hn : s.n ≤ p) :
    weightAt (linkNodes f.node a b f.next) (leftChild (linkNodes f.node a b f.next) p) =
        weightAt f.node (leftChild f.node p) ∧
      weightAt (linkNodes f.node a b f.next) (rightChild (linkNodes f.node a b f.next) p) =
        weightAt f.node (rightChild f.node p) := by
  obtain ⟨hl, hr⟩ := h.children_link_old ha hb hab hp
  obtain ⟨hlt, hrt⟩ := h.children_lt hp hn
  rw [hl, hr]
  exact ⟨h.weightAt_link_old ha hb hab hlt, h.weightAt_link_old ha hb hab hrt⟩

theorem Forest.Grows.childWeights_link_new :
    weightAt (linkNodes f.node a b f.next) (leftChild (linkNodes f.node a b f.next) f.next) = weightAt f.node a ∧
      weightAt (linkNodes f.node a b f.next) (rightChild (linkNodes f.node a b f.next) f.next) = weightAt f.node b := by
  obtain ⟨hl, hr⟩ := h.children_link_new ha hb hab
  rw [hl, hr]
  exact ⟨h.weightAt_link_old ha hb hab (h.sound.below a ha), h.weightAt_link_old ha hb hab (h.sound.below b hb)⟩

end

theorem mergeOnce_sameWeights (tb : TieBreak) (c c' : Nat → Nat) {s : State} {f g : Forest} (hmax : leafWeight s < 2 ^ 32)
    (hf : f.Grows s) (hg : g.Grows s) (h : f.SameWeights s g) (hl : 2 ≤ f.eligible.length) :
    (mergeOnce tb c f).SameWeights s (mergeOnce tb c' g) := by
  obtain ⟨a, b, ha, hb, hab, ea, eb, e⟩ := mergeOnce_spec tb c f hf.sound.nodup hl
  obtain ⟨a', b', ha', hb', hab', ea', eb', e'⟩ := mergeOnce_spec tb c' g hg.sound.nodup (h.length_eq ▸ hl)
  have hne : f.eligible ≠ [] := List.ne_nil_of_mem ha
  have hne' : f.eligible.erase a ≠ [] := List.ne_nil_of_mem ((List.mem_erase_of_ne hab.symm).2 hb)
  have hwa : weightAt f.node a = weightAt g.node a' := by
    rw [ea, ea']
    exact weightAt_argmin_of_perm tb _ _ hne h.eligible
  have hrest : ((f.eligible.erase a).map (weightAt f.node)).Perm ((g.eligible.erase a').map (weightAt g.node)) := by
    rw [ea, ea']
    exact erase_argmin_perm tb _ _ hne h.eligible
  have hwb : weightAt f.node b = weightAt g.node b' := by
    rw [eb, eb']
    exact weightAt_argmin_of_perm tb _ _ hne' hrest
  have hrest' : (((f.eligible.erase a).erase b).map (weightAt f.node)).Perm
      (((g.eligible.erase a').erase b').map (weightAt g.node)) := by
    rw [eb, eb']
    exact erase_argmin_perm tb _ _ hne' hrest
  rw [e, e']
  refine ⟨congrArg (· + 1) h.next, ?_, fun p hp hn => ?_⟩
  · simp only [hf.map_weightAt_link ha hb hab hmax, hg.map_weightAt_link ha' hb' hab' hmax, hwa, hwb]
    exact hrest'.append_right _
  · by_cases hnew : p = f.next
    · obtain ⟨hleft, hright⟩ := hf.childWeights_link_new ha hb hab
      obtain ⟨hleft', hright'⟩ := hg.childWeights_link_new ha' hb' hab'
      rw [h.next] at hleft' hright' ⊢
      rw [hnew, hleft, hright, hleft', hright']
      exact ⟨hwa, hwb⟩
    · have hlt : p < f.next := by simp only at hp; omega
      obtain ⟨hleft, hright⟩ := hf.childWeights_link_old ha hb hab hlt hn
      obtain ⟨hleft', hright'⟩ := hg.childWeights_link_old ha' hb' hab' (h.next ▸ hlt) hn
      rw [hleft, hright, hleft', hright']
      exact h.children p hlt hn

theorem mergeAll_sameWeights (tb : TieBreak) (c c' : Nat → Nat) {s : State} (hmax : leafWeight s < 2 ^ 32) :
    ∀ (fuel : Nat) {f g : Forest}, f.Grows s → g.Grows s → f.SameWeights s g →
    (mergeAll tb c fuel f).SameWeights s (mergeAll tb c' fuel g)
  | 0, _, _, _, _, h => h
  | fuel + 1, f, g, hf, hg, h => by
    have hlen := h.length_eq
    rw [mergeAll, mergeAll, ← hlen]
    split_ifs with hone
    · exact h
    · exact mergeAll_sameWeights tb c c' hmax fuel (mergeOnce_grows tb c hmax hf (by omega))
        (mergeOnce_grows tb c' hmax hg (by omega)) (mergeOnce_sameWeights tb c c' hmax hf hg h (by omega))

theorem buildForest_sameWeights (c c' : Nat → Nat) {s : State} (hw : Memory.wf maxNodes s.node = true) (hn : s.n ≤ asize)
    (hmax : leafWeight s < 2 ^ 32) : (buildForest c s).SameWeights s (buildForest c' s) :=
  have hgrows := leafForest_grows hw hn
  mergeAll_sameWeights _ c c' hmax _ hgrows hgrows ⟨rfl, .refl _, fun _ _ _ => ⟨rfl, rfl⟩⟩

/-- Settles O22: both runs start from the same leaves, and every turn extracts the same weights from both. -/
theorem tieBreakKeepsWeights : Obligations.TieBreakKeepsWeights := by
  intro c c' s harrays hn hmax t u
  obtain ⟨-, -, -, hw, -⟩ := arraysWf_iff.1 harrays
  have hsame := buildForest_sameWeights c c' hw hn hmax
  refine ⟨congrArg (BitVec.ofNat 8) hsame.next.symm,
    (buildState_root c hw hn hmax).trans (buildState_root c' hw hn hmax).symm, fun i hi => ?_, fun p hnp hp => ?_⟩
  · obtain ⟨q, hq⟩ := buildState_leaf c hw hn hmax hi
    obtain ⟨q', hq'⟩ := buildState_leaf c' hw hn hmax hi
    rw [hq, hq']
    exact ⟨rfl, rfl⟩
  · rw [← buildForest_next c hw hn] at hp
    obtain ⟨hleft, hright⟩ := hsame.children p hp hnp
    exact ⟨BitVec.eq_of_toNat_eq hleft, BitVec.eq_of_toNat_eq hright⟩

end Sys2Proof.Machine
end

section
/-! SUPPORT. The tree above a node of a sound arena (R38, R96): the links from it up to the root, and the bits on the way
back down. -/

namespace Sys2Proof.Machine

theorem climb_add (node : Memory Node) : ∀ (d i e : Nat), climb node i (d + e) = climb node (climb node i d) e
  | 0, _, _ => by rw [Nat.zero_add, climb]
  | d + 1, i, e => by rw [show d + 1 + e = d + e + 1 by omega, climb, climb_add node d, climb]

theorem descend_append (node : Memory Node) : ∀ (bs cs : List Bool) (j : Nat),
    descend node j (bs ++ cs) = descend node (descend node j bs) cs
  | [], _, _ => rfl
  | _ :: bs, cs, _ => descend_append node bs cs _

/-- The bits of the first `d` links above node `i`, root side first. -/
def pathBits (node : Memory Node) : Nat → Nat → List Bool
  | _, 0 => []
  | i, d + 1 => pathBits node (Memory.read node i).par.toNat d ++ [walkBit node i]

theorem pathBits_length (node : Memory Node) : ∀ (d i : Nat), (pathBits node i d).length = d
  | 0, _ => rfl
  | d + 1, i => by rw [pathBits, List.length_append, pathBits_length node d, List.length_singleton]

/-- A path begins with the path of any node on it. -/
theorem pathBits_add (node : Memory Node) : ∀ (e i d : Nat),
    pathBits node i (e + d) = pathBits node (climb node i e) d ++ pathBits node i e
  | 0, i, d => by rw [Nat.zero_add, climb, pathBits, List.append_nil]
  | e + 1, i, d => by
    rw [show e + 1 + d = e + d + 1 by omega, pathBits, pathBits_add node e, climb, pathBits, List.append_assoc]

/-- The bits of a path are those a walk collects, the last one first. -/
theorem pathBits_eq_map (node : Memory Node) : ∀ (d i : Nat),
    pathBits node i d = (List.range d).reverse.map fun k => walkBit node (climb node i k)
  | 0, _ => rfl
  | d + 1, i => by
    rw [pathBits, pathBits_eq_map node d, List.range_succ_eq_map, List.reverse_cons, List.map_append, ← List.map_reverse,
      List.map_map]
    rfl

/-- The `d`-th parent link from node `i` is the first to meet the root. -/
def State.AtDepth (s : State) (i d : Nat) : Prop :=
  climb s.node i d = s.root.toNat ∧ ∀ e < d, climb s.node i e ≠ s.root.toNat

theorem State.AtDepth.unique {s : State} {i d d' : Nat} (h : s.AtDepth i d) (h' : s.AtDepth i d') : d = d' := by
  obtain ⟨hroot, hbefore⟩ := h
  obtain ⟨hroot', hbefore'⟩ := h'
  rcases lt_trichotomy d d' with hlt | heq | hgt
  · exact absurd hroot (hbefore' d hlt)
  · exact heq
  · exact absurd hroot' (hbefore d' hgt)

theorem State.AtDepth.succ {s : State} {i d : Nat} (hi : i ≠ s.root.toNat) (h : s.AtDepth (s.nodeAt i).par.toNat d) :
    s.AtDepth i (d + 1) := by
  obtain ⟨hroot, hbefore⟩ := h
  refine ⟨hroot, fun e he => ?_⟩
  cases e with
  | zero => exact hi
  | succ e => exact hbefore e (by omega)

theorem State.AtDepth.lt_iff {s : State} {i d k : Nat} (h : s.AtDepth i d) :
    k < d ↔ ∀ e ≤ k, climb s.node i e ≠ s.root.toNat := by
  obtain ⟨hroot, hbefore⟩ := h
  exact ⟨fun hk e he => hbefore e (by omega), fun hne => not_le.1 fun hle => hne d hle hroot⟩

/-- The depth of node `i`: the number of links its ancestor walk passes (R91). -/
def State.depth (s : State) (i : Nat) : Nat := (walk s.node maxNodes i 0 0).elim 0 Prod.fst

theorem State.nnodes_le (s : State) : s.nnodes.toNat ≤ 255 := Nat.le_of_lt_succ s.nnodes.isLt

namespace State.ArenaOk

variable {s : State} (h : s.ArenaOk)
include h

theorem n_le_nnodes : s.n ≤ s.nnodes.toNat := by
  rw [h.nnodes_eq]
  omega

theorem lt_nnodes {i : Nat} (hi : i < s.n) : i < s.nnodes.toNat := hi.trans_le h.n_le_nnodes

/-- The root is the youngest node (R86). -/
theorem nnodes_eq_succ_root (h1 : 1 ≤ s.n) : s.nnodes.toNat = s.root.toNat + 1 := by
  have hnodes := h.nnodes_eq
  have hle := s.nnodes_le
  rw [h.root_eq, if_neg (by omega), toNat_offset (by omega)]
  omega

/-- The children of an internal node are different, older, and linked back to it (R38 (c), (d)). -/
theorem children {p : Nat} (hp : p < s.nnodes.toNat) (hn : s.n ≤ p) :
    (s.nodeAt p).lft.toNat ≠ (s.nodeAt p).rgt.toNat ∧ (s.nodeAt p).lft.toNat < p ∧ (s.nodeAt p).rgt.toNat < p ∧
    (s.nodeAt (s.nodeAt p).lft.toNat).par.toNat = p ∧ (s.nodeAt (s.nodeAt p).rgt.toNat).par.toNat = p := by
  obtain ⟨-, hne, hlft, hrgt, hpl, hpr, -⟩ := h.internal p hp hn
  have hle := s.nnodes_le
  exact ⟨fun e => hne (BitVec.eq_of_toNat_eq e), hlft, hrgt, by rw [hpl, toNat_offset (by omega)],
    by rw [hpr, toNat_offset (by omega)]⟩

section
variable {i : Nat} (hi : i < s.nnodes.toNat)
include hi

/-- A node other than the root is a child of a younger node (R38 (b), (d)). -/
theorem child_of_par (hr : i ≠ s.root.toNat) :
    i < (s.nodeAt i).par.toNat ∧ (s.nodeAt i).par.toNat < s.nnodes.toNat ∧
      ((s.nodeAt (s.nodeAt i).par.toNat).lft.toNat = i ∨ (s.nodeAt (s.nodeAt i).par.toNat).rgt.toNat = i) :=
  (h.parent i hi).2 hr

/-- The root is the one node without a parent (R38 (b)). -/
theorem par_eq_nil_iff : (s.nodeAt i).par = nil ↔ i = s.root.toNat := by
  refine ⟨fun hnil => not_not.1 fun hne => ?_, (h.parent i hi).1⟩
  obtain ⟨-, hlt, -⟩ := h.child_of_par hi hne
  have hle := s.nnodes_le
  exact ne_nil_of_lt (by omega) hnil

/-- A parent is an internal node: a leaf has no children (R37). -/
theorem n_le_par (hr : i ≠ s.root.toNat) : s.n ≤ (s.nodeAt i).par.toNat := by
  obtain ⟨-, -, hchild⟩ := h.child_of_par hi hr
  refine not_lt.1 fun hleaf => ?_
  obtain ⟨-, -, hlft, hrgt⟩ := h.leaf _ hleaf
  have hnil : nil.toNat = 255 := rfl
  have hle := s.nnodes_le
  rw [hlft, hrgt, or_self] at hchild
  omega

/-- The bit of a link leads back down it. -/
theorem descend_walkBit (hr : i ≠ s.root.toNat) : descend s.node (s.nodeAt i).par.toNat [walkBit s.node i] = i := by
  obtain ⟨-, -, hchild⟩ := h.child_of_par hi hr
  by_cases hl : (s.nodeAt (s.nodeAt i).par.toNat).lft.toNat = i
  · have hbit : walkBit s.node i = false := decide_eq_false (not_not.2 hl)
    rw [hbit]
    exact hl
  · have hbit : walkBit s.node i = true := decide_eq_true hl
    rw [hbit]
    exact hchild.resolve_left hl

end

theorem climb_lt : ∀ {d i : Nat}, i < s.nnodes.toNat → (∀ e < d, climb s.node i e ≠ s.root.toNat) →
    climb s.node i d < s.nnodes.toNat
  | 0, _, hi, _ => hi
  | d + 1, i, hi, hbefore => by
    obtain ⟨-, hlt, -⟩ := h.child_of_par hi (hbefore 0 (by omega))
    rw [climb]
    exact climb_lt hlt fun e he => hbefore (e + 1) (by omega)

/-- Every node met on the way up from a node is internal, and younger than the one met before (R38 (d)). -/
theorem le_climb {i : Nat} (hi : i < s.nnodes.toNat) : ∀ {e : Nat}, (∀ d ≤ e, climb s.node i d ≠ s.root.toNat) →
    s.n + e ≤ climb s.node i (e + 1)
  | 0, hbefore => h.n_le_par hi (hbefore 0 le_rfl)
  | e + 1, hbefore => by
    have hle := le_climb hi (e := e) fun d hd => hbefore d (by omega)
    have hlt := h.climb_lt hi (d := e + 1) fun d hd => hbefore d (by omega)
    obtain ⟨hup, -⟩ := h.child_of_par hlt (hbefore (e + 1) le_rfl)
    rw [climb_add s.node (e + 1) i 1]
    exact Nat.lt_of_le_of_lt hle hup

/-- A path leads back down to the node it starts from. -/
theorem descend_pathBits : ∀ {d i : Nat}, i < s.nnodes.toNat → (∀ e < d, climb s.node i e ≠ s.root.toNat) →
    descend s.node (climb s.node i d) (pathBits s.node i d) = i
  | 0, _, _, _ => rfl
  | d + 1, i, hi, hbefore => by
    have hr : i ≠ s.root.toNat := hbefore 0 (by omega)
    obtain ⟨-, hlt, -⟩ := h.child_of_par hi hr
    rw [climb, pathBits, descend_append]
    exact (congrArg (descend s.node · _) (descend_pathBits hlt fun e he => hbefore (e + 1) (by omega))).trans
      (h.descend_walkBit hi hr)

theorem walk_eq_depth {i : Nat} (hi : i < s.nnodes.toNat) : ∃ v, walk s.node maxNodes i 0 0 = some (s.depth i, v) := by
  have hle := s.nnodes_le
  obtain ⟨⟨d, v⟩, hwalk⟩ := Option.isSome_iff_exists.1
    (walk_isSome h.linksUp maxNodes i 0 0 hi (by simp only [maxNodes_eq]; omega))
  exact ⟨v, by rw [State.depth, hwalk]; rfl⟩

/-- R96: the ancestor walk of a node ends at the root. -/
theorem atDepth {i : Nat} (hi : i < s.nnodes.toNat) : s.AtDepth i (s.depth i) := by
  obtain ⟨v, hwalk⟩ := h.walk_eq_depth hi
  obtain ⟨k, -, hk, hend, hbefore⟩ := walk_eq_some hwalk
  obtain rfl : s.depth i = k := by omega
  have hne : ∀ d < s.depth i, climb s.node i d ≠ s.root.toNat := fun d => by
    induction d using Nat.strong_induction_on with
    | _ d ih =>
      intro hd hroot
      exact hbefore d hd ((h.par_eq_nil_iff (h.climb_lt hi fun e he => ih e he (by omega))).2 hroot)
  exact ⟨(h.par_eq_nil_iff (h.climb_lt hi hne)).1 hend, hne⟩

theorem depth_lt {i : Nat} (hi : i < s.nnodes.toNat) : s.depth i < 255 := by
  obtain ⟨v, hwalk⟩ := h.walk_eq_depth hi
  obtain ⟨k, hk, hd, -⟩ := walk_eq_some hwalk
  simp only [maxNodes_eq] at hk
  omega

/-- R98: a leaf lies at most N - 1 links below the root, each link leading to another internal node. -/
theorem depth_leaf_le {i : Nat} (hi : i < s.n) : s.depth i ≤ s.n - 1 := by
  obtain ⟨-, hbefore⟩ := h.atDepth (h.lt_nnodes hi)
  have hlt := h.climb_lt (h.lt_nnodes hi) hbefore
  have hnodes := h.nnodes_eq
  cases hd : s.depth i with
  | zero => omega
  | succ e =>
    rw [hd] at hlt hbefore
    have hle := h.le_climb (h.lt_nnodes hi) (e := e) fun d hde => hbefore d (by omega)
    omega

theorem depth_child {i : Nat} (hi : i < s.nnodes.toNat) (hr : i ≠ s.root.toNat) :
    s.depth i = s.depth (s.nodeAt i).par.toNat + 1 := by
  obtain ⟨-, hlt, -⟩ := h.child_of_par hi hr
  exact (h.atDepth hi).unique ((h.atDepth hlt).succ hr)

/-- No leaf's path from the root begins another leaf's: a node on the way is internal (R95). -/
theorem leaf_eq_of_path_begins {i j : Nat} (hi : i < s.n) (hj : j < s.n)
    (hpre : pathBits s.node i (s.depth i) <+: pathBits s.node j (s.depth j)) : i = j := by
  obtain ⟨hirel, hibefore⟩ := h.atDepth (h.lt_nnodes hi)
  obtain ⟨hjrel, hjbefore⟩ := h.atDepth (h.lt_nnodes hj)
  have hlen := hpre.length_le
  rw [pathBits_length, pathBits_length] at hlen
  obtain ⟨e, he⟩ := Nat.exists_eq_add_of_le' hlen
  rw [he] at hjrel hjbefore
  rw [he, pathBits_add] at hpre
  rw [climb_add] at hjrel
  have hbits : pathBits s.node i (s.depth i) = pathBits s.node (climb s.node j e) (s.depth i) :=
    (List.prefix_of_prefix_length_le hpre (List.prefix_append _ _) (by rw [pathBits_length, pathBits_length])).eq_of_length
      (by rw [pathBits_length, pathBits_length])
  have hmet : i = climb s.node j e := by
    have hlt := h.climb_lt (h.lt_nnodes hj) (d := e) fun d hd => hjbefore d (by omega)
    rw [← h.descend_pathBits (h.lt_nnodes hi) hibefore, hirel, hbits, ← hjrel,
      h.descend_pathBits hlt fun d hd => by rw [← climb_add]; exact hjbefore _ (by omega)]
  cases e with
  | zero => exact hmet
  | succ e =>
    have hle := h.le_climb (h.lt_nnodes hj) (e := e) fun d hd => hjbefore d (by omega)
    omega

end State.ArenaOk

end Sys2Proof.Machine
end

section
/-! SUPPORT. The code table (R91 to R98): every entry as the path of its symbol's leaf, and the ways CODES can end. -/

namespace Sys2Proof.Machine

/-! ### The entries -/

theorem uniqList_of_n_eq_one {s : State} (h1 : s.n = 1) : s.uniqList = [s.uniqAt 0] := by
  rw [State.uniqList, h1]
  rfl

namespace State.CodesOk

variable {s : State} (h : s.CodesOk)
include h

/-- The entry of an absent symbol is 0 (R39). -/
theorem absent {x : Sym} (hx : x ∉ s.uniqList) : s.clenAt x = 0 ∧ s.cbitsAt x = 0 := by
  by_cases h1 : s.n = 1
  · have hne : x.toNat ≠ (s.uniqAt 0).toNat := fun e =>
      hx (by rw [uniqList_of_n_eq_one h1]; exact List.mem_singleton.2 (BitVec.eq_of_toNat_eq e))
    rw [State.CodesOk, codeTable, if_pos h1] at h
    obtain ⟨hclen, hcbits⟩ := Prod.mk.inj (Option.some.inj h)
    rw [State.clenAt, State.cbitsAt, ← hclen, ← hcbits, Memory.read_write (size := asize) rfl,
      Memory.read_write (size := asize) rfl, if_neg hne, if_neg hne]
    exact ⟨rfl, rfl⟩
  · rw [State.CodesOk, codeTable, if_neg h1] at h
    exact deriveCodes_other h rfl rfl x.toNat fun i hi e =>
      hx (List.mem_map.2 ⟨i, hi, BitVec.eq_of_toNat_eq e⟩)

section
variable (ha : s.ArenaOk) (hd : s.uniqList.Nodup) (h2 : 2 ≤ s.n) {i : Nat} (hi : i < s.n)
include ha hd h2 hi

/-- The entry of a leaf's symbol comes from the leaf's ancestor walk (R91). -/
theorem leaf_entry : ∃ v, walk s.node maxNodes i 0 0 = some (s.depth i, v) ∧
    (s.clenAt (s.uniqAt i)).toNat = s.depth i ∧ s.cbitsAt (s.uniqAt i) = if s.depth i ≤ 8 then v else 0 := by
  rw [State.CodesOk, codeTable, if_neg (by omega)] at h
  obtain ⟨d, v, hwalk, hclen, hcbits⟩ := deriveCodes_leaf h rfl rfl List.nodup_range (List.inj_on_of_nodup_map hd) i
    (List.mem_range.2 hi)
  obtain ⟨w, hdepth⟩ := ha.walk_eq_depth (ha.lt_nnodes hi)
  obtain ⟨rfl, rfl⟩ := Prod.mk.inj (Option.some.inj (hwalk.symm.trans hdepth))
  have hlt := ha.depth_lt (ha.lt_nnodes hi)
  refine ⟨v, hdepth, ?_, hcbits⟩
  rw [State.clenAt, State.uniqAt, hclen, BitVec.toNat_ofNat, Nat.mod_eq_of_lt (by omega)]

/-- R96: a code's length is its leaf's depth. -/
theorem clenAt_leaf : (s.clenAt (s.uniqAt i)).toNat = s.depth i := by
  obtain ⟨-, -, hclen, -⟩ := h.leaf_entry ha hd h2 hi
  exact hclen

/-- The bits of a code that fits are those of the links above its leaf, the leaf's own link first. -/
theorem getLsbD_cbitsAt (hfit : s.depth i ≤ 8) (k : Nat) :
    (s.cbitsAt (s.uniqAt i)).getLsbD k = if k < s.depth i then walkBit s.node (climb s.node i k) else false := by
  obtain ⟨v, hwalk, -, hcbits⟩ := h.leaf_entry ha hd h2 hi
  rw [hcbits, if_pos hfit]
  by_cases hk : k < 8
  · have hbit := walk_bits hwalk (fun _ _ => BitVec.getLsbD_zero) k hk
    rwa [if_neg (Nat.not_lt_zero k), Nat.sub_zero] at hbit
  · rw [BitVec.getLsbD_of_ge v k (by omega), if_neg (by omega)]

/-- A code that fits is the path from the root to its leaf (R91, R95). -/
theorem codeBits_leaf (hfit : s.depth i ≤ 8) : codeBits s (s.uniqAt i) = pathBits s.node i (s.depth i) := by
  rw [codeBits, h.clenAt_leaf ha hd h2 hi, pathBits_eq_map]
  refine List.map_congr_left fun k hk => ?_
  rw [h.getLsbD_cbitsAt ha hd h2 hi hfit, if_pos (List.mem_range.1 (List.mem_reverse.1 hk))]

/-- R96, R93: a code is as long as its leaf is deep; one of at most 8 bits leads from the root to its leaf, with no bit
above its length, and a longer one has no bits. -/
theorem leaf_code : s.AtDepth i (s.clenAt (s.uniqAt i)).toNat ∧
    ((s.clenAt (s.uniqAt i)).toNat ≤ 8 → descend s.node s.root.toNat (codeBits s (s.uniqAt i)) = i ∧
      (s.cbitsAt (s.uniqAt i)).toNat < 2 ^ (s.clenAt (s.uniqAt i)).toNat) ∧
    (8 < (s.clenAt (s.uniqAt i)).toNat → s.cbitsAt (s.uniqAt i) = 0) := by
  obtain ⟨v, -, hclen, hcbits⟩ := h.leaf_entry ha hd h2 hi
  obtain ⟨hroot, hbefore⟩ := ha.atDepth (ha.lt_nnodes hi)
  rw [hclen]
  refine ⟨⟨hroot, hbefore⟩, fun hfit => ⟨?_, ?_⟩, fun hlong => ?_⟩
  · rw [h.codeBits_leaf ha hd h2 hi hfit, ← hroot]
    exact ha.descend_pathBits (ha.lt_nnodes hi) hbefore
  · refine Nat.lt_pow_two_of_testBit _ fun k hk => ?_
    rw [BitVec.testBit_toNat, h.getLsbD_cbitsAt ha hd h2 hi hfit, if_neg (by omega)]
  · rw [hcbits, if_neg (by omega)]

end

end State.CodesOk

/-! ### How CODES ends -/

theorem accepts_codes {s : State} (hp : s.phase = .tree) : accepts .codes s.phase = true := by rw [hp]; rfl

/-- The state with the given code table. -/
def State.withCodes (s : State) (clen cbits : Memory Byte) : State := { s with clen := clen, cbits := cbits }

theorem State.ArenaOk.withCodes {s : State} (h : s.ArenaOk) (clen cbits : Memory Byte) : (s.withCodes clen cbits).ArenaOk :=
  ArenaOk_congr h rfl rfl rfl rfl rfl rfl rfl

/-- CODES derives its table and checks it, unless a walk has no end (R91). -/
theorem exec_codes_of {s : State} (hp : s.phase = .tree) (hn : s.n ≤ 128) (hc : (codeTable s).isSome = true) :
    ∃ clen cbits, (s.withCodes clen cbits).CodesOk ∧ exec .codes s = .next (checkLengths (s.withCodes clen cbits)) := by
  obtain ⟨⟨clen, cbits⟩, htable⟩ := Option.isSome_iff_exists.1 hc
  exact ⟨clen, cbits, htable, (whenAccepted_of_accepts (accepts_codes hp)).trans (codesBody_of hn htable)⟩

/-- With at most one unique symbol CODES walks over no links (R92, R94). -/
theorem codeTable_isSome_of_n_le_one {s : State} (h1 : s.n ≤ 1) : (codeTable s).isSome = true := by
  obtain h | h : s.n = 0 ∨ s.n = 1 := by omega
  · rw [codeTable, if_neg (by omega), h]
    rfl
  · rw [codeTable, if_pos h]
    rfl

theorem checkLengths_frame (s : State) : checkLengths s =
    { s with phase := (checkLengths s).phase, lasterr := (checkLengths s).lasterr, err := (checkLengths s).err,
             errinfo := (checkLengths s).errinfo } := by
  obtain ⟨-, e⟩ | ⟨x, -, e⟩ := checkLengths_cases s <;> rw [e] <;> rfl

theorem checkLengths_clen (s : State) : (checkLengths s).clen = s.clen := by rw [checkLengths_frame]

theorem checkLengths_cbits (s : State) : (checkLengths s).cbits = s.cbits := by rw [checkLengths_frame]

theorem checkLengths_clenAt (s : State) (x : Sym) : (checkLengths s).clenAt x = s.clenAt x := by
  rw [State.clenAt, checkLengths_clen, State.clenAt]

theorem checkLengths_cbitsAt (s : State) (x : Sym) : (checkLengths s).cbitsAt x = s.cbitsAt x := by
  rw [State.cbitsAt, checkLengths_cbits, State.cbitsAt]

theorem checkLengths_codeBits (s : State) (x : Sym) : codeBits (checkLengths s) x = codeBits s x := by
  rw [codeBits, checkLengths_clenAt, checkLengths_cbitsAt, codeBits]

theorem checkLengths_of_fits {s : State} (h : ∀ i < s.n, (s.clenAt (s.uniqAt i)).toNat ≤ 8) :
    checkLengths s = ok { s with phase := .coded } := by
  have hnone : firstTooLong s = none := firstTooLong_eq_none.2 fun x hx => by
    obtain ⟨i, hi, rfl⟩ := List.mem_map.1 hx
    exact h i (List.mem_range.1 hi)
  rw [checkLengths, hnone]

/-- ERRINFO of CODE_TOO_LONG: the code's length, then its symbol (R93). -/
theorem tooLongInfo_eq (c : Byte) (x : Sym) :
    (0#16 ++ c ++ x.setWidth 8 : Word) = BitVec.ofNat 32 (c.toNat * 256 + x.toNat) := by
  have hc := c.isLt
  have hx := x.isLt
  refine BitVec.eq_of_toNat_eq ?_
  rw [toNat_append_eq, toNat_append_eq, BitVec.toNat_setWidth, BitVec.toNat_ofNat, BitVec.toNat_ofNat]
  omega

theorem checkLengths_of_tooLong {s : State} {k : Nat} (hk : k < s.n) (hlong : 8 < (s.clenAt (s.uniqAt k)).toNat)
    (hfirst : ∀ i < k, (s.clenAt (s.uniqAt i)).toNat ≤ 8) : checkLengths s =
      fail .codeTooLong (BitVec.ofNat 32 ((s.clenAt (s.uniqAt k)).toNat * 256 + (s.uniqAt k).toNat))
        { s with phase := .failed } := by
  have hsome : firstTooLong s = some (s.uniqAt k) := by
    rw [firstTooLong, State.uniqList, List.find?_map, List.find?_range_eq_some.2 ⟨?_, List.mem_range.2 hk, ?_⟩]
    · rfl
    · exact decide_eq_true hlong
    · intro i hi
      simpa using hfirst i hi
  rw [checkLengths, hsome]
  exact congrArg (fail .codeTooLong · _) (tooLongInfo_eq _ _)

/-- Settles O24: no code of a table of at most one symbol is too long, and an empty table is all 0. -/
theorem codesEdgeCases : Obligations.CodesEdgeCases := by
  intro s hp
  refine ⟨fun h0 => ?_, fun h1 => ?_⟩
  · obtain ⟨clen, cbits, hcodes, hexec⟩ := exec_codes_of hp (by omega) (codeTable_isSome_of_n_le_one (by omega))
    have htable : codeTable s = some ([], []) := by
      rw [codeTable, if_neg (by omega), h0]
      rfl
    obtain ⟨rfl, rfl⟩ := Prod.mk.inj (Option.some.inj (htable.symm.trans hcodes))
    rw [hexec, checkLengths_of_fits (s := s.withCodes [] []) fun i (hi : i < s.n) => by omega]
    rfl
  · obtain ⟨clen, cbits, hcodes, hexec⟩ := exec_codes_of hp (by omega) (codeTable_isSome_of_n_le_one (by omega))
    obtain ⟨hclen, hcbits⟩ := hcodes.single h1
    have hfits : checkLengths (s.withCodes clen cbits) = ok { s.withCodes clen cbits with phase := .coded } :=
      checkLengths_of_fits fun i (hi : i < s.n) => by
        obtain rfl : i = 0 := by omega
        rw [hclen]
        decide
    refine ⟨_, hexec, by rw [hfits]; rfl, fun x => ?_⟩
    rw [checkLengths_clenAt, checkLengths_cbitsAt]
    by_cases hx : x = s.uniqAt 0
    · rw [if_pos hx, if_pos hx, hx]
      exact ⟨hclen, hcbits⟩
    · rw [if_neg hx, if_neg hx]
      exact hcodes.absent fun hmem => hx (List.mem_singleton.1 (uniqList_of_n_eq_one h1 ▸ hmem))

/-- Settles O23: the table is the one `State.CodesOk` speaks of, and the check of its lengths writes the rest. -/
theorem codesCompletes : Obligations.CodesCompletes := by
  intro s hp hn ha
  obtain ⟨clen, cbits, hcodes, hexec⟩ := exec_codes_of hp hn (codeTable_isSome ha.linksUp ha.n_le_nnodes)
  refine ⟨_, hexec, ?_, fun h2 hd i hi => ?_, fun x hx => ?_, fun hfits => ?_, fun k hk hlong hfirst => ?_⟩
  · rw [checkLengths_clen, checkLengths_cbits]
    exact checkLengths_frame _
  · obtain ⟨⟨hroot, hbefore⟩, hfit, hlong⟩ := hcodes.leaf_code (ha.withCodes clen cbits) hd h2 hi
    rw [checkLengths_clenAt, checkLengths_codeBits, checkLengths_cbitsAt]
    exact ⟨hroot, hbefore, fun hle => (hfit hle).1, hlong⟩
  · rw [checkLengths_clenAt, checkLengths_cbitsAt]
    exact hcodes.absent hx
  · simp only [checkLengths_clenAt] at hfits
    rw [checkLengths_of_fits hfits]
    exact ⟨rfl, rfl, rfl, rfl⟩
  · simp only [checkLengths_clenAt] at hlong hfirst
    rw [checkLengths_clenAt, checkLengths_of_tooLong (s := s.withCodes clen cbits) hk hlong hfirst]
    exact ⟨rfl, rfl, rfl, rfl⟩

/-- With two or more unique symbols CODES ends in CODED if no leaf is deeper than 8, else with CODE_TOO_LONG (R93, R96). -/
theorem exec_codes_cases {s : State} (hp : s.phase = .tree) (hn : s.n ≤ 128) (ha : s.ArenaOk) (hd : s.uniqList.Nodup)
    (h2 : 2 ≤ s.n) : ∃ t, exec .codes s = .next t ∧
      ((∀ i < s.n, s.depth i ≤ 8) ∧ t.phase = .coded ∧ t.lasterr = .none ∨
        (∃ i < s.n, 8 < s.depth i) ∧ t.lasterr = .codeTooLong) := by
  obtain ⟨t, hexec, -, hleaf, -, hfits, hlong⟩ := codesCompletes s hp hn ha
  have hclen : ∀ i < s.n, (t.clenAt (s.uniqAt i)).toNat = s.depth i := fun i hi => by
    obtain ⟨hroot, hbefore, -⟩ := hleaf h2 hd i hi
    exact State.AtDepth.unique ⟨hroot, hbefore⟩ (ha.atDepth (ha.lt_nnodes hi))
  refine ⟨t, hexec, ?_⟩
  by_cases hex : ∃ i, i < s.n ∧ 8 < s.depth i
  · obtain ⟨hk, hdeep⟩ := Nat.find_spec hex
    have hfirst : ∀ i < Nat.find hex, s.depth i ≤ 8 := fun i hi =>
      not_lt.1 fun hlt => Nat.find_min hex hi ⟨by omega, hlt⟩
    obtain ⟨-, hcode, -⟩ := hlong (Nat.find hex) hk (by rw [hclen _ hk]; exact hdeep) fun i hi => by
      rw [hclen i (by omega)]
      exact hfirst i hi
    exact .inr ⟨hex, hcode⟩
  · have hall : ∀ i < s.n, s.depth i ≤ 8 := fun i hi => not_lt.1 fun hlt => hex ⟨i, hi, hlt⟩
    obtain ⟨hphase, hcode, -⟩ := hfits fun i hi => by
      rw [hclen i hi]
      exact hall i hi
    exact .inl ⟨hall, hphase, hcode⟩

/-- Settles O28: a leaf is at most N - 1 deep, and CODES fails on a leaf deeper than 8 alone (`exec_codes_cases`). -/
theorem whenCodesTooLong : Obligations.WhenCodesTooLong := by
  intro s hinv hp
  have ha := hinv.arenaOk (by rw [hp]; decide)
  have hends := exec_codes_cases hp hinv.n_le ha hinv.counts.distinct
  refine ⟨fun i hi => ?_, fun h9 => ?_, fun h10 => ?_⟩
  · obtain ⟨hroot, -⟩ := ha.atDepth (ha.lt_nnodes hi)
    exact ⟨s.depth i, ha.depth_leaf_le hi, hroot⟩
  · obtain ⟨hempty, hsingle⟩ := codesEdgeCases s hp
    obtain h0 | h1 | h2 : s.n = 0 ∨ s.n = 1 ∨ 2 ≤ s.n := by omega
    · exact ⟨_, hempty h0, rfl, rfl⟩
    · obtain ⟨t, hexec, hframe, -⟩ := hsingle h1
      exact ⟨t, hexec, by rw [hframe], by rw [hframe]⟩
    · obtain ⟨t, hexec, ⟨-, hends⟩ | ⟨⟨i, hi, hdeep⟩, -⟩⟩ := hends h2
      · exact ⟨t, hexec, hends⟩
      · have hle := ha.depth_leaf_le hi
        omega
  · have hdeep : (∃ i < s.n, 8 < s.depth i) ↔ ∃ i < s.n, ∀ d ≤ 8, climb s.node i d ≠ s.root.toNat :=
      exists_congr fun i => and_congr_right fun hi => (ha.atDepth (ha.lt_nnodes hi)).lt_iff
    rw [← hdeep]
    obtain ⟨t, hexec, ⟨hall, -, hcode⟩ | ⟨hex, hcode⟩⟩ := hends (by omega)
    · have hnone : ¬ ∃ i < s.n, 8 < s.depth i := fun ⟨i, hi, hlt⟩ => absurd hlt (not_lt.2 (hall i hi))
      exact ⟨t, hexec, by simp [hcode, hnone]⟩
    · exact ⟨t, hexec, by simp [hcode, hex]⟩

/-! ### The codes of a sound state -/

theorem State.Inv.arenaOk_codesOk {s : State} (h : s.Inv) (hc : s.hasCodes = true) : s.ArenaOk ∧ s.CodesOk := by
  have hphase := h.phaseOk
  unfold State.PhaseOk at hphase
  split at hphase
  case h_1 hp | h_2 hp => simp [State.hasCodes, hp] at hc
  all_goals exact ⟨hphase.1, hphase.2.1⟩

/-- Settles O25: each clause is one of the code table's, `State.CodesOk.absent`, `single` and `leaf_code`. -/
theorem codesFollowTree : Obligations.CodesFollowTree := by
  intro s hinv hc
  obtain ⟨ha, hcodes⟩ := hinv.arenaOk_codesOk hc
  refine ⟨fun x => hcodes.absent, fun h1 => ⟨?_, hcodes.single h1⟩, fun h2 i hi => ?_⟩
  · rw [ha.root_eq, h1]
    rfl
  · obtain ⟨⟨hroot, hbefore⟩, hcode⟩ := hcodes.leaf_code ha hinv.counts.distinct h2 hi
    exact ⟨hroot, hbefore, hcode⟩

/-- Settles O26: the codes are the paths to different leaves, and no leaf's path begins another's. -/
theorem codesArePrefixFree : Obligations.CodesArePrefixFree := by
  intro s hinv hp x hx y hy hpre
  obtain ⟨i, hi, rfl⟩ := List.mem_map.1 hx
  obtain ⟨j, hj, rfl⟩ := List.mem_map.1 hy
  rw [List.mem_range] at hi hj
  obtain ⟨ha, hcodes, hfits⟩ : s.ArenaOk ∧ s.CodesOk ∧ firstTooLong s = none := by
    have hphase := hinv.phaseOk
    obtain hp | hp := hp
    · obtain ⟨ha, hcodes, hfits, -⟩ := (phaseOk_coded hp).1 hphase
      exact ⟨ha, hcodes, hfits⟩
    · obtain ⟨ha, hcodes, hfits, -⟩ := (phaseOk_packed hp).1 hphase
      exact ⟨ha, hcodes, hfits⟩
  obtain h1 | h2 : s.n = 1 ∨ 2 ≤ s.n := by omega
  · rw [show i = j by omega]
  · have hpath : ∀ k < s.n, codeBits s (s.uniqAt k) = pathBits s.node k (s.depth k) := fun k hk =>
      hcodes.codeBits_leaf ha hinv.counts.distinct h2 hk
        (hcodes.clenAt_leaf ha hinv.counts.distinct h2 hk ▸ firstTooLong_eq_none.1 hfits _ (uniqAt_mem hk))
    rw [hpath i hi, hpath j hj] at hpre
    rw [ha.leaf_eq_of_path_begins hi hj hpre]

/-! ### The Kraft sum -/

/-- A quantity that each internal node shares out between its children sums over the leaves to the root's: every node but
the root is one internal node's child (R38). -/
theorem State.ArenaOk.sum_leaves {s : State} (h : s.ArenaOk) (h1 : 1 ≤ s.n) (f : Nat → ℚ)
    (hf : ∀ p < s.nnodes.toNat, s.n ≤ p → f p = f (s.nodeAt p).lft.toNat + f (s.nodeAt p).rgt.toNat) :
    ∑ i ∈ Finset.range s.n, f i = f s.root.toNat := by
  have hroot := h.nnodes_eq_succ_root h1
  have hparent : ∀ i ∈ Finset.range s.root.toNat, (s.nodeAt i).par.toNat ∈ Finset.Ico s.n s.nnodes.toNat := fun i hi => by
    have hr := Finset.mem_range.1 hi
    obtain ⟨-, hlt, -⟩ := h.child_of_par (i := i) (by omega) (by omega)
    exact Finset.mem_Ico.2 ⟨h.n_le_par (by omega) (by omega), hlt⟩
  have hchildren : ∀ p ∈ Finset.Ico s.n s.nnodes.toNat,
      ∑ i ∈ Finset.range s.root.toNat with (s.nodeAt i).par.toNat = p, f i = f p := fun p hmem => by
    obtain ⟨hn, hp⟩ := Finset.mem_Ico.1 hmem
    obtain ⟨hne, hlft, hrgt, hpl, hpr⟩ := h.children hp hn
    have hfiber : {i ∈ Finset.range s.root.toNat | (s.nodeAt i).par.toNat = p} =
        {(s.nodeAt p).lft.toNat, (s.nodeAt p).rgt.toNat} := by
      ext i
      rw [Finset.mem_filter, Finset.mem_range, Finset.mem_insert, Finset.mem_singleton]
      constructor
      · rintro ⟨hi, rfl⟩
        obtain ⟨-, -, hchild⟩ := h.child_of_par (i := i) (by omega) (by omega)
        exact hchild.imp Eq.symm Eq.symm
      · rintro (rfl | rfl)
        · exact ⟨by omega, hpl⟩
        · exact ⟨by omega, hpr⟩
    rw [hfiber, Finset.sum_pair hne, hf p hp hn]
  have hall : ∑ i ∈ Finset.range s.root.toNat, f i = ∑ p ∈ Finset.Ico s.n s.nnodes.toNat, f p :=
    (Finset.sum_fiberwise_of_maps_to hparent f).symm.trans (Finset.sum_congr rfl hchildren)
  have hsplit := Finset.sum_range_add_sum_Ico f h.n_le_nnodes
  rw [← hall, hroot, Finset.sum_range_succ] at hsplit
  linarith

/-- R97 on the tree: 2^(-depth) sums over the leaves to 1. -/
theorem State.ArenaOk.kraft_sum {s : State} (h : s.ArenaOk) (h1 : 1 ≤ s.n) :
    ∑ i ∈ Finset.range s.n, (1 / 2 : ℚ) ^ s.depth i = 1 := by
  have hroot := h.nnodes_eq_succ_root h1
  have hzero : s.depth s.root.toNat = 0 :=
    (h.atDepth (by omega)).unique ⟨rfl, fun e he => absurd he (Nat.not_lt_zero e)⟩
  rw [h.sum_leaves h1 (fun i => (1 / 2 : ℚ) ^ s.depth i) fun p hp hn => ?_, hzero, pow_zero]
  obtain ⟨-, hlft, hrgt, hpl, hpr⟩ := h.children hp hn
  rw [h.depth_child (i := (s.nodeAt p).lft.toNat) (by omega) (by omega), hpl,
    h.depth_child (i := (s.nodeAt p).rgt.toNat) (by omega) (by omega), hpr]
  ring

/-- Settles O27: the code lengths are the depths of the leaves, or 1 for a single symbol. -/
theorem codesAreComplete : Obligations.CodesAreComplete := by
  intro s hinv hc
  obtain ⟨ha, hcodes⟩ := hinv.arenaOk_codesOk hc
  obtain h0 | h1 | h2 : s.n = 0 ∨ s.n = 1 ∨ 2 ≤ s.n := by omega
  · rw [if_pos h0, State.uniqList, h0]
    rfl
  · obtain ⟨hclen, -⟩ := hcodes.single h1
    rw [if_neg (by omega), if_pos h1, uniqList_of_n_eq_one h1, List.map_singleton, List.sum_singleton, hclen]
    exact pow_one _
  · rw [if_neg (by omega), if_neg (by omega), State.uniqList, List.map_map]
    refine Eq.trans ?_ (ha.kraft_sum (by omega))
    exact Finset.sum_congr (s₁ := Finset.range s.n) rfl fun i hi => by
      rw [Function.comp_apply, hcodes.clenAt_leaf ha hinv.counts.distinct h2 (Finset.mem_range.1 hi)]

end Sys2Proof.Machine
end

section
/-! SUPPORT. PACK as a whole (R99, R100, R106): when it completes, how long the blob is, and what of OUTBUF it leaves. -/

namespace Sys2Proof.Machine

theorem exec_pack_eq {s : State} (hp : s.phase = .coded) : exec .pack s = packBody s :=
  whenAccepted_of_accepts (by rw [hp]; rfl)

theorem exec_pack_of {s : State} (hp : s.phase = .coded) (hi : packInside s = true) (ht : totalBits s < 2 ^ 32) :
    exec .pack s = .next (ok (packState s)) :=
  (exec_pack_eq hp).trans (packBody_of hi ht)

/-- With codes of at most 8 bits every entry PACK reads or writes exists, and the blob fits in OUTBUF (R40, R55). -/
theorem packInside_of_fits {s : State} (hn : s.n ≤ asize) (hl : s.len ≤ s.cfg.cap)
    (hu : ∀ x ∈ s.uniqList, (s.clenAt x).toNat ≤ 8) (hinput : ∀ x ∈ s.inputList, (s.clenAt x).toNat ≤ 8) :
    packInside s = true := by
  have hfit : codesFit s = true := List.all_eq_true.2 fun x hx =>
    decide_eq_true ((List.mem_append.1 hx).elim (hu x) (hinput x))
  have htotal := totalBits_le hinput
  refine packInside_iff.2 ⟨hn, hl, hfit, ?_⟩
  simp only [asize_eq, hdrMax_eq, blobLength, payloadStart] at hn ⊢
  omega

/-- The header ends where the payload begins. -/
theorem packHeader_beyond {s : State} (hw : Memory.wf (hdrMax + s.cfg.cap) s.outbuf = true) (hn : s.n ≤ asize) {k : Nat}
    (hk : payloadStart s ≤ k) : Memory.read (packHeader s) k = Memory.read s.outbuf k := by
  obtain ⟨hcount, hrecords⟩ := packRecords_wf hw hn
  rw [payloadStart] at hk
  rw [packHeader, writeLength_read hrecords (lengthField_inside hn), if_neg (by omega), if_neg (by omega),
    if_neg (by omega), if_neg (by omega), writeRecords_other (records_inside hn) hcount k fun i hi => .inr ?_,
    Memory.read_write hw, if_neg (by omega)]
  have := List.mem_range.1 hi
  omega

/-- PACK writes no byte beyond the blob (R100). -/
theorem packBlob_beyond {s : State} (h : s.arraysWf = true) (hi : packInside s = true) {k : Nat} (hk : blobLength s ≤ k) :
    Memory.read (packBlob s) k = Memory.read s.outbuf k := by
  obtain ⟨-, -, -, -, -, -, hw⟩ := arraysWf_iff.1 h
  obtain ⟨hn, -, -, hfits⟩ := packInside_iff.1 hi
  have hstart : payloadStart s ≤ blobLength s := Nat.le_add_right _ _
  rw [packBlob_eq, emitAll_other (packHeader_wf hw hn) (payload_end s ▸ hfits) k (.inr (payload_end s ▸ hk)),
    packHeader_beyond hw hn (hstart.trans hk)]

/-- Settles O29: the premises are those of `packInside_of_fits`, and they bound every sum below 2^32. -/
theorem packCompletes : Obligations.PackCompletes := by
  intro s hlegal hw hp hn hl hu hinput T
  have hT : totalBits s = T := congrArg List.sum (List.map_map ..)
  have hfits : ∀ x ∈ s.inputList, (s.clenAt x).toNat ≤ 8 := fun x hx => by
    obtain ⟨j, hj, rfl⟩ := List.mem_map.1 hx
    exact hinput j (List.mem_range.1 hj)
  have hi : packInside s = true := packInside_of_fits hn hl (fun x hx => by
    obtain ⟨i, hi, rfl⟩ := List.mem_map.1 hx
    exact hu i (List.mem_range.1 hi)) hfits
  have htotal := totalBits_le hfits
  have hlen := len_lt_of_legal hlegal hl
  obtain ⟨-, -, -, hblob⟩ := packInside_iff.1 hi
  have hlength : blobLength s = 5 + 3 * s.n + (T + 7) / 8 := by rw [blobLength, payloadStart, hT]
  rw [hlength] at hblob
  have hbloblen : (BitVec.ofNat 32 (5 + 3 * s.n + (T + 7) / 8)).toNat = 5 + 3 * s.n + (T + 7) / 8 := by
    rw [BitVec.toNat_ofNat, Nat.mod_eq_of_lt (by omega)]
  have hframe : ok (packState s) = { s with
      outbuf := packBlob s, bitlen := BitVec.ofNat 32 T
      bloblen := BitVec.ofNat 32 (5 + 3 * s.n + (T + 7) / 8), phase := .packed, lasterr := .none } := by
    rw [← hlength, ← hT]
    rfl
  refine ⟨_, (exec_pack_of hp hi (by omega)).trans (congrArg _ hframe), rfl, ?_, hbloblen, hbloblen.trans_le hblob,
    fun i hle => packBlob_beyond hw hi (hlength.trans_le hle)⟩
  exact (BitVec.toNat_ofNat ..).trans (Nat.mod_eq_of_lt (by omega))

/-- Settles O33: the header of an empty input is five zero bytes, and there is no payload. -/
theorem emptyBlob : Obligations.EmptyBlob := by
  intro s harrays hp hl hn
  obtain ⟨-, -, -, -, -, -, hw⟩ := arraysWf_iff.1 harrays
  have huniq : s.uniqList = [] := by rw [State.uniqList, hn]; rfl
  have hinput : s.inputList = [] := by rw [State.inputList, hl]; rfl
  have htotal : totalBits s = 0 := by rw [totalBits, hinput]; rfl
  have hlength : blobLength s = 5 := by rw [blobLength, payloadStart, hn, htotal]
  have hnuniq : s.nuniq = 0 := BitVec.eq_of_toNat_eq hn
  have hi : packInside s = true := packInside_of_fits (by simp [hn]) (by omega) (by simp [huniq]) (by simp [hinput])
  have hheader : ∀ k < 5, Memory.read (packHeader s) k = 0 := fun k hk => by
    obtain ⟨hcount, -⟩ := packRecords_wf hw (by simp [hn])
    have hread := writeLength_read hcount (o := 1) (by simp only [hdrMax_eq]; omega) 0 k
    rw [packHeader, htotal, hn]
    refine hread.trans ?_
    rw [Memory.read_write hw, hnuniq]
    interval_cases k <;> rfl
  refine ⟨_, exec_pack_of hp hi (by omega), rfl, rfl, ?_, ?_, fun i => ?_⟩
  · exact congrArg (BitVec.ofNat 32) htotal
  · exact congrArg (BitVec.ofNat 32) hlength
  · split_ifs with h5
    · exact (packBlob_header harrays hi (by rw [payloadStart]; omega)).trans (hheader i h5)
    · exact packBlob_beyond harrays hi (by omega)

end Sys2Proof.Machine
end

section
/-! SUPPORT. The identities of a finished blob (R103, R104, R107): its bit count by symbol, and the payload of a
single-symbol input. -/

namespace Sys2Proof.Machine

/-- The unique symbols are the symbols of the input. -/
theorem State.CountsOk.mem_uniqList_iff_mem_inputList {s : State} (h : s.CountsOk) {x : Sym} :
    x ∈ s.uniqList ↔ x ∈ s.inputList :=
  ⟨h.mem_inputList, h.mem_uniqList⟩

/-- R103: the code lengths of the input, summed by symbol. -/
theorem State.CountsOk.totalBits_eq {s : State} (h : s.CountsOk) :
    totalBits s = (s.uniqList.map fun x => (s.countAt x).toNat * (s.clenAt x).toNat).sum := by
  have hsymbols : s.inputList.toFinset = s.uniqList.toFinset := by
    ext x
    rw [List.mem_toFinset, List.mem_toFinset, h.mem_uniqList_iff_mem_inputList]
  rw [totalBits, Finset.sum_list_map_count, hsymbols, List.sum_toFinset _ h.distinct]
  simp only [h.count_eq, smul_eq_mul]

/-- R104: NUNIQ is the number of different symbols of the input. -/
theorem State.CountsOk.n_eq_distinct {s : State} (h : s.CountsOk) :
    s.n = ((List.range 128).filter fun k => decide (BitVec.ofNat 7 k ∈ s.inputList)).length := by
  refine h.nuniq_eq.trans (congrArg List.length (List.filter_congr fun k hk => decide_eq_decide.2 ?_))
  have hlt : k < 2 ^ 7 := List.mem_range.1 hk
  rw [← h.countAt_ne_zero_iff, State.countAt, BitVec.toNat_ofNat, Nat.mod_eq_of_lt hlt]

/-- BLOBLEN in PACKED (R28, R55). -/
theorem State.Inv.bloblen_eq {s : State} (h : s.Inv) (hp : s.phase = .packed) :
    s.bloblen.toNat = 5 + 3 * s.n + (s.bitlen.toNat + 7) / 8 := by
  obtain ⟨-, -, -, hbitlen, hbloblen, -⟩ := (phaseOk_packed hp).1 h.phaseOk
  rw [hbloblen, hbitlen, blobLength, payloadStart]

/-- Settles O32: the sums over the input are taken by symbol, and the blob fits in OUTBUF. -/
theorem blobIdentities : Obligations.BlobIdentities := by
  intro s h hp
  have hlength := h.bloblen_eq hp
  obtain ⟨hcount, -⟩ := blobHeader s h hp
  refine ⟨(h.packedOk hp).bitlen_eq.trans h.counts.totalBits_eq, ?_, hcount, hlength, by omega, h.runnable.packed hp⟩
  rw [hcount]
  exact h.counts.n_eq_distinct

/-! ### A single symbol -/

section
variable {s : State} (h : s.Inv) (h1 : s.n = 1)
include h h1

theorem inputList_of_n_eq_one : s.inputList = List.replicate s.len (s.uniqAt 0) :=
  List.eq_replicate_iff.2 ⟨inputList_length s, fun _ hx =>
    List.mem_singleton.1 (uniqList_of_n_eq_one h1 ▸ h.counts.mem_uniqList hx)⟩

variable (hp : s.phase = .packed)
include hp

/-- The code of the single symbol is the one bit SINGLE_CODE_BIT (R92). -/
theorem codeBits_of_n_eq_one : codeBits s (s.uniqAt 0) = [s.cfg.singleCodeBit.getLsbD 0] := by
  obtain ⟨hclen, hcbits⟩ := (h.packedOk hp).codes.single h1
  rw [codeBits, hclen, hcbits]
  simp

/-- The bit string is a copy of SINGLE_CODE_BIT for each input symbol (R107). -/
theorem bitString_of_n_eq_one : bitString s = List.replicate s.len (s.cfg.singleCodeBit.getLsbD 0) := by
  rw [bitString, inputList_of_n_eq_one h h1, List.flatMap_replicate, codeBits_of_n_eq_one h h1 hp,
    List.flatten_replicate_singleton]

theorem totalBits_of_n_eq_one : totalBits s = s.len := by
  rw [← bitString_length, bitString_of_n_eq_one h h1 hp, List.length_replicate]

/-- Bit `k` of payload byte `i` is SINGLE_CODE_BIT or padding (R59, R107). -/
theorem blobAt_bit_of_n_eq_one {i k : Nat} (hi : i < (s.len + 7) / 8) (hk : k < 8) :
    (s.blobAt (8 + i)).getLsbD k = (decide (8 - (s.len - 8 * i) ≤ k) && s.cfg.singleCodeBit.getLsbD 0) := by
  have htotal := totalBits_of_n_eq_one h h1 hp
  have hbit := (h.packedOk hp).blobAt_bit h.arrays (q := 8 * i + (7 - k)) (by omega)
  rw [bitString_of_n_eq_one h h1 hp, List.getElem?_replicate, payloadStart, h1,
    show (8 * i + (7 - k)) / 8 = i by omega, show 7 - (8 * i + (7 - k)) % 8 = k by omega] at hbit
  rw [hbit]
  by_cases hq : 8 * i + (7 - k) < s.len
  · rw [if_pos hq, Option.getD_some, decide_eq_true (by omega), Bool.true_and]
  · rw [if_neg hq, Option.getD_none, decide_eq_false (by omega), Bool.false_and]

end

/-- A byte whose bits from `m` up are ones and whose lower bits are zeros. -/
theorem toNat_of_high_ones {y : Byte} {m : Nat} (hm : m ≤ 8) (h : ∀ k < 8, y.getLsbD k = decide (m ≤ k)) :
    y.toNat = 256 - 2 ^ m := by
  have hy : y = BitVec.allOnes 8 <<< m := BitVec.eq_of_getLsbD_eq fun k hk => by
    rw [h k hk, BitVec.getLsbD_shiftLeft, BitVec.getLsbD_allOnes]
    by_cases hmk : k < m
    · simp [hmk]
    · simp [hk, hmk, show k - m < 8 by omega, not_lt.1 hmk]
  rw [hy]
  interval_cases m <;> rfl

/-- Settles O34: the header is O30's, with the code of a single symbol, and the payload is a copy of its bit for each input
symbol. -/
theorem singleSymbolBlob : Obligations.SingleSymbolBlob := by
  intro s h hp h1
  obtain ⟨hcount, hrecord, hfield⟩ := blobHeader s h hp
  obtain ⟨hsym, hlen, -, -, hbits⟩ := hrecord 0 (by omega)
  obtain ⟨hclen, hcbits⟩ := (h.packedOk hp).codes.single h1
  have hbitlen : s.bitlen.toNat = s.len := (h.packedOk hp).bitlen_eq.trans (totalBits_of_n_eq_one h h1 hp)
  rw [h1, show s.bitlen = s.inlen from BitVec.eq_of_toNat_eq hbitlen] at hfield
  rw [hclen, hcbits] at hbits
  have hones : s.cfg.singleCodeBit = 1 → ∀ i < (s.len + 7) / 8,
      (s.blobAt (8 + i)).toNat = 256 - 2 ^ (8 - (s.len - 8 * i)) := fun hone i hi =>
    toNat_of_high_ones (by omega) fun k hk => by rw [blobAt_bit_of_n_eq_one h h1 hp hi hk, hone]; simp
  refine ⟨?_, hsym, hlen.trans hclen, hbits, hfield.symm, ?_, fun hzero i hi => ?_,
    fun hone => ⟨fun i hi => ?_, fun hr => ?_⟩⟩
  · exact hcount.trans (BitVec.eq_of_toNat_eq h1)
  · rw [h.bloblen_eq hp, h1, hbitlen]
  · exact BitVec.eq_of_getLsbD_eq fun k hk => by rw [blobAt_bit_of_n_eq_one h h1 hp hi hk, hzero]; simp
  · refine BitVec.eq_of_toNat_eq ((hones hone i (by omega)).trans ?_)
    rw [show 8 - (s.len - 8 * i) = 0 by omega]
    rfl
  · rw [hones hone _ (by omega), show 8 - (s.len - 8 * (s.len / 8)) = 8 - s.len % 8 by omega]

end Sys2Proof.Machine
end

section
/-! SUPPORT. Unique parsing of the payload (R95, R108). -/

namespace Sys2Proof.Machine

/-- A code whose words are not empty, none beginning another's, parses in at most one way. -/
theorem eq_of_flatMap_eq {α β : Type} {f : α → List β} {S : List α} (hne : ∀ x ∈ S, f x ≠ [])
    (hpre : ∀ x ∈ S, ∀ y ∈ S, f x <+: f y → x = y) : ∀ {xs ys : List α}, xs ⊆ S → ys ⊆ S →
    xs.flatMap f = ys.flatMap f → xs = ys
  | [], [], _, _, _ => rfl
  | [], y :: ys, _, hy, e => by
    rw [List.flatMap_nil, List.flatMap_cons] at e
    exact absurd (List.append_eq_nil_iff.1 e.symm).1 (hne y (hy List.mem_cons_self))
  | x :: xs, [], hx, _, e => by
    rw [List.flatMap_nil, List.flatMap_cons] at e
    exact absurd (List.append_eq_nil_iff.1 e).1 (hne x (hx List.mem_cons_self))
  | x :: xs, y :: ys, hx, hy, e => by
    obtain ⟨hxS, hxs⟩ := List.cons_subset.1 hx
    obtain ⟨hyS, hys⟩ := List.cons_subset.1 hy
    rw [List.flatMap_cons, List.flatMap_cons] at e
    obtain rfl : x = y := by
      rcases List.prefix_or_prefix_of_prefix (List.prefix_append (f x) (xs.flatMap f))
        (e ▸ List.prefix_append (f y) (ys.flatMap f)) with hle | hle
      · exact hpre x hxS y hyS hle
      · exact (hpre y hyS x hxS hle).symm
    rw [eq_of_flatMap_eq hne hpre hxs hys (List.append_cancel_left e)]

/-- The first BITLEN bits of the payload are the bit string (R59, R101). -/
theorem payloadBits_eq {s : State} (h : s.Inv) (hp : s.phase = .packed) :
    (List.range s.bitlen.toNat).map (fun q => (s.blobAt (5 + 3 * s.n + q / 8)).getLsbD (7 - q % 8)) = bitString s := by
  have hlen : (bitString s).length = s.bitlen.toNat := (bitString_length s).trans (h.packedOk hp).bitlen_eq.symm
  refine List.ext_getElem (by rw [List.length_map, List.length_range, hlen]) fun q _ hq => ?_
  have hbit := (h.packedOk hp).blobAt_bit h.arrays (q := q) (by rw [← bitString_length]; omega)
  rw [List.getElem?_eq_getElem hq, Option.getD_some] at hbit
  rw [List.getElem_map, List.getElem_range]
  exact hbit

/-- Settles O35: the payload is the codes of the input, which are not empty and none of which begins another's. -/
theorem payloadParsesUniquely : Obligations.PayloadParsesUniquely := by
  intro s h hp xs hxs
  have hpacked := h.packedOk hp
  have hne : ∀ x ∈ s.uniqList, codeBits s x ≠ [] := fun x hx e => by
    obtain ⟨i, hi, rfl⟩ := List.mem_map.1 hx
    have hpos := hpacked.codes.clenAt_pos hpacked.arena h.counts h.n_le (List.mem_range.1 hi)
    rw [← codeBits_length, e] at hpos
    exact absurd hpos (by decide)
  rw [payloadBits_eq h hp, bitString]
  refine ⟨eq_of_flatMap_eq hne (codesArePrefixFree s h (.inr hp)) hxs fun x hx => h.counts.mem_uniqList hx, ?_⟩
  rintro rfl
  rfl

end Sys2Proof.Machine
end

section
/-! SUPPORT. ENCODE (R102): that it is BUILD, CODES and PACK one after another, and how it ends from a sound state. -/

namespace Sys2Proof.Machine

theorem checkLengths_ok (s : State) : checkLengths (ok s) = checkLengths s := by
  have hlong : firstTooLong (ok s) = firstTooLong s := rfl
  unfold checkLengths
  rw [hlong]
  cases firstTooLong s <;> rfl

/-- CODES writes LASTERR whatever BUILD left there. -/
theorem codesBody_ok (s : State) : codesBody (ok s) = codesBody s := by
  have htable : codeTable (ok s) = codeTable s := rfl
  unfold codesBody
  rw [htable, ok_n]
  cases codeTable s with
  | none => rfl
  | some table =>
    exact congrArg (if s.n > asize then _ else Host.Outcome.next ·) (checkLengths_ok (s.withCodes table.1 table.2))

theorem checkLengths_phase (s : State) : (checkLengths s).phase = .coded ∨ (checkLengths s).phase = .failed := by
  obtain ⟨-, e⟩ | ⟨x, -, e⟩ := checkLengths_cases s
  · exact .inl (by rw [e]; rfl)
  · exact .inr (by rw [e]; rfl)

/-- Settles O37, outcome by outcome: a body that stops stops both, BUILD ends in TREE, and CODES in CODED or FAILED. -/
theorem encodeIsBuildCodesPack : Obligations.EncodeIsBuildCodesPack := by
  intro s hp
  have hencode : exec .encode s = encodeBody s := whenAccepted_of_accepts (by rw [hp]; rfl)
  have hbuild : exec .build s = andThen (buildBody s) fun t => .next (ok t) := whenAccepted_of_accepts (by rw [hp]; rfl)
  rw [hencode, hbuild, encodeBody]
  cases hu : buildBody s with
  | fault | refused => rfl
  | next u =>
    obtain ⟨-, -, rfl⟩ := buildBody_eq_next hu
    have hcodes : exec .codes (ok (buildState Config.tieChoice s)) = codesBody (buildState Config.tieChoice s) :=
      (whenAccepted_of_accepts (accepts_codes (s := ok (buildState Config.tieChoice s)) rfl)).trans (codesBody_ok _)
    rw [andThen_next, andThen_next, andThen_next, hcodes]
    cases hv : codesBody (buildState Config.tieChoice s) with
    | fault | refused => rfl
    | next v =>
      obtain ⟨-, clen, cbits, -, e⟩ := codesBody_eq_next hv
      rw [andThen_next, andThen_next]
      obtain hphase | hphase : v.phase = .coded ∨ v.phase = .failed := e ▸ checkLengths_phase _
      · rw [exec_pack_eq hphase, hphase]
        rfl
      · rw [hphase]
        rfl

/-- The state of ENCODE once BUILD has made the tree and CODES has derived the given table from it (R102). -/
def encodeTable (s : State) (clen cbits : Memory Byte) : State := (ok (buildState Config.tieChoice s)).withCodes clen cbits

/-- Where ENCODE ends from there: with PACK's writes, unless a code is too long (R93, R102). -/
def encodeEnd (u : State) : State :=
  match firstTooLong u with
  | none => ok (packState (checkLengths u))
  | some _ => checkLengths u

theorem encodeEnd_of_fits {u : State} (hf : firstTooLong u = none) :
    encodeEnd u = ok (packState (ok { u with phase := .coded })) := by
  rw [encodeEnd, checkLengths, hf]

theorem encodeEnd_of_tooLong {u : State} {x : Sym} (hf : firstTooLong u = some x) :
    encodeEnd u = fail .codeTooLong (0#16 ++ u.clenAt x ++ x.setWidth 8) { u with phase := .failed } := by
  rw [encodeEnd, checkLengths, hf]

theorem encodeEnd_frame (u : State) : encodeEnd u = { u with
    outbuf := (encodeEnd u).outbuf, bitlen := (encodeEnd u).bitlen, bloblen := (encodeEnd u).bloblen
    phase := (encodeEnd u).phase, lasterr := (encodeEnd u).lasterr, err := (encodeEnd u).err
    errinfo := (encodeEnd u).errinfo } := by
  cases hf : firstTooLong u with
  | none => rw [encodeEnd_of_fits hf]; rfl
  | some x => rw [encodeEnd_of_tooLong hf]; rfl

/-- ENCODE from a sound state in COLLECT, through the three commands. -/
theorem State.Inv.exec_encode {s : State} (h : s.Inv) (hp : s.phase = .collect) :
    ∃ clen cbits, (encodeTable s clen cbits).CodesOk ∧ exec .encode s = .next (encodeEnd (encodeTable s clen cbits)) := by
  have hmax : leafWeight s < 2 ^ 32 := h.counts.leafWeight_eq ▸ s.inlen.isLt
  have hbuilt : (ok (buildState Config.tieChoice s)).Inv := build_inv h Config.tieChoice hp
  have harena := hbuilt.arenaOk nofun
  obtain ⟨clen, cbits, hcodes, hexec⟩ := exec_codes_of (s := ok (buildState Config.tieChoice s)) rfl hbuilt.n_le
    (codeTable_isSome harena.linksUp harena.n_le_nnodes)
  have hbuild : exec .build s = .next (ok (buildState Config.tieChoice s)) := execBuild_of hp h.n_le hmax
  refine ⟨clen, cbits, hcodes, ?_⟩
  rw [encodeIsBuildCodesPack s hp, hbuild, andThen_next, hexec, andThen_next, encodeTable]
  cases hf : firstTooLong ((ok (buildState Config.tieChoice s)).withCodes clen cbits) with
  | none =>
    have hcoded := codes_inv hbuilt rfl hcodes hf
    obtain ⟨hi, ht⟩ := pack_fits hcoded.legal hcoded.len_le hcoded.n_le hcoded.counts hf
    rw [encodeEnd_of_fits hf, checkLengths, hf]
    exact exec_pack_of rfl hi ht
  | some x =>
    rw [encodeEnd_of_tooLong hf, checkLengths, hf]
    rfl

/-- Settles O38: the frame is BUILD's with what CODES and PACK write, and the end state meets the invariant, which gives
BLOBLEN in PACKED and no blob in FAILED. -/
theorem encodeCompletes : Obligations.EncodeCompletes := by
  intro s h hp
  obtain ⟨-, -, -, hw, -⟩ := arraysWf_iff.1 h.arrays
  obtain ⟨clen, cbits, hcodes, hexec⟩ := h.exec_encode hp
  have hinv := exec_inv h hexec
  refine ⟨_, hexec, ?_, ?_⟩
  · rw [encodeEnd_frame, encodeTable,
      buildState_frame Config.tieChoice hw h.n_le (h.counts.leafWeight_eq ▸ s.inlen.isLt)]
    rfl
  · cases hf : firstTooLong (encodeTable s clen cbits) with
    | none =>
      rw [encodeEnd_of_fits hf] at hinv ⊢
      exact .inl ⟨rfl, rfl, rfl, rfl, hinv.bloblen_eq rfl⟩
    | some x =>
      rw [encodeEnd_of_tooLong hf] at hinv ⊢
      obtain ⟨-, -, -, hbitlen, hbloblen⟩ := (phaseOk_failed rfl).1 hinv.phaseOk
      exact .inr ⟨rfl, rfl, hbitlen, hbloblen, rfl⟩

end Sys2Proof.Machine
end

section
/-! SUPPORT. ENCODE as a function of the input (R105): under FIFO neither the counts of draws nor the status bits nor the
contents left over from earlier inputs reach the blob. -/

namespace Sys2Proof.Machine

/-! ### The symbol counter is a function of the input -/

section
variable {s t : State} (hs : s.CountsOk) (ht : t.CountsOk) (e : s.inputList = t.inputList)
include hs ht e

/-- UNIQ lists the symbols of the input in the order of their first occurrence (R44 (c)). -/
theorem uniqList_eq_of_inputList_eq : s.uniqList = t.uniqList := by
  have hperm : s.uniqList.Perm t.uniqList := (List.perm_ext_iff_of_nodup hs.distinct ht.distinct).2 fun x => by
    rw [hs.mem_uniqList_iff_mem_inputList, ht.mem_uniqList_iff_mem_inputList, e]
  have hordered := ht.ordered
  rw [← e] at hordered
  exact hperm.eq_of_pairwise (fun _ _ _ _ hlt hgt => absurd hlt hgt.asymm) hs.ordered hordered

theorem n_eq_of_inputList_eq : s.n = t.n := by
  have hlen := congrArg List.length (uniqList_eq_of_inputList_eq hs ht e)
  rwa [State.uniqList, State.uniqList, List.length_map, List.length_map, List.length_range, List.length_range] at hlen

theorem count_eq_of_inputList_eq (hw : Memory.wf asize s.count = true) (hw' : Memory.wf asize t.count = true) :
    s.count = t.count :=
  Memory.ext_read hw hw' fun k => by
    by_cases hk : k < 128
    · have hsym : (BitVec.ofNat 7 k).toNat = k := by rw [BitVec.toNat_ofNat, Nat.mod_eq_of_lt hk]
      have hcount := hs.count_eq (BitVec.ofNat 7 k)
      rw [e, ← ht.count_eq, State.countAt, State.countAt, hsym] at hcount
      exact BitVec.eq_of_toNat_eq hcount
    · rw [Memory.read_beyond hw k (not_lt.1 hk), Memory.read_beyond hw' k (not_lt.1 hk)]

end

/-! ### FIFO takes no free choice -/

theorem mergeAll_fifo_draw (choice : Nat → Nat) : ∀ (fuel : Nat) (f : Forest) (d : Nat),
    ∃ d', mergeAll .fifo choice fuel { f with draw := d } = { mergeAll .fifo choice fuel f with draw := d' }
  | 0, _, d => ⟨d, rfl⟩
  | fuel + 1, f, d => by
    rw [mergeAll, mergeAll]
    by_cases hl : f.eligible.length ≤ 1
    · exact ⟨d, by rw [if_pos hl, if_pos hl]⟩
    · rw [if_neg hl, if_neg hl]
      exact mergeAll_fifo_draw choice fuel (mergeOnce .fifo choice f) (d + 2)

/-! ### The status bits, the results and the draws reach no data -/

section
variable {s t : State} (h : s.SameData t)
include h

theorem buildState_sameData (hf : s.cfg.tieBreak = .fifo) (choice : Nat → Nat) :
    (buildState choice s).SameData (buildState choice t) := by
  obtain ⟨d, hd⟩ := mergeAll_fifo_draw choice s.n (leafForest s) t.draws
  have hforest : buildForest choice t = { buildForest choice s with draw := d } := by
    rw [buildForest_eq, buildForest_eq, hf, ← hd, h]
    simp only [hf]
    rfl
  rw [State.SameData, buildState, hforest, h]
  rfl

theorem firstTooLong_sameData : firstTooLong t = firstTooLong s := by
  rw [h]
  rfl

theorem encodeEnd_sameData : (encodeEnd s).SameData (encodeEnd t) := by
  have hlong := firstTooLong_sameData h
  cases hf : firstTooLong s with
  | none =>
    rw [encodeEnd_of_fits hf, encodeEnd_of_fits (hlong.trans hf), h]
    rfl
  | some x =>
    rw [encodeEnd_of_tooLong hf, encodeEnd_of_tooLong (hlong.trans hf), h]
    rfl

variable (hf : s.cfg.tieBreak = .fifo)
include hf

theorem encodeTable_sameData (clen cbits : Memory Byte) :
    (encodeTable s clen cbits).SameData (encodeTable t clen cbits) := by
  rw [State.SameData, encodeTable, encodeTable, buildState_sameData h hf]
  rfl

theorem codeTable_encodeTable (clen cbits clen' cbits' : Memory Byte) :
    codeTable (encodeTable t clen' cbits') = codeTable (encodeTable s clen cbits) := by
  rw [encodeTable, buildState_sameData h hf]
  rfl

theorem exec_encode_sameData (hs : s.Inv) (ht : t.Inv) (hp : s.phase = .collect) :
    ∃ s' t', exec .encode s = .next s' ∧ exec .encode t = .next t' ∧ s'.SameData t' := by
  have hp' : t.phase = .collect := (congrArg State.phase h).trans hp
  obtain ⟨clen, cbits, hcodes, hexec⟩ := hs.exec_encode hp
  obtain ⟨clen', cbits', hcodes', hexec'⟩ := ht.exec_encode hp'
  obtain ⟨rfl, rfl⟩ : clen = clen' ∧ cbits = cbits' := Prod.mk.inj (Option.some.inj
    (hcodes.symm.trans ((codeTable_encodeTable h hf clen cbits clen' cbits').symm.trans hcodes')))
  exact ⟨_, _, hexec, hexec', encodeEnd_sameData (encodeTable_sameData h hf clen cbits)⟩

end

/-! ### The blob of an input -/

theorem State.Agree.bitlen_eq {s t : State} (h : s.Agree t) : t.bitlen = s.bitlen :=
  (congrArg State.bitlen h.rest).trans rfl

/-- `t` with the status bits, the error record, the results, PENDING and the model's own fields of `s`. -/
def State.withStatusOf (t s : State) : State :=
  { t with
    busy := s.busy, ovr := s.ovr, lasterr := s.lasterr, err := s.err, res0 := s.res0, res1 := s.res1
    errinfo := s.errinfo, pending := s.pending, host := s.host, rdata := s.rdata, draws := s.draws }

theorem sameData_withStatusOf (t s : State) : t.SameData (t.withStatusOf s) := rfl

/-- Two sound states that have collected the same input agree, once their status is the same: nothing else is valid yet
(R43, R44). -/
theorem agree_withStatusOf {s t : State} (hs : s.Inv) (ht : t.Inv) (hp : s.phase = .collect) (hp' : t.phase = .collect)
    (hc : s.cfg = t.cfg) (e : s.inputList = t.inputList) : s.Agree (t.withStatusOf s) := by
  obtain ⟨hcount, -⟩ := arraysWf_iff.1 hs.arrays
  obtain ⟨hcount', -⟩ := arraysWf_iff.1 ht.arrays
  obtain ⟨hnnodes, hroot, ⟨hclen, hcbits⟩, hbitlen, hbloblen⟩ := (phaseOk_collect hp).1 hs.phaseOk
  obtain ⟨hnnodes', hroot', ⟨hclen', hcbits'⟩, hbitlen', hbloblen'⟩ := (phaseOk_collect hp').1 ht.phaseOk
  have hn := n_eq_of_inputList_eq hs.counts ht.counts e
  have hl : s.len = t.len := by rw [← inputList_length, ← inputList_length, e]
  have huniq : ∀ i < s.n, s.uniqAt i = t.uniqAt i := fun i hi => by
    have hlist := uniqList_eq_of_inputList_eq hs.counts ht.counts e
    rw [State.uniqList, State.uniqList, ← hn] at hlist
    exact List.map_inj_left.1 hlist i (List.mem_range.2 hi)
  have hinput : ∀ j < s.len, s.inputAt j = t.inputAt j := fun j hj => by
    rw [State.inputList, State.inputList, ← hl] at e
    exact List.map_inj_left.1 e j (List.mem_range.2 hj)
  refine ⟨?_, huniq, hinput, fun i hi => ?_, fun i hi => ?_, fun _ => rfl⟩
  · simp only [State.withStatusOf, hp, hp', ← hc, hnnodes, hnnodes', hroot, hroot', hclen, hclen', hcbits,
      hcbits', hbitlen, hbitlen', hbloblen, hbloblen', count_eq_of_inputList_eq hs.counts ht.counts e hcount hcount',
      BitVec.eq_of_toNat_eq hn, BitVec.eq_of_toNat_eq hl]
  · rw [hnnodes] at hi
    exact absurd hi (Nat.not_lt_zero i)
  · rw [hbloblen] at hi
    exact absurd hi (Nat.not_lt_zero i)

/-- Settles O36, by way of the second state with the first one's status: it agrees with the first, so ENCODE makes the same
blob from both, and it has the second one's data. -/
theorem blobIsFunctionOfInput : Obligations.BlobIsFunctionOfInput := by
  intro s t s' hs ht hp hp' hc hf e hexec hpacked
  have hv : (t.withStatusOf s).Inv := ht.of_sameData (sameData_withStatusOf t s) hs.errors
  obtain ⟨u, v', hu, hexecv, hagree⟩ := exec_agree .encode hs.runnable hv.arrays (agree_withStatusOf hs ht hp hp' hc e)
  obtain rfl : s' = u := Host.Outcome.next.inj (hexec.symm.trans hu)
  obtain ⟨t', w, hexect, hw, hsame⟩ := exec_encode_sameData (sameData_withStatusOf t s) (hc ▸ hf) ht hv hp'
  obtain rfl : v' = w := Host.Outcome.next.inj (hexecv.symm.trans hw)
  rw [hsame] at hagree
  exact ⟨t', hexect, hagree.phase_eq.trans hpacked, hagree.bitlen_eq, hagree.bloblen_eq, fun i hi =>
    (hagree.outbuf i hi).symm⟩

end Sys2Proof.Machine
end

section
/-! SUPPORT. The read commands (R109 to R115) in a phase that accepts them and with the operand inside the array: each ends
in `answer`. -/

namespace Sys2Proof.Machine

theorem accepts_rdNode {s : State} (hp : s.phase ≠ .collect) (arg : Arg) : accepts (.rdNode arg) s.phase = true := by
  cases h : s.phase with
  | collect => exact absurd h hp
  | tree | coded | packed | failed => rfl

theorem accepts_rdCode {s : State} (hp : s.phase ≠ .collect) (hp' : s.phase ≠ .tree) (arg : Arg) :
    accepts (.rdCode arg) s.phase = true := by
  cases h : s.phase with
  | collect => exact absurd h hp
  | tree => exact absurd h hp'
  | coded | packed | failed => rfl

theorem accepts_rdBlob {s : State} (hp : s.phase = .packed) (arg : Arg) : accepts (.rdBlob arg) s.phase = true := by
  rw [hp]; rfl

theorem execRdCount_of_inside {s : State} {arg : Arg} (hx : arg.toNat ≤ symMax) :
    execRdCount arg s = .next (answer (s.countAt (arg.setWidth 7)) 0 s) := by
  rw [execRdCount, whenAccepted_of_accepts rfl, symOperand_inside hx]

theorem execRdUniq_of_inside {s : State} {arg : Arg} (hi : arg.toNat < s.n) (hn : s.n ≤ asize) :
    execRdUniq arg s = .next (answer ((s.uniqAt arg.toNat).setWidth 32) 0 s) := by
  rw [execRdUniq, whenAccepted_of_accepts rfl, idxOperand_inside hi]
  exact if_neg (not_le.2 (hi.trans_le hn))

theorem execRdInput_of_inside {s : State} {arg : Arg} (hi : arg.toNat < s.len) (hl : s.len ≤ s.cfg.cap) :
    execRdInput arg s = .next (answer ((s.inputAt arg.toNat).setWidth 32) 0 s) := by
  rw [execRdInput, whenAccepted_of_accepts rfl, idxOperand_inside hi]
  exact if_neg (not_le.2 (hi.trans_le hl))

theorem execRdNode_of_inside {s : State} {arg : Arg} (hp : s.phase ≠ .collect) (hi : arg.toNat < s.nnodes.toNat) :
    execRdNode arg s = .next (answer (s.nodeAt arg.toNat).w (nodeLinks (s.nodeAt arg.toNat)) s) := by
  rw [execRdNode, whenAccepted_of_accepts (accepts_rdNode hp arg), idxOperand_inside hi]

theorem execRdCode_of_inside {s : State} {arg : Arg} (hp : s.phase ≠ .collect) (hp' : s.phase ≠ .tree)
    (hx : arg.toNat ≤ symMax) :
    execRdCode arg s =
      .next (answer (0#16 ++ s.clenAt (arg.setWidth 7) ++ s.cbitsAt (arg.setWidth 7)) 0 s) := by
  rw [execRdCode, whenAccepted_of_accepts (accepts_rdCode hp hp' arg), symOperand_inside hx]

theorem execRdBlob_of_inside {s : State} {arg : Arg} (hp : s.phase = .packed) (hi : arg.toNat < s.bloblen.toNat)
    (hb : s.bloblen.toNat ≤ hdrMax + s.cfg.cap) :
    execRdBlob arg s = .next (answer ((s.blobAt arg.toNat).setWidth 32) 0 s) := by
  rw [execRdBlob, whenAccepted_of_accepts (accepts_rdBlob hp arg), idxOperand_inside hi]
  exact if_neg (not_le.2 (hi.trans_le hb))

/-- RES0 of RD_CODE as a number: the length in bits 15:8, the code in bits 7:0 (R114). -/
theorem codeEntry_eq_ofNat (len bits : Byte) :
    (0#16 ++ len ++ bits : Word) = BitVec.ofNat 32 (len.toNat * 256 + bits.toNat) := by
  apply BitVec.eq_of_toNat_eq
  rw [toNat_append_eq, toNat_append_eq, BitVec.toNat_ofNat, BitVec.toNat_ofNat]
  omega

/-- Settles O39: with the operand inside its array each read answers the entry. -/
theorem readCounterArrays : Obligations.ReadCounterArrays := by
  intro arg s
  exact ⟨execRdCount_of_inside, execRdUniq_of_inside, execRdInput_of_inside⟩

/-- Settles O40: in its phases and with the operand inside its array each read answers the entry. -/
theorem readTreeCodesBlob : Obligations.ReadTreeCodesBlob := by
  intro arg s
  refine ⟨execRdNode_of_inside, fun hp hp' hx => ?_, execRdBlob_of_inside⟩
  rw [← codeEntry_eq_ofNat]
  exact execRdCode_of_inside hp hp' hx

end Sys2Proof.Machine
end

section
/-! SUPPORT. How a command fails (R118 to R124): FULL in a full input buffer, RANGE outside an array, and what any failure
leaves of the state. -/

namespace Sys2Proof.Machine

/-! ### FULL -/

/-- The word of a PUSH as a number (R65, R71). -/
theorem encode_push_eq_ofNat (arg : Arg) : encode (.push arg) = BitVec.ofNat 32 (0x02000000 + arg.toNat) := by
  have hword : (encode (.push arg)).toNat = 2 * 2 ^ 24 + arg.toNat := toNat_append_eq _ _
  have harg : arg.toNat < 2 ^ 24 := arg.isLt
  apply BitVec.eq_of_toNat_eq
  rw [hword, BitVec.toNat_ofNat]
  omega

theorem execPush_of_full {s : State} {arg : Arg} (hp : s.phase = .collect) (hx : arg.toNat ≤ symMax)
    (hl : s.len = s.cfg.cap) : execPush arg s = .next (fail .full (encode (.push arg)) s) := by
  rw [execPush, whenAccepted_of_accepts (push_accepted_in_collect hp arg), symOperand_inside hx]
  exact if_pos hl

/-- Settles O12: a full buffer is found before the symbol is stored or counted (R80). -/
theorem pushFull : Obligations.PushFull := by
  intro arg s hp hx hl
  rw [← encode_push_eq_ofNat]
  exact execPush_of_full hp hx hl

/-! ### RANGE -/

theorem execRdCount_of_outside {s : State} {arg : Arg} (hx : symMax < arg.toNat) :
    execRdCount arg s = .next (fail .range (encode (.rdCount arg)) s) := by
  rw [execRdCount, whenAccepted_of_accepts rfl, symOperand_outside hx]

theorem execRdUniq_of_outside {s : State} {arg : Arg} (hi : s.n ≤ arg.toNat) :
    execRdUniq arg s = .next (fail .range (encode (.rdUniq arg)) s) := by
  rw [execRdUniq, whenAccepted_of_accepts rfl, idxOperand_outside hi]

theorem execRdInput_of_outside {s : State} {arg : Arg} (hi : s.len ≤ arg.toNat) :
    execRdInput arg s = .next (fail .range (encode (.rdInput arg)) s) := by
  rw [execRdInput, whenAccepted_of_accepts rfl, idxOperand_outside hi]

theorem execRdNode_of_outside {s : State} {arg : Arg} (hp : s.phase ≠ .collect) (hi : s.nnodes.toNat ≤ arg.toNat) :
    execRdNode arg s = .next (fail .range (encode (.rdNode arg)) s) := by
  rw [execRdNode, whenAccepted_of_accepts (accepts_rdNode hp arg), idxOperand_outside hi]

theorem execRdCode_of_outside {s : State} {arg : Arg} (hp : s.phase ≠ .collect) (hp' : s.phase ≠ .tree)
    (hx : symMax < arg.toNat) : execRdCode arg s = .next (fail .range (encode (.rdCode arg)) s) := by
  rw [execRdCode, whenAccepted_of_accepts (accepts_rdCode hp hp' arg), symOperand_outside hx]

theorem execRdBlob_of_outside {s : State} {arg : Arg} (hp : s.phase = .packed) (hi : s.bloblen.toNat ≤ arg.toNat) :
    execRdBlob arg s = .next (fail .range (encode (.rdBlob arg)) s) := by
  rw [execRdBlob, whenAccepted_of_accepts (accepts_rdBlob hp arg), idxOperand_outside hi]

/-- Settles O41: in its phases each read checks its operand against its own array before it reads. -/
theorem readOutsideRange : Obligations.ReadOutsideRange := by
  intro i s outside ho
  cases i with
  | rdCount arg => exact execRdCount_of_outside ho
  | rdUniq arg => exact execRdUniq_of_outside ho
  | rdInput arg => exact execRdInput_of_outside ho
  | rdNode arg =>
    obtain ⟨hp, hi⟩ := ho
    exact execRdNode_of_outside hp hi
  | rdCode arg =>
    obtain ⟨hphase, hx⟩ := ho
    have hp : s.phase ≠ .collect := fun e => by simp [e] at hphase
    have hp' : s.phase ≠ .tree := fun e => by simp [e] at hphase
    exact execRdCode_of_outside hp hp' hx
  | rdBlob arg =>
    obtain ⟨hp, hi⟩ := ho
    exact execRdBlob_of_outside hp hi
  | nop | clear | push | build | codes | pack | encode => exact ho.elim

/-! ### Any failure -/

/-- Settles O7, by the cases of a command: a success has LASTERR = 0, a failure is `fail` on the state it began in, and
a code that is too long ends CODES or ENCODE in FAILED. -/
theorem failureLeavesData : Obligations.FailureLeavesData := by
  intro i s t hexec hlast
  cases exec_did hexec with
  | failed i c _ hl => exact ⟨fun _ => rfl, fun hc => absurd hc hl⟩
  | tooLong => exact ⟨fun hne => absurd rfl hne, fun _ => ⟨.inl rfl, rfl⟩⟩
  | encodeTooLong => exact ⟨fun hne => absurd rfl hne, fun _ => ⟨.inr rfl, rfl⟩⟩
  | nop | cleared | dropped | pushed | built | coded | packed | encoded | answered => exact absurd rfl hlast

end Sys2Proof.Machine
end

section
/-! SUPPORT. Reset as an event of the host (R131, R132). -/

namespace Sys2Proof.Machine

theorem step_reset {s : State} {es : List HostEvent} (h : s.host = .reset :: es) :
    step s = .next (resetCore { s with host := es }) := by
  simp only [step, h, hostEvent]

/-- The model's own fields, which reset keeps, are none of those R43 gives a value. -/
theorem resetCore_atReset (s : State) : (resetCore s).AtReset := by
  obtain ⟨⟨status, results, registers, tables⟩, -⟩ := resetState s.cfg
  exact ⟨status, results, registers, tables⟩

/-- Settles O51: the event is `resetCore` in every state, whatever BUSY and PENDING are. -/
theorem resetEvent : Obligations.ResetEvent := fun s es h =>
  ⟨resetCore { s with host := es }, step_reset h, resetCore_atReset _, resetCore_cfg _, rfl⟩

end Sys2Proof.Machine
end
